-- ==== Sys2Proof/Word.lean ====
section
/-! DEFINITION. The word types of the ports: 8-bit bytes, 32-bit words (R2, R6, R32) and 64-bit
operation words (R90). -/

namespace Sys2Proof

/-- One byte of a serialised word (R62). -/
abbrev Byte := BitVec 8

/-- `REG_BITS`: a register or data word, and one frame (R6, R7). -/
abbrev Word := BitVec 32

/-- `OPW_BITS`: one operation word (R7, R90). -/
abbrev OpWord := BitVec 64

/-- An 8-bit host register address, the `ra` field (R90, R91). -/
abbrev RegAddr := BitVec 8

end Sys2Proof
end

