-- ==== Sys2Proof/Config.lean ====
section
/-! DEFINITION. The implementation parameters `CFG` of R7 and the numeric configuration `NUM` of
R11, with the laws L1 to L5 of R12, and the one opaque configuration the machine runs under. -/

namespace Sys2Proof

/-! ## The fixed parameters of R7 -/

/-- `FS`, the sample rate in Hz, fixed (R2, R7); NUM's constant `FS` is this number, `Numeric.fs`. -/
def sampleRate : Nat := 44100
/-- `FRAME_BYTES` (R2, R7): the length of a frame in a byte stream, `frameToBytes` (R62). -/
def frameBytes : Nat := 4
/-- `CHANNELS` (R2, R7): one, so a frame is one sample, one `Word` (R6). -/
def channels : Nat := 1
/-- `CAPACITY`, the capture buffer's capacity in samples (R7). -/
def capacity : Nat := 262144
/-- `TB_ENTRIES` (R7, R8). -/
def tbEntries : Nat := 12
/-- `kSamples`, the spectrum transform length (R7). -/
def kSamples : Nat := 4096
/-- `kOversample`, overlapping sub-windows per publication (R7). -/
def kOversample : Nat := 4
/-- `kStep`, new samples per sub-window: `kSamples / kOversample` (R7). -/
def kStep : Nat := kSamples / kOversample
/-- `kLog2Step`; no rule reads it (R7, R177). -/
def kLog2Step : Nat := 10
/-- `kRange`, spectrum bins kept (R7). -/
def kRange : Nat := kSamples / 2

/-! ## NUM -/

/-- The record `NUM` of R11 over a numeric type `α`.
`α`'s own zero is NUM's constant `0`; the two laws about it are read from the spec (DEDUCED, log 2).
`finite` is not in R11's list: it is the word 'finite' of R7 and of the laws L3 and L5 (log 4).
The constant `FS` of R11's list is no field but `Numeric.fs`, since R7 fixes it (log 16).
The values written here after `:=` only show Lean that the type has a member; nothing uses them. -/
structure Numeric (α : Type) [Zero α] where
  dec32   : Word → α := fun _ => 0
  enc32   : α → Word := fun _ => 0
  one     : α := 0
  twoPi   : α := 0
  add     : α → α → α := fun _ _ => 0
  sub     : α → α → α := fun _ _ => 0
  mul     : α → α → α := fun _ _ => 0
  div     : α → α → α := fun _ _ => 0
  abs     : α → α := fun _ => 0
  sin     : α → α := fun _ => 0
  lt      : α → α → Bool := fun _ _ => true
  le      : α → α → Bool := fun _ _ => true
  ofNat   : Nat → α := fun _ => 0
  wrap2pi : α → α := fun _ => 0
  dftmag  : (Fin kSamples → α) → (Fin kRange → α) := fun _ _ => 0
  finite  : α → Bool := fun _ => true
  /-- `dec32(0)` is the constant `0`: R121(a) calls the reset value `dec32(0)` zero (DEDUCED, log 2). -/
  dec32_zero : dec32 0#32 = 0 := by intros; rfl
  /-- Zero encodes as all-zero bits: the reset column of R32, R251 (DEDUCED, log 2). -/
  enc32_zero : enc32 0 = 0#32 := by intros; rfl
deriving Inhabited

section
variable {α : Type} [Zero α]

/-- NUM's constant `FS`: the number 44100, which R2 and R7 fix and which is no argument of the
model. It is 44100 through `ofNat`, the one conversion from integers to `Q` (R13; DEDUCED, log 16). -/
def Numeric.fs (n : Numeric α) : α := n.ofNat sampleRate

/-- Law L1 of R12: `abs x` is not less than 0 and `abs 0 = 0`. -/
def Numeric.LawAbs (n : Numeric α) : Prop :=
  (∀ x, n.lt (n.abs x) 0 = false) ∧ n.abs 0 = 0

/-- Law L2 of R12: `wrap2pi x` lies in `[0, TWO_PI)`. -/
def Numeric.LawWrap (n : Numeric α) : Prop :=
  ∀ x, n.le 0 (n.wrap2pi x) = true ∧ n.lt (n.wrap2pi x) n.twoPi = true

/-- Law L3 of R12: on the finite values `le` is a total order and `lt` its strict part. Equality of
values that are `le` both ways is not asked for, since binary32 has two zeros (U5). -/
def Numeric.LawOrder (n : Numeric α) : Prop :=
  (∀ x y, n.finite x = true → n.finite y = true → (n.le x y = true ∨ n.le y x = true)) ∧
  (∀ x y z, n.finite x = true → n.finite y = true → n.finite z = true →
    n.le x y = true → n.le y z = true → n.le x z = true) ∧
  (∀ x y, n.finite x = true → n.finite y = true → (n.lt x y = true ↔ n.le y x = false))

/-- Law L4 of R12. -/
def Numeric.LawSin (n : Numeric α) : Prop := n.sin 0 = 0

/-- Law L5 of R12: for `0 < a <= 1` and finite `l`, `i`, the value `l + a * (i - l)` lies between
`l` and `i`. -/
def Numeric.LawSmooth (n : Numeric α) : Prop :=
  ∀ a l i, n.lt 0 a = true → n.le a n.one = true → n.finite l = true → n.finite i = true →
    (n.le l i = true →
      n.le l (n.add l (n.mul a (n.sub i l))) = true ∧
      n.le (n.add l (n.mul a (n.sub i l))) i = true) ∧
    (n.le i l = true →
      n.le i (n.add l (n.mul a (n.sub i l))) = true ∧
      n.le (n.add l (n.mul a (n.sub i l))) l = true)

/-- The frequency of spectrum bin `k`: `k * FS / kSamples`, in the written order (R13, R175, R176). -/
def Numeric.binFreq (n : Numeric α) (k : Nat) : α :=
  n.div (n.mul (n.ofNat k) n.fs) (n.ofNat kSamples)

end

/-! ## CFG -/

/-- `CFG`: the OPEN parameters of R7 with their constraints (log 3).
A timebase count is a power of two between 1 and `CAPACITY = 2^18`, so its logarithm is stored.
`peakUnordered` is the free value of log 5: the bin `PeakBin` reports under a NUM for which R175's
set has no bin that satisfies its condition. `beyondCount` and `beyondScale` are the free values of
log 11: what a 4-bit index that names no entry of the table selects.
The values written here after `:=` only show Lean that the type has a member; nothing uses them. -/
structure Cfg (α : Type) [Zero α] where
  num           : Numeric α := {}
  /-- Base-2 logarithm of `TIMEBASE[i].count`. -/
  tableCountLog : Fin tbEntries → Fin 19 := fun _ => 0
  /-- `TIMEBASE[i].scale`. -/
  tableScale    : Fin tbEntries → α := fun _ => 0
  kFrequencyMin : α := 0
  kFrequencyMax : α := 0
  kToneFreqMin  : α := 0
  kToneFreqMax  : α := 0
  kMeterMin     : α := 0
  kMeterMax     : α := 0
  kMeterAttack  : α := 0
  kMeterDecay   : α := 0
  peakUnordered : (Fin kRange → α) → Fin kRange := fun _ => ⟨0, by decide⟩
  /-- One less than the count. -/
  beyondCount   : BitVec 4 → Fin capacity := fun _ => ⟨0, by decide⟩
  beyondScale   : BitVec 4 → α := fun _ => 0
  scale_ok      : ∀ i, num.lt 0 (tableScale i) = true ∧ num.finite (tableScale i) = true := by
                    intros; exact ⟨rfl, rfl⟩
  band_ok       : num.le 0 kFrequencyMin = true ∧ num.le kFrequencyMin kFrequencyMax = true ∧
                  num.le kFrequencyMax (num.div num.fs (num.ofNat 2)) = true := by
                    exact ⟨rfl, rfl, rfl⟩
  band_nonempty : ∃ k : Fin kRange, num.le kFrequencyMin (num.binFreq k) = true ∧
                  num.le (num.binFreq k) kFrequencyMax = true := by exact ⟨⟨0, by decide⟩, rfl, rfl⟩
  tone_ok       : num.le 0 kToneFreqMin = true ∧ num.le kToneFreqMin kToneFreqMax = true ∧
                  num.le kToneFreqMax (num.div num.fs (num.ofNat 2)) = true := by
                    exact ⟨rfl, rfl, rfl⟩
  meter_ok      : num.le 0 kMeterMin = true ∧ num.lt kMeterMin kMeterMax = true := by
                    exact ⟨rfl, rfl⟩
  attack_ok     : num.lt 0 kMeterAttack = true ∧ num.le kMeterAttack num.one = true := by
                    exact ⟨rfl, rfl⟩
  decay_ok      : num.lt 0 kMeterDecay = true ∧ num.le kMeterDecay num.one = true := by
                    exact ⟨rfl, rfl⟩
deriving Inhabited

section
variable {α : Type} [Zero α]

/-- The entry of the timebase table a 4-bit index names; none for 12 to 15, which `req.tb` and
`cap.tb` can hold only before the first `RESET` (R24, R27, R140, R250). -/
def tableEntry (i : BitVec 4) : Option (Fin tbEntries) :=
  if h : i.toNat < tbEntries then some ⟨i.toNat, h⟩ else none

/-- `TIMEBASE[i].count` (R7, R8). The spec applies it to no index above 11 (R140); there it is a
free value from 1 to `CAPACITY` (DESIGN CHOICE, log 11). -/
def Cfg.count (c : Cfg α) (i : BitVec 4) : Nat :=
  match tableEntry i with
  | some k => 2 ^ (c.tableCountLog k).val
  | none => (c.beyondCount i).val + 1

/-- `TIMEBASE[i].scale` (R7, R8). The spec applies it to no index above 11 (R140); there it is a
free value (DESIGN CHOICE, log 11). -/
def Cfg.scale (c : Cfg α) (i : BitVec 4) : α :=
  match tableEntry i with
  | some k => c.tableScale k
  | none => c.beyondScale i

/-- `kToneAmpMax = 1.0`, NUM's constant `1` (R7). -/
def Cfg.kToneAmpMax (c : Cfg α) : α := c.num.one

end

/-- The carrier in which State holds values of NUM's type `Q` (R11). A value here is a CODE: the
machine never applies the carrier's own arithmetic or order to it, only NUM's functions, which are
opaque. `0` is the code of `dec32(0)` (log 1, log 2). -/
abbrev Q := Rat

/-- The configuration the machine runs under: any `CFG` whatever that meets R7's constraints. No
body: nothing can be proved of it but those constraints (log 1, log 3). -/
opaque Config.cfg : Cfg Q

end Sys2Proof
end

