-- ==== Sys2Proof/Machine/State.lean ====
section
/-! DEFINITION. The machine's state: every element of spec/10_state.md, R22 to R31 and R39, grouped
as the spec's dotted names group them, and the two fields of the model's own, `resp` (log 7) and
`ops` (log 6); the reasons a step can stop; the state after RESET (R111, R251). -/

namespace Sys2Proof.Machine

/-- An array of Q values, word-addressed (R60, R63): address and value pairs, addresses strictly
rising, no entry equal to `dec32(0)`, which an unlisted address reads as (log 10). -/
abbrev Memory := List (Nat × Q)

/-- `trig.state` (R26, R141). -/
inductive TrigState where
  /-- Code 0: scanning for a qualifying edge. -/
  | init
  /-- Code 1: filling the window. -/
  | first
  /-- Code 2: verifying the window. -/
  | next
  /-- Code 3: window ready, ring frozen. -/
  | last
deriving DecidableEq, Repr

/-- ToneState (R23). -/
structure Tone where
  freq  : Q
  amp   : Q
  phase : Q
  count : BitVec 32
deriving DecidableEq, Repr

/-- The CaptureBuffer (R24). `tb` is always in 0..11 from the first `RESET` on; before it any of its
sixteen values may stand there, as in `Req` (R250, log 11). -/
structure Cap where
  ring  : Memory
  tb    : BitVec 4
  index : BitVec 18
  start : BitVec 18
  count : BitVec 19
  scan  : BitVec 19
  mode  : BitVec 5
deriving DecidableEq, Repr

/-- The trigger detector (R26). -/
structure Trig where
  state : TrigState
  prev  : Q
deriving DecidableEq, Repr

/-- Pending requests (R27): the host registers TIMEBASE, MODE and REQ. -/
structure Req where
  tb    : BitVec 4
  mode  : BitVec 5
  flags : BitVec 3
deriving DecidableEq, Repr

/-- The SpectrumBuffer and its history (R28). -/
structure Spec where
  hist : Memory
  hpos : BitVec 12
  fill : BitVec 11
  acc  : Memory
  slot : BitVec 3
deriving DecidableEq, Repr

/-- MeterState (R29). -/
structure Meter where
  level : Q
deriving DecidableEq, Repr

/-- Published state (R30). -/
structure Pub where
  cap         : Memory
  capLen      : BitVec 19
  capXscale   : Q
  capFreerun  : Bool
  capSeq      : BitVec 32
  spec        : Memory
  specSeq     : BitVec 32
  freq        : Q
  level       : Q
  levelShadow : Q
deriving DecidableEq, Repr

/-- Status flags (R31). -/
structure Status where
  cfgerr  : Bool
  overrun : Bool
  buserr  : Bool
  freerun : Bool
deriving DecidableEq, Repr

/-- The whole state of the block, and the port as the model shows it: `resp` is the response word of
the operation just done, if it has one (log 7), `ops` the operation words still to arrive, in the
total order of R14 (log 6). -/
structure State where
  run    : Bool
  tone   : Tone
  cap    : Cap
  trig   : Trig
  req    : Req
  yscale : Word
  spec   : Spec
  meter  : Meter
  pub    : Pub
  st     : Status
  resp   : Option Word
  ops    : List OpWord
deriving DecidableEq, Repr

/-- Faults: none. No operation can fail to complete, and there is no stuck state, no fault and no
hang at operation level (R268); an error is a sticky flag (R232). So no constructor (log 12). -/
inductive Fault where
deriving DecidableEq, Repr

/-- Refusals: the traces to which the spec gives no meaning (R269). -/
inductive Refusal where
  /-- Raised by no arm of `exec`: every operation of the table has its meaning. Safe. -/
  | notModelled (mnemonic : String)
  /-- Raised by `step` on a word that decodes to no operation: the spec refuses the trace and
  forbids to treat the word as NOP (R94, U7). Safe (log 9). -/
  | illegalWord (w : OpWord)
  /-- Raised by `INF` on a NaN or infinity pattern: the spec refuses the trace (R130(b), R269, U1).
  Safe (log 8). -/
  | nonFiniteSample (data : Word)
deriving DecidableEq, Repr

/-- The state after `RESET` under a configuration: the 'reset' value of every element (R111). -/
def State.resetOf (c : Cfg Q) : State where
  run := false
  tone := { freq := 0, amp := 0, phase := 0, count := 0 }
  cap := { ring := [], tb := 0, index := 0, start := 0, count := 0, scan := 0, mode := 0 }
  trig := { state := .init, prev := 0 }
  req := { tb := 0, mode := 0, flags := 0 }
  yscale := 0
  spec := { hist := [], hpos := 0, fill := 0, acc := [], slot := 0 }
  meter := { level := c.kMeterMin }
  pub := { cap := [], capLen := BitVec.ofNat 19 (c.count 0), capXscale := c.scale 0,
           capFreerun := false, capSeq := 0, spec := [], specSeq := 0, freq := 0, level := 0,
           levelShadow := 0 }
  st := { cfgerr := false, overrun := false, buserr := false, freerun := false }
  resp := none
  ops := []

/-- The machine right after reset (R111, R251), with no operation pending and no response. -/
def State.reset : State := State.resetOf Config.cfg

end Sys2Proof.Machine
end

