-- ==== Sys2Proof/Machine/Operands.lean ====
section
/-! DEFINITION. How operands and register fields are read: the host register map of R32, the bit
fields of MODE (R37) and REQ (R38), the codes of the trigger state (R26), the active timebase entry
(R140) and zero extension (R9). -/

namespace Sys2Proof.Machine

/-! ## Host register addresses (R32) -/

/-- The seventeen mapped host registers. -/
inductive HostReg where
  | status | toneFreq | toneAmp | toneCount | tonePhase | timebase | mode | req | yscale
  | rdFreq | rdLevel | meter | capSeq | capLen | capXscale | capInfo | specSeq
deriving DecidableEq, Repr

/-- The register at an address; none for the unmapped addresses `0x11..0xFF`. -/
def hostReg (ra : RegAddr) : Option HostReg :=
  if ra = 0x00#8 then some .status
  else if ra = 0x01#8 then some .toneFreq
  else if ra = 0x02#8 then some .toneAmp
  else if ra = 0x03#8 then some .toneCount
  else if ra = 0x04#8 then some .tonePhase
  else if ra = 0x05#8 then some .timebase
  else if ra = 0x06#8 then some .mode
  else if ra = 0x07#8 then some .req
  else if ra = 0x08#8 then some .yscale
  else if ra = 0x09#8 then some .rdFreq
  else if ra = 0x0A#8 then some .rdLevel
  else if ra = 0x0B#8 then some .meter
  else if ra = 0x0C#8 then some .capSeq
  else if ra = 0x0D#8 then some .capLen
  else if ra = 0x0E#8 then some .capXscale
  else if ra = 0x0F#8 then some .capInfo
  else if ra = 0x10#8 then some .specSeq
  else none

/-! ## MODE fields (R37) -/

/-- `TRIG_EN`, bit 0. -/
def modeTrigEn (m : BitVec 5) : Bool := m.getLsbD 0
/-- `SLOPE`, bit 1: false is rising, true is falling. -/
def modeSlope (m : BitVec 5) : Bool := m.getLsbD 1
/-- `SINGLE`, bit 2. -/
def modeSingle (m : BitVec 5) : Bool := m.getLsbD 2
/-- `STORAGE`, bit 3. -/
def modeStorage (m : BitVec 5) : Bool := m.getLsbD 3
/-- `BRIGHT`, bit 4; no rule reads it. -/
def modeBright (m : BitVec 5) : Bool := m.getLsbD 4

/-! ## REQ fields (R38) -/

/-- `CLEAR`, bit 0. -/
def flagClear (f : BitVec 3) : Bool := f.getLsbD 0
/-- `REARM`, bit 1. -/
def flagRearm (f : BitVec 3) : Bool := f.getLsbD 1
/-- `CONSUME`, bit 2. -/
def flagConsume (f : BitVec 3) : Bool := f.getLsbD 2

/-! ## Trigger codes, timebase, widths -/

/-- The 2-bit code of a trigger state (R26). -/
def TrigState.code : TrigState → BitVec 2
  | .init => 0#2
  | .first => 1#2
  | .next => 2#2
  | .last => 3#2

/-- `select(i)`: the count and the scale of timebase entry `i` (R140). -/
def select (c : Cfg Q) (i : BitVec 4) : Nat × Q := (c.count i, c.scale i)

/-- `length`, the count of the active timebase entry (R24). -/
def length (c : Cfg Q) (s : State) : Nat := (select c s.cap.tb).1

/-- `xscale`, the scale of the active timebase entry (R24). -/
def xscale (c : Cfg Q) (s : State) : Q := (select c s.cap.tb).2

/-- The index a TIMEBASE write of `d` selects: accepted iff `d < 12`, compared on all 32 bits
(R36, R205). -/
def timebaseIndex (d : Word) : Option (BitVec 4) :=
  if d.toNat < tbEntries then some (d.extractLsb' 0 4) else none

/-- `zext_32` of a narrower field (R9). -/
def zext32 {n : Nat} (v : BitVec n) : Word := v.setWidth 32

/-- `zext_32` of one bit. -/
def zextBit (b : Bool) : Word := (BitVec.ofBool b).setWidth 32

end Sys2Proof.Machine
end

