-- ==== Sys2Proof/Machine/Flags.lean ====
section
/-! DEFINITION. The STATUS word (R33) and its write-one-to-clear rule (R33, R202). There are no
arithmetic condition codes: no operation sets a carry, zero, sign or overflow flag (R31). -/

namespace Sys2Proof.Machine

/-- The STATUS word: bits 9:8 TRIG_STATE, 4 FREERUN, 3 BUSERR, 2 OVERRUN, 1 CFGERR, 0 RUN, every
other bit zero (R33). -/
def statusWord (run : Bool) (st : Status) (trig : TrigState) : Word :=
  0#22 ++ trig.code ++ 0#3 ++ BitVec.ofBool st.freerun ++ BitVec.ofBool st.buserr ++
    BitVec.ofBool st.overrun ++ BitVec.ofBool st.cfgerr ++ BitVec.ofBool run

/-- A STATUS write clears each sticky flag whose written bit is 1 and nothing else (R202). -/
def clearSticky (data : Word) (st : Status) : Status :=
  { cfgerr := st.cfgerr && !data.getLsbD 1
    overrun := st.overrun && !data.getLsbD 2
    buserr := st.buserr && !data.getLsbD 3
    freerun := st.freerun }

end Sys2Proof.Machine
end

