-- ==== Sys2Proof/Machine/Memory.lean ====
section
/-! DEFINITION. The named operations over the block's arrays (R60, R63): read one word, write one
word, overwrite a prefix, and the canonical form every operation keeps (log 10). -/

namespace Sys2Proof.Machine

/-- `MemRead` of one word; an unlisted address reads as `dec32(0)`, whose code is 0. -/
def Memory.read : Memory → Nat → Q
  | [], _ => 0
  | (b, v) :: rest, a => if b = a then v else Memory.read rest a

/-- Insert a pair before the first pair of a higher address. -/
def Memory.insert (a : Nat) (v : Q) : Memory → Memory
  | [] => [(a, v)]
  | (b, w) :: rest => if a < b then (a, v) :: (b, w) :: rest else (b, w) :: Memory.insert a v rest

/-- `MemWrite` of one word. Writing `dec32(0)` unlists the address. -/
def Memory.write (m : Memory) (a : Nat) (v : Q) : Memory :=
  let rest := m.filter (fun p => p.1 != a)
  if v = 0 then rest else Memory.insert a v rest

/-- The pairs `(i, f i)` for `i < n` whose value is not `dec32(0)`. -/
def Memory.tabulate (n : Nat) (f : Nat → Q) : Memory :=
  (List.range n).filterMap (fun i => let v := f i; if v = 0 then none else some (i, v))

/-- The loop `for i in 0 .. n-1: m[i] <- f i`; entries at `n` and above are kept. (Irreducible, so that
no comparison of two states unrolls the loop.) -/
@[irreducible] def Memory.setPrefix (m : Memory) (n : Nat) (f : Nat → Q) : Memory :=
  Memory.tabulate n f ++ m.filter (fun p => n ≤ p.1)

/-- The canonical form: addresses strictly rising, no entry equal to `dec32(0)`. -/
def Memory.wf : Memory → Bool
  | [] => true
  | [(_, v)] => v != 0
  | (a, v) :: (b, w) :: rest => v != 0 && a < b && Memory.wf ((b, w) :: rest)

/-- Every listed address is below the array's capacity (R60). -/
def Memory.below (n : Nat) (m : Memory) : Bool := m.all (fun p => p.1 < n)

end Sys2Proof.Machine
end

