-- ==== Sys2Proof/Machine/Ops.lean ====
section
/-! DEFINITION. The named operations over the state that the meanings share: one update per group of
state, the response of an operation (R10), entering `INIT` (R143), and error entry and return (R232,
R233), which are this block's taking of an exception and its return. -/

namespace Sys2Proof.Machine

/-! ## One update per group -/

def State.withRun (s : State) (v : Bool) : State := { s with run := v }
def State.withTone (s : State) (v : Tone) : State := { s with tone := v }
def State.withCap (s : State) (v : Cap) : State := { s with cap := v }
def State.withTrig (s : State) (v : Trig) : State := { s with trig := v }
def State.withReq (s : State) (v : Req) : State := { s with req := v }
def State.withYscale (s : State) (v : Word) : State := { s with yscale := v }
def State.withSpec (s : State) (v : Spec) : State := { s with spec := v }
def State.withMeter (s : State) (v : Meter) : State := { s with meter := v }
def State.withPub (s : State) (v : Pub) : State := { s with pub := v }
def State.withSt (s : State) (v : Status) : State := { s with st := v }
def State.withResp (s : State) (v : Option Word) : State := { s with resp := v }
def State.withOps (s : State) (v : List OpWord) : State := { s with ops := v }

/-- `return v`: the 32-bit response of an operation that has one (R10, R90). -/
def State.respond (s : State) (v : Word) : State := s.withResp (some v)

/-- `EnterInit()`: `cap.index`, `cap.start` and the ring are kept (R143). -/
def enterInit (s : State) : State :=
  ((s.withTrig { s.trig with state := .init }).withCap { s.cap with scan := 0, count := 0 }).withSt
    { s.st with freerun := false }

/-! ## Errors (R230 to R235) -/

/-- The errors the block raises; each has a sticky flag (R230, R231). -/
inductive ErrorKind where
  /-- STATUS bit 1: a rejected register write. -/
  | config
  /-- STATUS bit 2: a failed `NEXT` verification. -/
  | overrun
  /-- STATUS bit 3: an invalid access. -/
  | bus
deriving DecidableEq, Repr

/-- `raise E`: set the sticky flag of `E` (it stays 1 if it is 1), perform the recovery of R231, and
go on. The recovery of `OverrunError` is `EnterInit()` (R234); that of the others is that the access
drops its write or answers 0, which the access's own meaning does. Nothing else is saved, no mode
changes and no control goes anywhere (R232). -/
def raise (e : ErrorKind) (s : State) : State :=
  match e with
  | .config => s.withSt { s.st with cfgerr := true }
  | .overrun => enterInit (s.withSt { s.st with overrun := true })
  | .bus => s.withSt { s.st with buserr := true }

/-- Error return: there is no return operation; a STATUS write clears the flags it names (R233,
R202). -/
def acknowledge (data : Word) (s : State) : State := s.withSt (clearSticky data s.st)

end Sys2Proof.Machine
end

