-- ==== Sys2Proof/Machine/Engine.lean ====
section
/-! DEFINITION. Engine control (spec/40_engine_control.md): `NOP`, `RESET`, `START`, `STOP`. -/

namespace Sys2Proof.Machine

/-- `RESET` under a configuration: every element to its reset value, whatever the state before
(R111). The port fields `resp` and `ops` are the model's own and stay (log 13). -/
def resetEngine (c : Cfg Q) (s : State) : State :=
  ((State.resetOf c).withResp s.resp).withOps s.ops

/-- An effective `START`: all but the configuration registers TONE_FREQ, TONE_AMP, TIMEBASE, MODE
and YSCALE is initialised (R112). -/
def startEngine (c : Cfg Q) (s : State) : State :=
  { run := true
    tone := { freq := s.tone.freq, amp := s.tone.amp, phase := 0, count := 0 }
    cap := { ring := [], tb := s.req.tb, index := 0, start := 0, count := 0, scan := 0,
             mode := s.req.mode }
    trig := { state := .init, prev := 0 }
    req := { tb := s.req.tb, mode := s.req.mode, flags := 0 }
    yscale := s.yscale
    spec := { hist := [], hpos := 0, fill := 0, acc := [], slot := 0 }
    meter := { level := c.kMeterMin }
    pub := { cap := [], capLen := BitVec.ofNat 19 (c.count s.req.tb), capXscale := c.scale s.req.tb,
             capFreerun := false, capSeq := 0, spec := [], specSeq := 0, freq := 0, level := 0,
             levelShadow := 0 }
    st := { cfgerr := false, overrun := false, buserr := false, freerun := false }
    resp := s.resp
    ops := s.ops }

/-- `START` under a configuration: no effect while running (R112). -/
def start (c : Cfg Q) (s : State) : State := if s.run then s else startEngine c s

/-- `NOP` (R110). -/
def execNop (s : State) : Host.Outcome State Fault Refusal := .next s

/-- `RESET` (R111). -/
def execReset (s : State) : Host.Outcome State Fault Refusal := .next (resetEngine Config.cfg s)

/-- `START` (R112). -/
def execStart (s : State) : Host.Outcome State Fault Refusal := .next (start Config.cfg s)

/-- `STOP` (R113). -/
def execStop (s : State) : Host.Outcome State Fault Refusal := .next (s.withRun false)

end Sys2Proof.Machine
end

