-- ==== Sys2Proof/Machine/Binary32.lean ====
section
/-! DEFINITION. The binary32 layout of a frame or register word: finiteness (R200), the number a
finite pattern denotes, and rounding to nearest even (R12). The layout is the spec's own passage
'from general knowledge' (log 14). Every finite binary32 value is an integer multiple of 2^-149, so
both directions work on that integer. -/

namespace Sys2Proof

/-- A binary32 pattern is finite iff its exponent field, bits 30:23, is not `0xFF` (R200). -/
def finitePattern (w : Word) : Bool := w.extractLsb' 23 8 != 0xFF#8

namespace Binary32

/-- The sign bit, bit 31 (R62). -/
def signBit (w : Word) : Bool := w.getLsbD 31

/-- The exponent field, bits 30:23. -/
def exponent (w : Word) : Nat := (w.extractLsb' 23 8).toNat

/-- The fraction field, bits 22:0. -/
def fraction (w : Word) : Nat := (w.extractLsb' 0 23).toNat

/-- The pattern of positive infinity (R12). -/
def infinityBits : Nat := 0x7F800000

/-- The magnitude of a finite pattern in units of 2^-149: a zero exponent field means a subnormal. -/
def magnitude (w : Word) : Nat :=
  if exponent w = 0 then fraction w else (2 ^ 23 + fraction w) * 2 ^ (exponent w - 1)

section
variable {K : Type} [Field K]

/-- `dec32` of NUM_REAL on a finite pattern: the number it denotes (R12). -/
def decode (w : Word) : K :=
  if signBit w then -((magnitude w : K) / 2 ^ 149) else (magnitude w : K) / 2 ^ 149

variable [LinearOrder K] [FloorRing K]

/-- Round a non-negative number to the nearest integer, ties to even. -/
def roundEven (y : K) : Nat :=
  let f := ⌊y⌋.toNat
  let d := y - f
  if d < 1 / 2 then f
  else if 1 / 2 < d then f + 1
  else if f % 2 = 0 then f else f + 1

/-- Round a magnitude, given in units of 2^-149, to the 31 low bits of its binary32 pattern.
`t` counts the binades above the first; a carry out of the fraction moves into the exponent field
by itself. Past the last binade the answer is infinity (R12). -/
def roundScaled (t : Nat) (m : K) : Nat → Nat
  | 0 => infinityBits
  | fuel + 1 =>
    if m < 2 ^ 24 then min (t * 2 ^ 23 + roundEven m) infinityBits
    else roundScaled (t + 1) (m / 2) fuel

/-- The 31 low bits of the binary32 pattern nearest to a non-negative number, ties to even. -/
def roundMagnitude (a : K) : Nat := roundScaled 0 (a * 2 ^ 149) 254

/-- `enc32` of NUM_REAL: nearest binary32, ties to even, one zero, infinity of the value's sign past
the largest finite value (R12). -/
def encode (x : K) : Word :=
  let p := roundMagnitude |x|
  if x < 0 ∧ p ≠ 0 then BitVec.ofNat 32 (p + 0x80000000) else BitVec.ofNat 32 p

end

end Binary32

end Sys2Proof
end

