-- ==== Sys2Proof/Machine/HostAccess.lean ====
section
/-! DEFINITION. Host and display access (spec/46_host_display_access.md): `REGW`, `REGR`, `RDCAP`,
`RDSPEC`. All four behave the same stopped and running (R114). -/

namespace Sys2Proof.Machine

/-! ## REGW -/

/-- A TONE_FREQ write is accepted: finite and within `[kToneFreqMin, kToneFreqMax]` (R34, R203). -/
def freqAccepted (c : Cfg Q) (data : Word) : Bool :=
  finitePattern data && c.num.le c.kToneFreqMin (c.num.dec32 data) &&
    c.num.le (c.num.dec32 data) c.kToneFreqMax

/-- A TONE_AMP write is accepted: finite and within `[0, kToneAmpMax]` (R35, R204). -/
def ampAccepted (c : Cfg Q) (data : Word) : Bool :=
  finitePattern data && c.num.le 0 (c.num.dec32 data) && c.num.le (c.num.dec32 data) c.kToneAmpMax

/-- Write of TONE_FREQ (R203). -/
def writeToneFreq (c : Cfg Q) (data : Word) (s : State) : State :=
  if freqAccepted c data then s.withTone { s.tone with freq := c.num.dec32 data }
  else raise .config s

/-- Write of TONE_AMP (R204). -/
def writeToneAmp (c : Cfg Q) (data : Word) (s : State) : State :=
  if ampAccepted c data then s.withTone { s.tone with amp := c.num.dec32 data }
  else raise .config s

/-- Write of TIMEBASE (R205). -/
def writeTimebase (data : Word) (s : State) : State :=
  match timebaseIndex data with
  | some i => s.withReq { s.req with tb := i }
  | none => raise .config s

/-- `REGW` of a mapped register (R200). -/
def writeReg (c : Cfg Q) (r : HostReg) (data : Word) (s : State) : State :=
  match r with
  | .status => acknowledge data s
  | .toneFreq => writeToneFreq c data s
  | .toneAmp => writeToneAmp c data s
  | .toneCount => raise .bus s
  | .tonePhase => raise .bus s
  | .timebase => writeTimebase data s
  | .mode => s.withReq { s.req with mode := data.extractLsb' 0 5 }
  | .req => s.withReq { s.req with flags := s.req.flags ||| data.extractLsb' 0 3 }
  | .yscale => s.withYscale data
  | .rdFreq => raise .bus s
  | .rdLevel => raise .bus s
  | .meter => raise .bus s
  | .capSeq => raise .bus s
  | .capLen => raise .bus s
  | .capXscale => raise .bus s
  | .capInfo => raise .bus s
  | .specSeq => raise .bus s

/-- `REGW` under a configuration; an unmapped address raises `BusError` (R200, R209). -/
def registerWrite (c : Cfg Q) (ra : RegAddr) (data : Word) (s : State) : State :=
  match hostReg ra with
  | some r => writeReg c r data s
  | none => raise .bus s

/-! ## REGR -/

/-- The 'holds' value of R32. -/
def regValue (c : Cfg Q) (r : HostReg) (s : State) : Word :=
  match r with
  | .status => statusWord s.run s.st s.trig.state
  | .toneFreq => c.num.enc32 s.tone.freq
  | .toneAmp => c.num.enc32 s.tone.amp
  | .toneCount => s.tone.count
  | .tonePhase => c.num.enc32 s.tone.phase
  | .timebase => zext32 s.req.tb
  | .mode => zext32 s.req.mode
  | .req => zext32 s.req.flags
  | .yscale => s.yscale
  | .rdFreq => c.num.enc32 s.pub.freq
  | .rdLevel => c.num.enc32 s.pub.levelShadow
  | .meter => c.num.enc32 s.meter.level
  | .capSeq => s.pub.capSeq
  | .capLen => zext32 s.pub.capLen
  | .capXscale => c.num.enc32 s.pub.capXscale
  | .capInfo => zextBit s.pub.capFreerun
  | .specSeq => s.pub.specSeq

/-- What a read of a register writes: only RD_FREQ has an effect, the latch of the published level
into the shadow (R40, R214). -/
def readEffect (r : HostReg) (s : State) : State :=
  if r = .rdFreq then s.withPub { s.pub with levelShadow := s.pub.level } else s

/-- `REGR` under a configuration; an unmapped address answers 0 and raises `BusError` (R201). -/
def registerRead (c : Cfg Q) (ra : RegAddr) (s : State) : State :=
  match hostReg ra with
  | some r => (readEffect r s).respond (regValue c r s)
  | none => (raise .bus s).respond 0

/-! ## RDCAP, RDSPEC -/

/-- `RDCAP` under a configuration: the bound is the length of the published window (R220). -/
def readCapture (c : Cfg Q) (addr : Word) (s : State) : State :=
  if addr.toNat < s.pub.capLen.toNat then s.respond (c.num.enc32 (s.pub.cap.read addr.toNat))
  else (raise .bus s).respond 0

/-- `RDSPEC` under a configuration (R221). -/
def readSpectrum (c : Cfg Q) (addr : Word) (s : State) : State :=
  if addr.toNat < kRange then s.respond (c.num.enc32 (s.pub.spec.read addr.toNat))
  else (raise .bus s).respond 0

/-- `REGW` (R200). -/
def execRegw (ra : RegAddr) (data : Word) (s : State) : Host.Outcome State Fault Refusal :=
  .next (registerWrite Config.cfg ra data s)

/-- `REGR` (R201). -/
def execRegr (ra : RegAddr) (s : State) : Host.Outcome State Fault Refusal :=
  .next (registerRead Config.cfg ra s)

/-- `RDCAP` (R220). -/
def execRdcap (addr : Word) (s : State) : Host.Outcome State Fault Refusal :=
  .next (readCapture Config.cfg addr s)

/-- `RDSPEC` (R221). -/
def execRdspec (addr : Word) (s : State) : Host.Outcome State Fault Refusal :=
  .next (readSpectrum Config.cfg addr s)

end Sys2Proof.Machine
end

