-- ==== Sys2Proof/Machine/Capture.lean ====
section
/-! DEFINITION. The capture buffer, the trigger state machine and the request procedures
(spec/43_trigger_capture.md), with `PublishCapture` (R71). The trigger state machine is the block's
only control transfer (R162). -/

namespace Sys2Proof.Machine

/-- `Edge(slope, p, x)`: rising is below zero then zero or above, falling its mirror image (R142). -/
def edge {α : Type} [Zero α] (n : Numeric α) (slope : Bool) (p x : α) : Bool :=
  if slope then n.lt 0 p && n.le x 0 else n.lt p 0 && n.le 0 x

/-- `RingWrite(x)`: store at the write index, then advance it modulo `length` (R144). -/
def ringWrite (c : Cfg Q) (x : Q) (s : State) : State :=
  s.withCap { s.cap with
    ring := s.cap.ring.write s.cap.index.toNat x
    index := BitVec.ofNat 18 ((s.cap.index.toNat + 1) % length c s) }

/-- `PublishCapture(base, fr)` (R71). -/
def publishCapture (c : Cfg Q) (base : Nat) (fr : Bool) (s : State) : State :=
  let len := length c s
  s.withPub { s.pub with
    cap := s.pub.cap.setPrefix len (fun i => s.cap.ring.read ((base + i) % len))
    capLen := BitVec.ofNat 19 len
    capXscale := xscale c s
    capFreerun := fr
    capSeq := s.pub.capSeq + 1 }

/-- `EnterLast()` (R153). -/
def enterLast (c : Cfg Q) (s : State) : State :=
  publishCapture c s.cap.start.toNat false (s.withTrig { s.trig with state := .last })

/-- `Settle()`: `NEXT` verifies that the write index has come back to the start with exactly
`length` samples captured; on failure `OverrunError` (R152, R234). -/
def settle (c : Cfg Q) (s : State) : State :=
  let s := s.withTrig { s.trig with state := .next }
  if s.cap.index = s.cap.start ∧ s.cap.count.toNat = length c s then enterLast c s
  else raise .overrun s

/-- `Settle()` if the window is complete. -/
def settleIfFull (c : Cfg Q) (s : State) : State :=
  if s.cap.count.toNat = length c s then settle c s else s

/-- `InitEdge(x)`: the edge sample is the first of the window (R147). -/
def initEdge (c : Cfg Q) (x : Q) (s : State) : State :=
  let s := s.withCap { s.cap with start := s.cap.index }
  let s := ringWrite c x s
  let s := s.withCap { s.cap with count := 1 }
  let s := s.withSt { s.st with freerun := false }
  let s := s.withTrig { s.trig with state := .first }
  settleIfFull c s

/-- `FreeRun()`: publish the raw stream, oldest sample first (R150). -/
def freeRun (c : Cfg Q) (s : State) : State :=
  let s := s.withSt { s.st with freerun := true }
  let s := publishCapture c s.cap.index.toNat true s
  s.withCap { s.cap with scan := 0 }

/-- `InitScan(x)`: no qualifying edge at this sample (R148). -/
def initScan (c : Cfg Q) (x : Q) (s : State) : State :=
  let s := ringWrite c x s
  let s := s.withCap { s.cap with scan := s.cap.scan + 1 }
  if s.cap.scan.toNat = length c s then freeRun c s else s

/-- `FirstFill(x)` (R151). -/
def firstFill (c : Cfg Q) (x : Q) (s : State) : State :=
  let s := ringWrite c x s
  let s := s.withCap { s.cap with count := s.cap.count + 1 }
  settleIfFull c s

/-- The test of `INIT`: triggering enabled and a qualifying edge at `x` (R146). -/
def qualifies (c : Cfg Q) (x : Q) (s : State) : Bool :=
  modeTrigEn s.cap.mode && edge c.num (modeSlope s.cap.mode) s.trig.prev x

/-- `CaptureStep(x)` (R146). -/
def captureStep (c : Cfg Q) (x : Q) (s : State) : State :=
  match s.trig.state with
  | .init => if qualifies c x s then initEdge c x s else initScan c x s
  | .first => firstFill c x s
  | .next => settle c s
  | .last => s

/-! ## Request procedures, called by `INCB` -/

/-- `Consume()` (R154). -/
def consume (s : State) : State :=
  if s.trig.state = .last ∧ modeSingle s.cap.mode = false ∧ modeStorage s.cap.mode = false then
    enterInit s
  else s

/-- `Rearm()` (R155). -/
def rearm (s : State) : State :=
  if s.trig.state = .last ∧ modeStorage s.cap.mode = false then enterInit s else s

/-- `TimebaseChange(i)`: the ring is not cleared and nothing is published (R158). -/
def timebaseChange (i : BitVec 4) (s : State) : State :=
  enterInit (s.withCap { s.cap with tb := i, index := 0, start := 0 })

/-- `ClearCapture()`: zero the window, enter `INIT`, publish the zeros (R159). -/
def clearCapture (c : Cfg Q) (s : State) : State :=
  let s := s.withCap { s.cap with
    ring := s.cap.ring.setPrefix (length c s) (fun _ => 0), index := 0, start := 0 }
  publishCapture c 0 false (enterInit s)

end Sys2Proof.Machine
end

