-- ==== Sys2Proof/Machine/Meter.lean ====
section
/-! DEFINITION. The level meter (spec/45_level_meter.md): `MeterStep`, a sub-step of `INF`. -/

namespace Sys2Proof.Machine

section
variable {α : Type} [Zero α]

/-- `Clamp(l)` (R191). -/
def clampLevel (c : Cfg α) (l : α) : α :=
  if c.num.lt l c.kMeterMin then c.kMeterMin
  else if c.num.lt c.kMeterMax l then c.kMeterMax
  else l

/-- The smoothing constant: attack while the input is above the level, else decay (R191). -/
def smoothing (c : Cfg α) (level instant : α) : α :=
  if c.num.lt level instant then c.kMeterAttack else c.kMeterDecay

/-- The level after a frame `x`, with `instant = |x|`:
`Clamp(level + alpha * (instant - level))` (R190, R191). -/
def meterNext (c : Cfg α) (level x : α) : α :=
  let instant := c.num.abs x
  clampLevel c (c.num.add level (c.num.mul (smoothing c level instant) (c.num.sub instant level)))

end

/-- `MeterStep(x)` (R191). -/
def meterStep (c : Cfg Q) (x : Q) (s : State) : State :=
  s.withMeter { level := meterNext c s.meter.level x }

end Sys2Proof.Machine
end

