-- ==== Sys2Proof/Machine/Spectrum.lean ====
section
/-! DEFINITION. The spectrum analyzer (spec/44_spectrum.md): `SpectrumStep`, a sub-step of `INF`,
with `PublishSpectrum` (R72). -/

namespace Sys2Proof.Machine

section
variable {α : Type} [Zero α]

/-- Bin `k` lies in the peak-search band `B` of R175. -/
def inBand (c : Cfg α) (k : Nat) : Bool :=
  c.num.le c.kFrequencyMin (c.num.binFreq k) && c.num.le (c.num.binFreq k) c.kFrequencyMax

/-- R175's condition on a bin: in the band, and no bin of the band is greater. -/
def isPeak (c : Cfg α) (s : Fin kRange → α) (k : Fin kRange) : Bool :=
  inBand c k && (List.finRange kRange).all (fun j => !(inBand c j && c.num.lt (s k) (s j)))

/-- `PeakBin(s)`: the smallest bin with R175's condition. Where NUM's `lt` leaves no such bin the
spec states no result: a free value (log 5). -/
def peakBin (c : Cfg α) (s : Fin kRange → α) : Fin kRange :=
  match (List.finRange kRange).find? (isPeak c s) with
  | some k => k
  | none => c.peakUnordered s

end

/-- The first `kRange` words of an array as a spectrum. -/
def spectrumOf (m : Memory) : Fin kRange → Q := fun k => m.read k

/-- `PublishSpectrum()` (R72). -/
def publishSpectrum (c : Cfg Q) (s : State) : State :=
  let mean := s.pub.spec.setPrefix kRange
    (fun k => c.num.div (s.spec.acc.read k) (c.num.ofNat kOversample))
  let p := peakBin c (spectrumOf mean)
  s.withPub { s.pub with
    spec := mean
    freq := c.num.binFreq p
    level := mean.read p
    specSeq := s.pub.specSeq + 1 }

/-- `PublishAndRestart()` (R174). -/
def publishAndRestart (c : Cfg Q) (s : State) : State :=
  let s := publishSpectrum c s
  s.withSpec { s.spec with acc := s.spec.acc.setPrefix kRange (fun _ => 0), slot := 0 }

/-- The window of the last `kSamples` samples, oldest first (R173). -/
def window (s : State) : Fin kSamples → Q :=
  fun n => s.spec.hist.read ((s.spec.hpos.toNat + n) % kSamples)

/-- The fold of one magnitude spectrum into the accumulator, bin by bin (R173). -/
def foldBin (c : Cfg Q) (acc : Memory) (m : Fin kRange → Q) (k : Nat) : Q :=
  if h : k < kRange then c.num.add (acc.read k) (m ⟨k, h⟩) else acc.read k

/-- `SubWindow()` (R173). -/
def subWindow (c : Cfg Q) (s : State) : State :=
  let m := c.num.dftmag (window s)
  let s := s.withSpec { s.spec with
    acc := s.spec.acc.setPrefix kRange (foldBin c s.spec.acc m)
    slot := s.spec.slot + 1 }
  if s.spec.slot.toNat = kOversample then publishAndRestart c s else s

/-- `SpectrumStep(x)` (R171). -/
def spectrumStep (c : Cfg Q) (x : Q) (s : State) : State :=
  let s := s.withSpec { s.spec with
    hist := s.spec.hist.write s.spec.hpos.toNat x
    hpos := BitVec.ofNat 12 ((s.spec.hpos.toNat + 1) % kSamples)
    fill := s.spec.fill + 1 }
  if s.spec.fill.toNat = kStep then subWindow c (s.withSpec { s.spec with fill := 0 }) else s

end Sys2Proof.Machine
end

