-- ==== Sys2Proof/Machine/Input.lean ====
section
/-! DEFINITION. The input path (spec/42_input_path.md): `INF` and `INCB`. -/

namespace Sys2Proof.Machine

/-- The last statement of `INF`: `trig.prev <- x` (R130). -/
def rememberSample (x : Q) (s : State) : State := s.withTrig { s.trig with prev := x }

/-- `INF` of a sample `x` under a configuration (R130). -/
def inputFrame (c : Cfg Q) (x : Q) (s : State) : State :=
  if s.run then rememberSample x (meterStep c x (spectrumStep c x (captureStep c x s))) else s

/-- `INF` under a configuration. A NaN or infinity pattern is refused, as P-FINITE of R269 and
R130(b) say of every `INF` (log 8). -/
def inputSample (c : Cfg Q) (data : Word) (s : State) : Host.Outcome State Fault Refusal :=
  if finitePattern data then .next (inputFrame c (c.num.dec32 data) s)
  else .refused (.nonFiniteSample data)

/-- Steps 1 and 2 of `INCB`: adopt the mode flags, then the timebase if it changed (R131). -/
def adoptModeAndTimebase (s : State) : State :=
  let s := s.withCap { s.cap with mode := s.req.mode }
  if s.req.tb ≠ s.cap.tb then timebaseChange s.req.tb s else s

/-- Step 3 of `INCB` (R131). -/
def serveClear (c : Cfg Q) (s : State) : State :=
  if flagClear s.req.flags then clearCapture c s else s

/-- Step 4 of `INCB` (R131). -/
def serveRearm (s : State) : State := if flagRearm s.req.flags then rearm s else s

/-- Step 5 of `INCB` (R131). -/
def serveConsume (s : State) : State := if flagConsume s.req.flags then consume s else s

/-- The last statement of `INCB`: `req.flags <- 0` (R131). -/
def dropFlags (s : State) : State := s.withReq { s.req with flags := 0 }

/-- Steps 3 to 5 of `INCB`: serve CLEAR, REARM, CONSUME in this order, then clear them (R131). -/
def serveRequests (c : Cfg Q) (s : State) : State :=
  dropFlags (serveConsume (serveRearm (serveClear c s)))

/-- `INCB` under a configuration; while stopped requests stay pending (R131). -/
def callbackBoundary (c : Cfg Q) (s : State) : State :=
  if s.run then serveRequests c (adoptModeAndTimebase s) else s

/-- `INF` (R130). -/
def execInf (data : Word) (s : State) : Host.Outcome State Fault Refusal := inputSample Config.cfg data s

/-- `INCB` (R131). -/
def execIncb (s : State) : Host.Outcome State Fault Refusal := .next (callbackBoundary Config.cfg s)

end Sys2Proof.Machine
end

