-- ==== Sys2Proof/Machine/Tone.lean ====
section
/-! DEFINITION. The tone generator (spec/41_tone_generator.md): `OUTF`. -/

namespace Sys2Proof.Machine

section
variable {α : Type} [Zero α]

/-- The sample of the phase before the increment: `amp * sin(phase)` (R121). -/
def toneSample (n : Numeric α) (amp phase : α) : α := n.mul amp (n.sin phase)

/-- The next phase: `wrap2pi(phase + TWO_PI * freq / FS)`, in the written order (R121). -/
def tonePhaseNext (n : Numeric α) (freq phase : α) : α :=
  n.wrap2pi (n.add phase (n.div (n.mul n.twoPi freq) n.fs))

end

/-- `OUTF` under a configuration (R121); while stopped nothing changes and the response is +0.0
(R114). -/
def outputFrame (c : Cfg Q) (s : State) : State :=
  if s.run then
    (s.withTone { s.tone with
      phase := tonePhaseNext c.num s.tone.freq s.tone.phase
      count := s.tone.count + 1 }).respond
      (c.num.enc32 (toneSample c.num s.tone.amp s.tone.phase))
  else s.respond 0

/-- `OUTF` (R121). -/
def execOutf (s : State) : Host.Outcome State Fault Refusal := .next (outputFrame Config.cfg s)

end Sys2Proof.Machine
end

