-- ==== Sys2Proof/Syntax.lean ====
section
/-! DEFINITION. The eleven operations of R92, one constructor per row of the opcode table, with the
operands of R90 and R91. -/

namespace Sys2Proof

/-- One operation of the block (R92). -/
inductive Instr where
  /-- R110 -/
  | nop
  /-- R111 -/
  | reset
  /-- R112 -/
  | start
  /-- R113 -/
  | stop
  /-- R131: an input-callback boundary. -/
  | incb
  /-- R130: one input frame. -/
  | inf (data : Word)
  /-- R121: one output-frame request. -/
  | outf
  /-- R200: a host register write. -/
  | regw (ra : RegAddr) (data : Word)
  /-- R201: a host register read. -/
  | regr (ra : RegAddr)
  /-- R220: a read of the published capture window. -/
  | rdcap (addr : Word)
  /-- R221: a read of the published spectrum. -/
  | rdspec (addr : Word)
deriving DecidableEq, Repr

end Sys2Proof
end

