-- ==== Sys2Proof/Machine/Dispatch.lean ====
section
/-! DEFINITION. One arm per operation of R92. -/

namespace Sys2Proof.Machine

def exec (i : Instr) (s : State) : Host.Outcome State Fault Refusal :=
  match i with
  | .nop => Sys2Proof.Machine.execNop s
  | .reset => Sys2Proof.Machine.execReset s
  | .start => Sys2Proof.Machine.execStart s
  | .stop => Sys2Proof.Machine.execStop s
  | .incb => Sys2Proof.Machine.execIncb s
  | .inf data => Sys2Proof.Machine.execInf data s
  | .outf => Sys2Proof.Machine.execOutf s
  | .regw ra data => Sys2Proof.Machine.execRegw ra data s
  | .regr ra => Sys2Proof.Machine.execRegr ra s
  | .rdcap addr => Sys2Proof.Machine.execRdcap addr s
  | .rdspec addr => Sys2Proof.Machine.execRdspec addr s

end Sys2Proof.Machine
end

