-- ==== Sys2Proof/Decode.lean ====
section
/-! DEFINITION. The operation word of R90: decoding, total on any word and on any bytes and rejecting
by name (R94), the encoder, the byte order of R62 for operation words and for frames, and the match
and mask table of R92. -/

namespace Sys2Proof

/-- Why a word or byte string is no operation (R94, U7). -/
inductive DecodeError where
  /-- The `op` field is not one of the eleven codes. -/
  | illegalOp (op : BitVec 8)
  /-- A nonzero bit in `z`, bits 47:32. -/
  | reservedZ
  /-- A nonzero `ra` field in an operation other than `REGW` and `REGR`. -/
  | reservedRa
  /-- A nonzero `data` field in an operation with no data operand. -/
  | reservedData
  /-- Fewer than 8 bytes: an operation is always 8 bytes (R90). -/
  | truncated
deriving DecidableEq, Repr

/-! ## The fields of R90 -/

/-- `op`, bits 63:56. -/
def opField (w : OpWord) : BitVec 8 := w.extractLsb' 56 8
/-- `ra`, bits 55:48. -/
def raField (w : OpWord) : RegAddr := w.extractLsb' 48 8
/-- `z`, bits 47:32. -/
def zField (w : OpWord) : BitVec 16 := w.extractLsb' 32 16
/-- `data`, bits 31:0. -/
def dataField (w : OpWord) : Word := w.extractLsb' 0 32

/-- The word with these fields and `z = 0`. -/
def assemble (op : BitVec 8) (ra : RegAddr) (data : Word) : OpWord := op ++ ra ++ 0#16 ++ data

/-! ## Decoding (R92, R94) -/

/-- Accept `i` if the reserved fields of its format are zero: `z` always, `ra` and `data` where the
operation does not use them (R94). -/
def checkReserved (w : OpWord) (usesRa usesData : Bool) (i : Instr) : Except DecodeError Instr :=
  if zField w ≠ 0#16 then .error .reservedZ
  else if usesRa = false ∧ raField w ≠ 0#8 then .error .reservedRa
  else if usesData = false ∧ dataField w ≠ 0#32 then .error .reservedData
  else .ok i

/-- The decoder of one operation word. -/
def decodeWord (w : OpWord) : Except DecodeError Instr :=
  let op := opField w
  if op = 0x00#8 then checkReserved w false false .nop
  else if op = 0x01#8 then checkReserved w false false .reset
  else if op = 0x02#8 then checkReserved w false false .start
  else if op = 0x03#8 then checkReserved w false false .stop
  else if op = 0x10#8 then checkReserved w false false .incb
  else if op = 0x11#8 then checkReserved w false true (.inf (dataField w))
  else if op = 0x20#8 then checkReserved w false false .outf
  else if op = 0x30#8 then checkReserved w true true (.regw (raField w) (dataField w))
  else if op = 0x31#8 then checkReserved w true false (.regr (raField w))
  else if op = 0x40#8 then checkReserved w false true (.rdcap (dataField w))
  else if op = 0x41#8 then checkReserved w false true (.rdspec (dataField w))
  else .error (.illegalOp op)

/-! ## Encoding (R90, R92) -/

/-- The `op` code of R92. -/
def opcode : Instr → BitVec 8
  | .nop => 0x00#8
  | .reset => 0x01#8
  | .start => 0x02#8
  | .stop => 0x03#8
  | .incb => 0x10#8
  | .inf _ => 0x11#8
  | .outf => 0x20#8
  | .regw _ _ => 0x30#8
  | .regr _ => 0x31#8
  | .rdcap _ => 0x40#8
  | .rdspec _ => 0x41#8

/-- The `ra` operand; 0 where the operation has none. -/
def raOperand : Instr → RegAddr
  | .nop => 0#8
  | .reset => 0#8
  | .start => 0#8
  | .stop => 0#8
  | .incb => 0#8
  | .inf _ => 0#8
  | .outf => 0#8
  | .regw ra _ => ra
  | .regr ra => ra
  | .rdcap _ => 0#8
  | .rdspec _ => 0#8

/-- The `data` operand; 0 where the operation has none. -/
def dataOperand : Instr → Word
  | .nop => 0#32
  | .reset => 0#32
  | .start => 0#32
  | .stop => 0#32
  | .incb => 0#32
  | .inf data => data
  | .outf => 0#32
  | .regw _ data => data
  | .regr _ => 0#32
  | .rdcap addr => addr
  | .rdspec addr => addr

/-- The operation word of an operation. -/
def encode (i : Instr) : OpWord := assemble (opcode i) (raOperand i) (dataOperand i)

/-! ## Bytes: little-endian, bits 7:0 first (R62) -/

/-- The 8 bytes of an operation word. -/
def toBytes (w : OpWord) : List Byte :=
  [w.extractLsb' 0 8, w.extractLsb' 8 8, w.extractLsb' 16 8, w.extractLsb' 24 8,
   w.extractLsb' 32 8, w.extractLsb' 40 8, w.extractLsb' 48 8, w.extractLsb' 56 8]

/-- The operation word at the head of a byte string, and the rest. -/
def wordOfBytes : List Byte → Option (OpWord × List Byte)
  | b0 :: b1 :: b2 :: b3 :: b4 :: b5 :: b6 :: b7 :: rest =>
    some (b7 ++ b6 ++ b5 ++ b4 ++ b3 ++ b2 ++ b1 ++ b0, rest)
  | _ => none

/-- The decoder of a byte string (a trace file, R62): one operation and the bytes after it. -/
def decodeBytes (bs : List Byte) : Except DecodeError (Instr × List Byte) :=
  match wordOfBytes bs with
  | none => .error .truncated
  | some (w, rest) =>
    match decodeWord w with
    | .error e => .error e
    | .ok i => .ok (i, rest)

/-- The 4 bytes of a frame in a byte stream. -/
def frameToBytes (frame : Word) : List Byte :=
  [frame.extractLsb' 0 8, frame.extractLsb' 8 8, frame.extractLsb' 16 8, frame.extractLsb' 24 8]

/-- The frame at the head of a byte stream, and the rest. -/
def frameOfBytes : List Byte → Option (Word × List Byte)
  | low :: midLow :: midHigh :: high :: rest => some (high ++ midHigh ++ midLow ++ low, rest)
  | _ => none

/-- A byte stream of frames, the first frame first. -/
def framesToBytes (ds : List Word) : List Byte := ds.flatMap frameToBytes

/-- The frames of a byte stream; none where its length is no multiple of `FRAME_BYTES` (log 17). -/
def framesOfBytes : List Byte → Option (List Word)
  | [] => some []
  | low :: midLow :: midHigh :: high :: rest =>
    (framesOfBytes rest).map (fun ds => (high ++ midHigh ++ midLow ++ low) :: ds)
  | _ => none

/-- The operation word whose low `nbits` bits are those of `w`, every bit above being 0. -/
def tableOpWord (nbits w : Nat) : OpWord := BitVec.ofNat 64 (w % 2 ^ nbits)

/-- The instruction the decoder reads from the bytes of a table row's word. -/
def decodeTableWord (nbits w : Nat) : Option Instr :=
  match decodeBytes (toBytes (tableOpWord nbits w)) with
  | .ok (i, _) => some i
  | .error _ => none

/-! ## The opcode map of R92 -/

/-- One row of R92: a word `w` encodes the operation iff `w AND mask = match`. -/
structure OpRow where
  mnemonic : String
  pattern  : OpWord
  mask     : OpWord
deriving DecidableEq, Repr

/-- The eleven rows of R92. -/
def opcodeRows : List OpRow :=
  [⟨"NOP",    0x0000000000000000#64, 0xFFFFFFFFFFFFFFFF#64⟩,
   ⟨"RESET",  0x0100000000000000#64, 0xFFFFFFFFFFFFFFFF#64⟩,
   ⟨"START",  0x0200000000000000#64, 0xFFFFFFFFFFFFFFFF#64⟩,
   ⟨"STOP",   0x0300000000000000#64, 0xFFFFFFFFFFFFFFFF#64⟩,
   ⟨"INCB",   0x1000000000000000#64, 0xFFFFFFFFFFFFFFFF#64⟩,
   ⟨"INF",    0x1100000000000000#64, 0xFFFFFFFF00000000#64⟩,
   ⟨"OUTF",   0x2000000000000000#64, 0xFFFFFFFFFFFFFFFF#64⟩,
   ⟨"REGW",   0x3000000000000000#64, 0xFF00FFFF00000000#64⟩,
   ⟨"REGR",   0x3100000000000000#64, 0xFF00FFFFFFFFFFFF#64⟩,
   ⟨"RDCAP",  0x4000000000000000#64, 0xFFFFFFFF00000000#64⟩,
   ⟨"RDSPEC", 0x4100000000000000#64, 0xFFFFFFFF00000000#64⟩]

/-- `w` encodes the operation of the row. -/
def OpRow.matches (r : OpRow) (w : OpWord) : Bool := w &&& r.mask == r.pattern

/-- An operation's mnemonic in R92 and R95. -/
def mnemonic : Instr → String
  | .nop => "NOP"
  | .reset => "RESET"
  | .start => "START"
  | .stop => "STOP"
  | .incb => "INCB"
  | .inf _ => "INF"
  | .outf => "OUTF"
  | .regw _ _ => "REGW"
  | .regr _ => "REGR"
  | .rdcap _ => "RDCAP"
  | .rdspec _ => "RDSPEC"

end Sys2Proof
end

