-- ==== Sys2Proof/Machine/Port.lean ====
section
/-! DEFINITION. The port through which operations arrive (R5, R14, R77). The block fetches nothing:
the agents supply the operation words in one total order, which `State.ops` holds (log 6). -/

namespace Sys2Proof.Machine

/-- Take the next operation word. The response port shows the new operation's response only, so the
response of the operation before is withdrawn (log 7). None if no operation arrives. -/
def takeOp (s : State) : Option (OpWord × State) :=
  match s.ops with
  | [] => none
  | w :: rest => some (w, (s.withOps rest).withResp none)

/-- The operation word of a table row, put where it arrives next. -/
def placeOp (s : State) (nbits w : Nat) : State := s.withOps (tableOpWord nbits w :: s.ops)

end Sys2Proof.Machine
end

