-- ==== Sys2Proof/Machine/Step.lean ====
section
/-! DEFINITION. One step: the next operation word of the port is decoded and executed; a word that
decodes to no operation is refused (R94); where no operation arrives nothing changes (log 6). -/

namespace Sys2Proof.Machine

/-- One step of the machine. -/
def step (s : State) : Host.Outcome State Fault Refusal :=
  match takeOp s with
  | none => .next s
  | some (w, s) =>
    match decodeWord w with
    | .ok i => exec i s
    | .error _ => .refused (.illegalWord w)

/-- `s` with a table row's word stored where `step` takes its next operation. -/
def State.withFetchWord (s : State) (nbits w : Nat) : State := placeOp s nbits w

end Sys2Proof.Machine
end

