-- ==== Sys2Proof/Machine/NumReal.lean ====
section
/-! DEFINITION. `NUM_REAL` of R12: the exact real functions, binary32 only at the ports. The machine
does not use it; the spec's claims 'in NUM_REAL' are stated with it. -/

namespace Sys2Proof.Machine

/-- The real part of `X[k]` in R172. -/
noncomputable def dftRe (w : Fin kSamples → ℝ) (k : Fin kRange) : ℝ :=
  ∑ n : Fin kSamples, w n * Real.cos (2 * Real.pi * k * n / kSamples)

/-- The imaginary part of `X[k]` in R172. -/
noncomputable def dftIm (w : Fin kSamples → ℝ) (k : Fin kRange) : ℝ :=
  ∑ n : Fin kSamples, w n * (-Real.sin (2 * Real.pi * k * n / kSamples))

/-- `MAG(w)`: rectangular window, factor `2/N`, bins `0 .. N/2-1` (R172). -/
noncomputable def dftMag (w : Fin kSamples → ℝ) (k : Fin kRange) : ℝ :=
  2 / kSamples * Real.sqrt (dftRe w k ^ 2 + dftIm w k ^ 2)

/-- Zero rounds to all-zero bits. -/
theorem encode_zero {K : Type} [Field K] [LinearOrder K] [FloorRing K] [IsStrictOrderedRing K] :
    Binary32.encode (0 : K) = 0#32 := by
  simp [Binary32.encode, Binary32.roundMagnitude, Binary32.roundScaled, Binary32.roundEven]

/-- All-zero bits denote zero. -/
theorem decode_zero {K : Type} [Field K] : Binary32.decode 0#32 = (0 : K) := by
  simp [Binary32.decode, Binary32.signBit, Binary32.magnitude, Binary32.exponent, Binary32.fraction]

/-- `NUM_REAL` (R12). `dec32` is undefined on NaN and infinity patterns; `u` is what it gives there,
any function at all. -/
noncomputable def numReal (u : Word → ℝ) : Numeric ℝ where
  dec32 w := if finitePattern w then Binary32.decode w else u w
  enc32 := Binary32.encode
  one := 1
  twoPi := 2 * Real.pi
  add x y := x + y
  sub x y := x - y
  mul x y := x * y
  div x y := x / y
  abs x := |x|
  sin := Real.sin
  lt x y := decide (x < y)
  le x y := decide (x ≤ y)
  ofNat n := n
  wrap2pi x := x - 2 * Real.pi * ⌊x / (2 * Real.pi)⌋
  dftmag := dftMag
  finite _ := true
  dec32_zero := by rw [if_pos (by decide)]; exact decode_zero
  enc32_zero := encode_zero

/-- `CFG_TEST` of R7, over `NUM_REAL`. The free values of log 5 and log 11, which R7 does not list,
stand at an arbitrary value. -/
noncomputable def cfgTestReal (u : Word → ℝ) : Cfg ℝ where
  num := numReal u
  tableCountLog i := ⟨i + 2, by have := i.isLt; simp only [tbEntries] at this; omega⟩
  tableScale i := 2 ^ i.val / 1024
  kFrequencyMin := 10
  kFrequencyMax := 20000
  kToneFreqMin := 10
  kToneFreqMax := 20000
  kMeterMin := 0
  kMeterMax := 1
  kMeterAttack := 1 / 2
  kMeterDecay := 1 / 4
  peakUnordered _ := ⟨1, by decide⟩
  beyondCount _ := ⟨0, by decide⟩
  beyondScale _ := 1
  scale_ok i := by simp [numReal]
  band_ok := by norm_num [numReal, Numeric.fs, sampleRate]
  band_nonempty :=
    ⟨⟨1, by decide⟩, by norm_num [numReal, Numeric.fs, sampleRate, Numeric.binFreq, kSamples]⟩
  tone_ok := by norm_num [numReal, Numeric.fs, sampleRate]
  meter_ok := by norm_num [numReal]
  attack_ok := by norm_num [numReal]
  decay_ok := by norm_num [numReal]

/-- Sub-window `j` of a publication over the steady input `amp * sin(2*pi*f*n/FS + phase)`; each
starts `kStep` samples after the one before (R173). -/
noncomputable def sineWindow (amp f phase : ℝ) (j : Fin kOversample) (n : Fin kSamples) : ℝ :=
  amp * Real.sin (2 * Real.pi * f * ((n : ℝ) + (j : ℝ) * kStep) / sampleRate + phase)

/-- The accuracy property of R179, carried as a named property of the transform as R179 asks: for
a sine in the peak-search band, the mean of four full sub-windows has its peak bin within one bin's
width of the sine's frequency. The spec does not prove it, and nothing here asserts it; an amplitude
of 0 is no sine (log 20). -/
def PeakAccuracy (c : Cfg ℝ) : Prop :=
  ∀ amp f phase : ℝ, amp ≠ 0 → c.num.le c.kFrequencyMin f = true →
    c.num.le f c.kFrequencyMax = true →
    let mean := fun k => (∑ j, dftMag (sineWindow amp f phase j) k) / kOversample
    |(peakBin c mean : ℝ) * sampleRate / kSamples - f| ≤ sampleRate / kSamples

end Sys2Proof.Machine
end

