-- ==== Sys2Proof/WellFormed.lean ====
section
/-! DEFINITION. Well-formed operations. Every operand of R90 fits its field by type, so the one
check left is P-FINITE of R269: an `INF` carries a finite binary32 pattern. -/

namespace Sys2Proof

/-- P-FINITE of R269 for one operation. -/
def Instr.wellFormed : Instr → Bool
  | .nop => true
  | .reset => true
  | .start => true
  | .stop => true
  | .incb => true
  | .inf data => finitePattern data
  | .outf => true
  | .regw _ _ => true
  | .regr _ => true
  | .rdcap _ => true
  | .rdspec _ => true

end Sys2Proof
end

