-- ==== Sys2Proof/Safety.lean ====
section
/-! DEFINITION. The terms claims use: the machine under any configuration (R7: the model takes `CFG`
as an argument), sequences of operations, runs (R268, R269), the invariant of the state at operation
boundaries, and the input frames that a sequence of all agents' operations delivers (R14). -/

namespace Sys2Proof.Machine

/-! ## The machine under any configuration -/

/-- `exec` with the configuration as an argument; `exec` is this at `Config.cfg`. A claim that needs
a law of NUM (R12) is stated over the configurations that have it. -/
def execUnder (c : Cfg Q) (i : Instr) (s : State) : Host.Outcome State Fault Refusal :=
  match i with
  | .nop => .next s
  | .reset => .next (resetEngine c s)
  | .start => .next (start c s)
  | .stop => .next (s.withRun false)
  | .incb => .next (callbackBoundary c s)
  | .inf data => inputSample c data s
  | .outf => .next (outputFrame c s)
  | .regw ra data => .next (registerWrite c ra data s)
  | .regr ra => .next (registerRead c ra s)
  | .rdcap addr => .next (readCapture c addr s)
  | .rdspec addr => .next (readSpectrum c addr s)

/-! ## Sequences and runs -/

/-- The operations of a list in order, stopping at the first that does not complete. -/
def runWith (f : Instr → State → Host.Outcome State Fault Refusal) :
    List Instr → State → Host.Outcome State Fault Refusal
  | [], s => .next s
  | i :: rest, s =>
    match f i s with
    | .next t => runWith f rest t
    | .fault e => .fault e
    | .refused r => .refused r

/-- A sequence of operations on the machine. -/
def execAll (is : List Instr) (s : State) : Host.Outcome State Fault Refusal := runWith exec is s

/-- A sequence of operations on the machine under a configuration. -/
def execAllUnder (c : Cfg Q) (is : List Instr) (s : State) : Host.Outcome State Fault Refusal :=
  runWith (execUnder c) is s

/-- A run: a sequence of operations whose first is `RESET` (R268), with P-FINITE (R269). -/
def IsRun (is : List Instr) : Prop :=
  is.head? = some .reset ∧ ∀ i ∈ is, i.wellFormed = true

/-! ## The invariant at operation boundaries -/

/-- The capture and trigger part: R25, and what R161 uses to show that the check of `NEXT` always
holds and that `NEXT` and `OVERRUN` are never seen. -/
structure CaptureInv (c : Cfg Q) (s : State) : Prop where
  index_lt : s.cap.index.toNat < length c s
  start_lt : s.cap.start.toNat < length c s
  count_le : s.cap.count.toNat ≤ length c s
  scan_lt : s.cap.scan.toNat < length c s
  not_next : s.trig.state ≠ .next
  init_count : s.trig.state = .init → s.cap.count.toNat = 0
  first_count : s.trig.state = .first →
    0 < s.cap.count.toNat ∧ s.cap.count.toNat < length c s ∧
    s.cap.index.toNat = (s.cap.start.toNat + s.cap.count.toNat) % length c s
  last_full : s.trig.state = .last →
    s.cap.count.toNat = length c s ∧ s.cap.index = s.cap.start
  no_overrun : s.st.overrun = false
  freerun_init : s.st.freerun = true → s.trig.state = .init

/-- The ranges of R24, R27, R28 and R30: the timebase indices, the spectrum counters, and the
published length. -/
structure RangeInv (s : State) : Prop where
  tb_lt : s.cap.tb.toNat < tbEntries
  reqTb_lt : s.req.tb.toNat < tbEntries
  fill_lt : s.spec.fill.toNat < kStep
  slot_lt : s.spec.slot.toNat < kOversample
  capLen_pos : 1 ≤ s.pub.capLen.toNat
  capLen_le : s.pub.capLen.toNat ≤ capacity

/-- Every array is in canonical form and within its capacity (R60). -/
structure MemoryInv (s : State) : Prop where
  ring_wf : s.cap.ring.wf = true
  ring_below : s.cap.ring.below capacity = true
  pubCap_wf : s.pub.cap.wf = true
  pubCap_below : s.pub.cap.below capacity = true
  hist_wf : s.spec.hist.wf = true
  hist_below : s.spec.hist.below kSamples = true
  acc_wf : s.spec.acc.wf = true
  acc_below : s.spec.acc.below kRange = true
  pubSpec_wf : s.pub.spec.wf = true
  pubSpec_below : s.pub.spec.below kRange = true

/-- The invariant of the machine's state under a configuration. -/
structure InvUnder (c : Cfg Q) (s : State) : Prop where
  capture : CaptureInv c s
  range : RangeInv s
  memory : MemoryInv s

/-- The invariant of the machine's state. -/
def Inv (s : State) : Prop := InvUnder Config.cfg s

/-! ## The input frames among the operations of all agents (R14) -/

/-- The frame an operation delivers: that of an `INF`. -/
def inputOf : Instr → Option Word
  | .inf data => some data
  | .nop => none
  | .reset => none
  | .start => none
  | .stop => none
  | .incb => none
  | .outf => none
  | .regw _ _ => none
  | .regr _ => none
  | .rdcap _ => none
  | .rdspec _ => none

/-- The frames a sequence of operations delivers, in order, whatever stands between them. -/
def inputs (is : List Instr) : List Word := is.filterMap inputOf

/-- The samples a list of frames carries. -/
def samples (c : Cfg Q) (ds : List Word) : List Q := ds.map c.num.dec32

/-- A sequence of legal operations that keeps the engine as it runs: P-FINITE holds (R269), and no
`STOP` and no `RESET` is among them. -/
def keepsRunning (is : List Instr) : Bool :=
  is.all (fun i => i.wellFormed && i != .stop && i != .reset)

/-- `p` holds of every operation of a sequence and the state it finds. -/
def along (c : Cfg Q) (p : Instr → State → Bool) : List Instr → State → Bool
  | [], _ => true
  | i :: is, s =>
    p i s && match execUnder c i s with
      | .next t => along c p is t
      | .fault _ => true
      | .refused _ => true

/-- The operation is no `INCB` that changes the timebase or clears (R160). -/
def keepsWindow (i : Instr) (s : State) : Bool :=
  i != .incb || (s.req.tb == s.cap.tb && !flagClear s.req.flags)

/-- The operation is no `INCB` that adopts other mode flags. -/
def keepsMode (i : Instr) (s : State) : Bool := i != .incb || s.req.mode == s.cap.mode

/-- The operation is no `INF` whose sample is a qualifying edge against the sample before it, under
the mode flags active there (R146). -/
def noEdge (c : Cfg Q) (i : Instr) (s : State) : Bool :=
  match inputOf i with
  | some d => !qualifies c (c.num.dec32 d) s
  | none => true

/-- Under the mode flags `mode`, after the sample `prev`, no sample of the list is a qualifying edge
against the one before it (R142, R146, R149). -/
def noEdgeAmong (c : Cfg Q) (mode : BitVec 5) : Q → List Q → Bool
  | _, [] => true
  | prev, x :: xs =>
    !(modeTrigEn mode && edge c.num (modeSlope mode) prev x) && noEdgeAmong c mode x xs

end Sys2Proof.Machine
end

