-- ==== Sys2Proof/Certificates/Slice0/Obligations.lean ====
section
/-! DEFINITION. The statements for the provers. Those whose hypotheses ask something of the
configuration (the length of a window, a qualifying edge, a law of NUM) are stated for the machine
under EVERY configuration, `execUnder c`; `ExecIsExecUnderTheConfiguration` says that `exec` is that
machine at `Config.cfg`. The response of an operation (R90) shows in the field `resp`, and the words
still to arrive in `ops`; both fields are the model's choice (log 6, log 7, log 13). -/

open Sys2Proof Sys2Proof.Machine

/-! ## Encoding -/

/-- R90, R92, R94: no bit of an operation's encoding is dropped. -/
def Obligations.DecodeOfEncode : Prop :=
  ∀ i : Instr, decodeWord (encode i) = .ok i

/-- R90, R92: each legal word has one meaning and one word encodes it. -/
def Obligations.EncodeOfDecode : Prop :=
  ∀ (w : OpWord) (i : Instr), decodeWord w = .ok i → encode i = w

/-- R62, R90: an operation is 8 bytes, the byte of bits 7:0 first; a byte string is read back to the
word and the bytes after it, and a shorter string is no operation. A frame in a byte stream is 4
bytes (R2) in the same order; a frame is read back from the head of a stream, and a stream of frames
is read back whole. -/
def Obligations.WordsSerialiseLittleEndian : Prop :=
  (∀ w : OpWord, (toBytes w).length = 8 ∧
    ∀ k, k < 8 → (toBytes w)[k]? = some (w.extractLsb' (8 * k) 8)) ∧
  (∀ (w : OpWord) (rest : List Byte), wordOfBytes (toBytes w ++ rest) = some (w, rest)) ∧
  (∀ (i : Instr) (rest : List Byte), decodeBytes (toBytes (encode i) ++ rest) = .ok (i, rest)) ∧
  (∀ bs : List Byte, bs.length < 8 → decodeBytes bs = .error .truncated) ∧
  (∀ frame : Word, (frameToBytes frame).length = frameBytes ∧
    ∀ k, k < frameBytes → (frameToBytes frame)[k]? = some (frame.extractLsb' (8 * k) 8)) ∧
  (∀ (frame : Word) (rest : List Byte),
    frameOfBytes (frameToBytes frame ++ rest) = some (frame, rest)) ∧
  (∀ ds : List Word, (framesToBytes ds).length = frameBytes * ds.length ∧
    framesOfBytes (framesToBytes ds) = some ds)

/-- R92: a word encodes the operation of a row of the opcode map iff `w AND mask = match`. -/
def Obligations.DecodeAgreesWithOpcodeMap : Prop :=
  ∀ w : OpWord,
    (∀ i, decodeWord w = .ok i → ∃ r ∈ opcodeRows, r.mnemonic = mnemonic i ∧ r.matches w = true) ∧
    (∀ r ∈ opcodeRows, r.matches w = true → ∃ i, decodeWord w = .ok i ∧ mnemonic i = r.mnemonic)

/-- R94: which words are illegal, that a step refuses them, and that a register access to an
unmapped address is legal and has the effect of R64 (that the refusal is `step`'s, and the fields
`ops` and `resp`: the model's, log 6, log 7, log 9). -/
def Obligations.IllegalWordsAreRefused : Prop :=
  (∀ w : OpWord,
    let illegal : Prop :=
      opField w ∉ [0x00#8, 0x01#8, 0x02#8, 0x03#8, 0x10#8, 0x11#8, 0x20#8, 0x30#8, 0x31#8, 0x40#8,
        0x41#8] ∨
      zField w ≠ 0#16 ∨
      (opField w ∉ [0x30#8, 0x31#8] ∧ raField w ≠ 0#8) ∨
      (opField w ∈ [0x00#8, 0x01#8, 0x02#8, 0x03#8, 0x10#8, 0x20#8, 0x31#8] ∧ dataField w ≠ 0#32)
    ((∃ e, decodeWord w = .error e) ↔ illegal) ∧
    (illegal → ∀ (s : State) (rest : List OpWord), s.ops = w :: rest →
      step s = .refused (.illegalWord w))) ∧
  (∀ (ra : RegAddr) (data : Word) (s : State), 0x11 ≤ ra.toNat →
    decodeWord (assemble 0x30#8 ra data) = .ok (.regw ra data) ∧
    decodeWord (assemble 0x31#8 ra 0#32) = .ok (.regr ra) ∧
    exec (.regw ra data) s = .next { s with st := { s.st with buserr := true } } ∧
    exec (.regr ra) s =
      .next { s with st := { s.st with buserr := true }, resp := some 0x00000000#32 })

/-- R90, R92, R94: words written out from the spec's encoding decode to the operations they stand
for. -/
def Obligations.SpecWordsDecode : Prop :=
  decodeWord 0x110000003E800000#64 = .ok (.inf 0x3E800000#32) ∧
  decodeWord 0x30010000447A0000#64 = .ok (.regw 0x01#8 0x447A0000#32) ∧
  decodeWord 0x3100000000000000#64 = .ok (.regr 0x00#8) ∧
  decodeWord 0x4000000000000003#64 = .ok (.rdcap 3#32) ∧
  decodeWord 0x4100000000000400#64 = .ok (.rdspec 0x400#32) ∧
  decodeWord 0x2000000000000000#64 = .ok .outf ∧
  decodeWord 0x30FF000000000001#64 = .ok (.regw 0xFF#8 1#32) ∧
  decodeWord 0x0500000000000000#64 = .error (.illegalOp 0x05#8) ∧
  decodeWord 0x2000000000000001#64 = .error .reservedData ∧
  decodeWord 0x1001000000000000#64 = .error .reservedRa ∧
  decodeWord 0x3001000100000000#64 = .error .reservedZ

/-! ## The step -/

/-- R5, R14: a step executes the operation the next word decodes to, with that word taken from the
port and the response of the operation before withdrawn; where no word arrives nothing changes (the
port is the model's, log 6 and log 7). -/
def Obligations.StepRunsTheDecodedOperation : Prop :=
  (∀ (s : State) (w : OpWord) (rest : List OpWord) (i : Instr),
    s.ops = w :: rest → decodeWord w = .ok i →
    step s = exec i { s with ops := rest, resp := none }) ∧
  (∀ s : State, s.ops = [] → step s = .next s)

/-- R7: the machine is the machine under its configuration, for single operations and for
sequences. -/
def Obligations.ExecIsExecUnderTheConfiguration : Prop :=
  (∀ (i : Instr) (s : State), exec i s = execUnder Config.cfg i s) ∧
  (∀ (is : List Instr) (s : State), execAll is s = execAllUnder Config.cfg is s)

/-! ## Engine control -/

/-- R110. -/
def Obligations.NopHasNoEffect : Prop :=
  ∀ s : State, exec .nop s = .next s

/-- R111, R251: `RESET` puts every element in its reset value, whatever the state before; the model's
own `resp` and `ops` stay (log 13). -/
def Obligations.ResetReachesTheResetState : Prop :=
  ∀ s : State, exec .reset s = .next
    { run := false
      tone := { freq := Config.cfg.num.dec32 0, amp := Config.cfg.num.dec32 0, phase := 0,
                count := 0 }
      cap := { ring := [], tb := 0, index := 0, start := 0, count := 0, scan := 0, mode := 0 }
      trig := { state := .init, prev := Config.cfg.num.dec32 0 }
      req := { tb := 0, mode := 0, flags := 0 }
      yscale := 0
      spec := { hist := [], hpos := 0, fill := 0, acc := [], slot := 0 }
      meter := { level := Config.cfg.kMeterMin }
      pub := { cap := [], capLen := BitVec.ofNat 19 (Config.cfg.count 0),
               capXscale := Config.cfg.scale 0, capFreerun := false, capSeq := 0, spec := [],
               specSeq := 0, freq := Config.cfg.num.dec32 0, level := Config.cfg.num.dec32 0,
               levelShadow := Config.cfg.num.dec32 0 }
      st := { cfgerr := false, overrun := false, buserr := false, freerun := false }
      resp := s.resp
      ops := s.ops }

/-- R112, R252: `START` while running changes nothing; otherwise it initialises all but the
configuration registers; so the state after `STOP`, `START` depends on those registers alone (`resp`
and `ops`, the model's own, stay: log 13). -/
def Obligations.StartInitialisesAllButConfiguration : Prop :=
  (∀ s : State, s.run = true → exec .start s = .next s) ∧
  (∀ s : State, s.run = false → exec .start s = .next
    { run := true
      tone := { freq := s.tone.freq, amp := s.tone.amp, phase := 0, count := 0 }
      cap := { ring := [], tb := s.req.tb, index := 0, start := 0, count := 0, scan := 0,
               mode := s.req.mode }
      trig := { state := .init, prev := Config.cfg.num.dec32 0 }
      req := { tb := s.req.tb, mode := s.req.mode, flags := 0 }
      yscale := s.yscale
      spec := { hist := [], hpos := 0, fill := 0, acc := [], slot := 0 }
      meter := { level := Config.cfg.kMeterMin }
      pub := { cap := [], capLen := BitVec.ofNat 19 (Config.cfg.count s.req.tb),
               capXscale := Config.cfg.scale s.req.tb, capFreerun := false, capSeq := 0,
               spec := [], specSeq := 0, freq := Config.cfg.num.dec32 0,
               level := Config.cfg.num.dec32 0, levelShadow := Config.cfg.num.dec32 0 }
      st := { cfgerr := false, overrun := false, buserr := false, freerun := false }
      resp := s.resp
      ops := s.ops }) ∧
  (∀ s s' : State, s.tone.freq = s'.tone.freq → s.tone.amp = s'.tone.amp →
    s.req.tb = s'.req.tb → s.req.mode = s'.req.mode → s.yscale = s'.yscale →
    s.resp = s'.resp → s.ops = s'.ops →
    execAll [.stop, .start] s = execAll [.stop, .start] s')

/-- R113: `run <- 0` and nothing else. -/
def Obligations.StopClearsRunOnly : Prop :=
  ∀ s : State, exec .stop s = .next { s with run := false }

/-- R114: while stopped, `INCB` and `INF` change nothing and `OUTF` changes nothing and answers
+0.0 (the answer in `resp`, log 7). -/
def Obligations.StoppedEngineIgnoresRealTimeOperations : Prop :=
  ∀ s : State, s.run = false →
    exec .incb s = .next s ∧
    (∀ d : Word, finitePattern d = true → exec (.inf d) s = .next s) ∧
    exec .outf s = .next { s with resp := some 0x00000000#32 }

/-! ## Tone generator -/

/-- R121: the sample is computed from the phase before the increment, the phase advances by
`TWO_PI * freq / FS` and is wrapped, the count wraps modulo 2^32; while stopped only the response
+0.0 (the response in `resp`, log 7). -/
def Obligations.OutfGivesSampleAndAdvancesPhase : Prop :=
  let n := Config.cfg.num
  (∀ s : State, s.run = true → exec .outf s = .next
    { s with
      tone := { s.tone with
        phase := n.wrap2pi (n.add s.tone.phase (n.div (n.mul n.twoPi s.tone.freq) n.fs))
        count := s.tone.count + 1 }
      resp := some (n.enc32 (n.mul s.tone.amp (n.sin s.tone.phase))) }) ∧
  (∀ s : State, s.run = false → exec .outf s = .next { s with resp := some 0x00000000#32 })

/-- R123, R122: whatever operations fall between two `OUTF`, but `START` and `RESET`, the second
uses the phase the first left, which the frequency at the first determines. -/
def Obligations.PhaseIsContinuous : Prop :=
  let n := Config.cfg.num
  ∀ (is : List Instr) (s t : State),
    (∀ i ∈ is, i ≠ .outf ∧ i ≠ .start ∧ i ≠ .reset) → s.run = true →
    execAll (.outf :: is) s = .next t →
    t.tone.phase = n.wrap2pi (n.add s.tone.phase (n.div (n.mul n.twoPi s.tone.freq) n.fs))

/-! ## NUM -/

/-- R12: the laws L1 to L5 hold exactly in `NUM_REAL`, whatever `dec32` gives on the patterns on
which it is undefined. -/
def Obligations.NumRealHasTheLaws : Prop :=
  ∀ u : Word → ℝ, (numReal u).LawAbs ∧ (numReal u).LawWrap ∧ (numReal u).LawOrder ∧
    (numReal u).LawSin ∧ (numReal u).LawSmooth

/-- R12, U5: in `NUM_REAL` a finite word decoded and encoded is itself, but for negative zero, which
comes back as zero: there is one zero. -/
def Obligations.FiniteWordsRoundTripInNumReal : Prop :=
  ∀ (u : Word → ℝ) (w : Word), finitePattern w = true →
    (numReal u).enc32 ((numReal u).dec32 w) = if w = 0x80000000#32 then 0x00000000#32 else w

/-! ## INF -/

/-- R130, R269: an `INF` completes exactly on a finite pattern and is refused on a NaN or infinity
pattern; it leaves alone everything but the capture, trigger, spectrum, meter and published state
and the two flags it may write; while running it remembers the sample (the refusal while stopped:
log 8). -/
def Obligations.InfFrame : Prop :=
  (∀ (d : Word) (s : State), finitePattern d = false →
    exec (.inf d) s = .refused (.nonFiniteSample d)) ∧
  (∀ (d : Word) (s : State), finitePattern d = true → ∃ t, exec (.inf d) s = .next t ∧
    t.run = s.run ∧ t.tone = s.tone ∧ t.cap.tb = s.cap.tb ∧ t.cap.mode = s.cap.mode ∧
    t.req = s.req ∧ t.yscale = s.yscale ∧ t.pub.levelShadow = s.pub.levelShadow ∧
    t.st.cfgerr = s.st.cfgerr ∧ t.st.buserr = s.st.buserr ∧ t.resp = s.resp ∧ t.ops = s.ops ∧
    (s.run = true → t.trig.prev = Config.cfg.num.dec32 d))

/-- R191, R190: the level after an input frame. -/
def Obligations.InfMovesTheMeterLevel : Prop :=
  let c := Config.cfg
  let n := Config.cfg.num
  ∀ (d : Word) (s : State), s.run = true → finitePattern d = true →
    ∃ t, exec (.inf d) s = .next t ∧
      (let instant := n.abs (n.dec32 d)
       let alpha := if n.lt s.meter.level instant = true then c.kMeterAttack else c.kMeterDecay
       let l := n.add s.meter.level (n.mul alpha (n.sub instant s.meter.level))
       t.meter.level =
         if n.lt l c.kMeterMin = true then c.kMeterMin
         else if n.lt c.kMeterMax l = true then c.kMeterMax
         else l)

/-- R171: a frame is stored in the history at `spec.hpos`, which advances modulo 4096; unless the
frame is the 1024th since the last sub-window the accumulator, the cursor and the published spectrum
are kept. -/
def Obligations.InfStoresTheHistory : Prop :=
  ∀ (d : Word) (s : State), s.run = true → finitePattern d = true →
    ∃ t, exec (.inf d) s = .next t ∧
      (∀ a, t.spec.hist.read a =
        if a = s.spec.hpos.toNat then Config.cfg.num.dec32 d else s.spec.hist.read a) ∧
      t.spec.hpos.toNat = (s.spec.hpos.toNat + 1) % 4096 ∧
      (s.spec.fill.toNat + 1 = 1024 → t.spec.fill = 0) ∧
      (s.spec.fill.toNat + 1 ≠ 1024 →
        t.spec.fill = s.spec.fill + 1 ∧ t.spec.acc = s.spec.acc ∧ t.spec.slot = s.spec.slot ∧
        t.pub.spec = s.pub.spec ∧ t.pub.specSeq = s.pub.specSeq ∧ t.pub.freq = s.pub.freq ∧
        t.pub.level = s.pub.level)

/-- R173, R174, R72: at the 1024th frame since the last sub-window the magnitude spectrum of the
last 4096 samples, oldest first, is added to the accumulator; at the fourth sub-window the mean is
published with the frequency and level of its peak bin, and the accumulator restarts. -/
def Obligations.SubWindowFoldsAndPublishes : Prop :=
  let n := Config.cfg.num
  ∀ (d : Word) (s : State), s.run = true → finitePattern d = true → s.spec.fill.toNat + 1 = 1024 →
    ∃ t, exec (.inf d) s = .next t ∧
      (let m := n.dftmag (fun j => t.spec.hist.read ((t.spec.hpos.toNat + j) % 4096))
       (s.spec.slot.toNat + 1 ≠ 4 →
         (∀ k : Fin kRange, t.spec.acc.read k = n.add (s.spec.acc.read k) (m k)) ∧
         t.spec.slot = s.spec.slot + 1 ∧ t.pub.spec = s.pub.spec ∧
         t.pub.specSeq = s.pub.specSeq ∧ t.pub.freq = s.pub.freq ∧ t.pub.level = s.pub.level) ∧
       (s.spec.slot.toNat + 1 = 4 →
         (∀ k : Fin kRange, t.pub.spec.read k =
           n.div (n.add (s.spec.acc.read k) (m k)) (n.ofNat 4)) ∧
         (∀ k : Fin kRange, t.spec.acc.read k = n.dec32 0) ∧
         t.spec.slot = 0 ∧ t.pub.specSeq = s.pub.specSeq + 1 ∧
         (let p := peakBin Config.cfg (fun k => t.pub.spec.read k)
          t.pub.freq = n.div (n.mul (n.ofNat p) n.fs) (n.ofNat 4096) ∧
          t.pub.level = t.pub.spec.read p)))

/-- R175: `PeakBin` is a bin of the band that no bin of the band exceeds, and the lowest such bin;
on an all-zero spectrum it is the lowest bin of the band. The order law L3 is what makes such a bin
exist. -/
def Obligations.PeakBinIsTheLowestGreatestBin : Prop :=
  ∀ (α : Type) [Zero α] (c : Cfg α) (m : Fin kRange → α), c.num.LawOrder →
    (∀ k, c.num.finite (m k) = true) →
    let band := fun k : Fin kRange =>
      c.num.le c.kFrequencyMin
        (c.num.div (c.num.mul (c.num.ofNat k) c.num.fs) (c.num.ofNat 4096)) = true ∧
      c.num.le (c.num.div (c.num.mul (c.num.ofNat k) c.num.fs) (c.num.ofNat 4096))
        c.kFrequencyMax = true
    band (peakBin c m) ∧
    (∀ j, band j → c.num.lt (m (peakBin c m)) (m j) = false) ∧
    (∀ k, band k → k < peakBin c m → ∃ j, band j ∧ c.num.lt (m k) (m j) = true) ∧
    ((∀ k, m k = 0) → ∀ k, band k → peakBin c m ≤ k)

/-! ## The trigger state machine -/

/-- R148, R149, R150, R142: in `INIT`, a sample that is no qualifying edge is stored at the write
index; at the `length`-th such sample since the scan began the raw stream is published, oldest
sample first. -/
def Obligations.InitScanWritesAndFreeRuns : Prop :=
  ∀ (c : Cfg Q) (d : Word) (s : State), s.run = true → finitePattern d = true →
    s.trig.state = .init →
    (modeTrigEn s.cap.mode &&
      (if modeSlope s.cap.mode
        then c.num.lt 0 s.trig.prev && c.num.le (c.num.dec32 d) 0
        else c.num.lt s.trig.prev 0 && c.num.le 0 (c.num.dec32 d))) = false →
    ∃ t, execUnder c (.inf d) s = .next t ∧
      t.trig.state = .init ∧
      (∀ a, t.cap.ring.read a =
        if a = s.cap.index.toNat then c.num.dec32 d else s.cap.ring.read a) ∧
      t.cap.index.toNat = (s.cap.index.toNat + 1) % c.count s.cap.tb ∧
      t.cap.start = s.cap.start ∧ t.cap.count = s.cap.count ∧ t.st.overrun = s.st.overrun ∧
      ((s.cap.scan + 1).toNat ≠ c.count s.cap.tb →
        t.cap.scan = s.cap.scan + 1 ∧ t.st.freerun = s.st.freerun ∧ t.pub.cap = s.pub.cap ∧
        t.pub.capLen = s.pub.capLen ∧ t.pub.capXscale = s.pub.capXscale ∧
        t.pub.capFreerun = s.pub.capFreerun ∧ t.pub.capSeq = s.pub.capSeq) ∧
      ((s.cap.scan + 1).toNat = c.count s.cap.tb →
        t.cap.scan = 0 ∧ t.st.freerun = true ∧
        (∀ a, t.pub.cap.read a =
          if a < c.count s.cap.tb
          then t.cap.ring.read ((t.cap.index.toNat + a) % c.count s.cap.tb)
          else s.pub.cap.read a) ∧
        t.pub.capLen.toNat = c.count s.cap.tb ∧ t.pub.capXscale = c.scale s.cap.tb ∧
        t.pub.capFreerun = true ∧ t.pub.capSeq = s.pub.capSeq + 1)

/-- R147, R142: in `INIT`, a qualifying edge starts a window: its sample is stored at the write
index, which becomes `cap.start`, and the count becomes 1; with a window longer than one sample the
detector goes to `FIRST` and nothing is published. -/
def Obligations.InitEdgeStartsTheWindow : Prop :=
  ∀ (c : Cfg Q) (d : Word) (s : State), s.run = true → finitePattern d = true →
    s.trig.state = .init →
    (modeTrigEn s.cap.mode &&
      (if modeSlope s.cap.mode
        then c.num.lt 0 s.trig.prev && c.num.le (c.num.dec32 d) 0
        else c.num.lt s.trig.prev 0 && c.num.le 0 (c.num.dec32 d))) = true →
    c.count s.cap.tb ≠ 1 →
    ∃ t, execUnder c (.inf d) s = .next t ∧
      t.trig.state = .first ∧
      (∀ a, t.cap.ring.read a =
        if a = s.cap.index.toNat then c.num.dec32 d else s.cap.ring.read a) ∧
      t.cap.index.toNat = (s.cap.index.toNat + 1) % c.count s.cap.tb ∧
      t.cap.start = s.cap.index ∧ t.cap.count = 1 ∧ t.cap.scan = s.cap.scan ∧
      t.st.freerun = false ∧ t.st.overrun = s.st.overrun ∧ t.pub.cap = s.pub.cap ∧
      t.pub.capLen = s.pub.capLen ∧ t.pub.capXscale = s.pub.capXscale ∧
      t.pub.capFreerun = s.pub.capFreerun ∧ t.pub.capSeq = s.pub.capSeq

/-- R151, R152, R153: in `FIRST`, at operation boundaries a run can reach, a sample is stored and
counted; the sample that completes the window takes the detector through `NEXT` to `LAST` in the
same operation and publishes the window from `cap.start` on. -/
def Obligations.FirstFillCompletesTheWindow : Prop :=
  ∀ (c : Cfg Q) (d : Word) (s : State), CaptureInv c s → s.run = true →
    finitePattern d = true → s.trig.state = .first →
    ∃ t, execUnder c (.inf d) s = .next t ∧
      (∀ a, t.cap.ring.read a =
        if a = s.cap.index.toNat then c.num.dec32 d else s.cap.ring.read a) ∧
      t.cap.index.toNat = (s.cap.index.toNat + 1) % c.count s.cap.tb ∧
      t.cap.start = s.cap.start ∧ t.cap.count = s.cap.count + 1 ∧ t.cap.scan = s.cap.scan ∧
      t.st.freerun = s.st.freerun ∧ t.st.overrun = s.st.overrun ∧
      (s.cap.count.toNat + 1 ≠ c.count s.cap.tb →
        t.trig.state = .first ∧ t.pub.cap = s.pub.cap ∧ t.pub.capLen = s.pub.capLen ∧
        t.pub.capXscale = s.pub.capXscale ∧ t.pub.capFreerun = s.pub.capFreerun ∧
        t.pub.capSeq = s.pub.capSeq) ∧
      (s.cap.count.toNat + 1 = c.count s.cap.tb →
        t.trig.state = .last ∧
        (∀ a, t.pub.cap.read a =
          if a < c.count s.cap.tb
          then t.cap.ring.read ((s.cap.start.toNat + a) % c.count s.cap.tb)
          else s.pub.cap.read a) ∧
        t.pub.capLen.toNat = c.count s.cap.tb ∧ t.pub.capXscale = c.scale s.cap.tb ∧
        t.pub.capFreerun = false ∧ t.pub.capSeq = s.pub.capSeq + 1)

/-- R156: in `LAST` an input frame leaves the whole capture group, the trigger state, the published
window and the flags alone, whatever `storage` is; `trig.prev` still follows the input. -/
def Obligations.LastFreezesTheCapture : Prop :=
  ∀ (d : Word) (s : State), s.run = true → finitePattern d = true → s.trig.state = .last →
    ∃ t, exec (.inf d) s = .next t ∧ t.cap = s.cap ∧
      t.trig = { state := .last, prev := Config.cfg.num.dec32 d } ∧ t.st = s.st ∧
      t.pub.cap = s.pub.cap ∧ t.pub.capLen = s.pub.capLen ∧ t.pub.capXscale = s.pub.capXscale ∧
      t.pub.capFreerun = s.pub.capFreerun ∧ t.pub.capSeq = s.pub.capSeq

/-- R160, R14: from `INIT`, `length` input frames of which the first is a qualifying edge reach
`LAST` and publish exactly those frames, in order, in one publication, whatever operations of any
agent fall between the frames but `STOP`, `RESET` and an `INCB` that changes the timebase or clears;
so also an `INCB` that adopts other mode flags, consumes or rearms. -/
def Obligations.EdgeReachesLastInOneRevolution : Prop :=
  ∀ (c : Cfg Q) (d : Word) (rest : List Instr) (s : State),
    let is := .inf d :: rest
    CaptureInv c s → s.run = true → s.trig.state = .init →
    qualifies c (c.num.dec32 d) s = true →
    keepsRunning is = true → along c keepsWindow is s = true →
    (inputs is).length = c.count s.cap.tb → (∃ e, is.getLast? = some (.inf e)) →
    ∃ t, execAllUnder c is s = .next t ∧
      t.trig.state = .last ∧
      (∀ i, i < c.count s.cap.tb → some (t.pub.cap.read i) = (samples c (inputs is))[i]?) ∧
      t.pub.capLen.toNat = c.count s.cap.tb ∧ t.pub.capXscale = c.scale s.cap.tb ∧
      t.pub.capFreerun = false ∧ t.pub.capSeq = s.pub.capSeq + 1 ∧ t.st.freerun = false ∧
      t.st.overrun = false

/-- R150, R149, R14: `length` input frames from the beginning of a scan, none of them a qualifying
edge, leave the detector in `INIT` and publish exactly those frames, in order, as a free-run view,
whatever operations of any agent fall between the frames but `STOP`, `RESET` and an `INCB` that
changes the timebase or clears. That no frame is a qualifying edge is said at each frame, under the
mode flags active there; or, where no `INCB` adopts other mode flags, of the list of samples alone,
each against the one before it and the first against `trig.prev`: which is every list where
triggering is disabled. -/
def Obligations.NoEdgeFreeRunsInOneRevolution : Prop :=
  ∀ (c : Cfg Q) (is : List Instr) (s : State),
    CaptureInv c s → s.run = true → s.trig.state = .init → s.cap.scan = 0 →
    keepsRunning is = true → along c keepsWindow is s = true →
    (along c (noEdge c) is s = true ∨
      (along c keepsMode is s = true ∧
        noEdgeAmong c s.cap.mode s.trig.prev (samples c (inputs is)) = true)) →
    (inputs is).length = c.count s.cap.tb →
    ∃ t, execAllUnder c is s = .next t ∧
      t.trig.state = .init ∧ t.cap.scan = 0 ∧ t.st.freerun = true ∧
      (∀ i, i < c.count s.cap.tb → some (t.pub.cap.read i) = (samples c (inputs is))[i]?) ∧
      t.pub.capLen.toNat = c.count s.cap.tb ∧ t.pub.capXscale = c.scale s.cap.tb ∧
      t.pub.capFreerun = true ∧ t.pub.capSeq = s.pub.capSeq + 1

/-! ## The spectrum over a session -/

/-- R171, R173, R174, R14: after `n` input frames since `START` the spectrum has been published
`n / 4096` times and the cursors stand where the frame count puts them, whatever other operations
fall between the frames, but `STOP` and `RESET`. -/
def Obligations.SpectrumIsPublishedOncePer4096Frames : Prop :=
  ∀ (s : State) (is : List Instr), s.run = false → keepsRunning is = true →
    let n := (inputs is).length
    ∃ t, execAll (.start :: is) s = .next t ∧
      t.pub.specSeq = BitVec.ofNat 32 (n / 4096) ∧
      t.spec.slot.toNat = n / 1024 % 4 ∧
      t.spec.fill.toNat = n % 1024 ∧
      t.spec.hpos.toNat = n % 4096

/-- R170, R173, R178, R14: after `n` input frames since `START` the history read from `spec.hpos` on
is the last 4096 samples, oldest first, with zeros for the samples before the session, whatever other
operations fall between the frames, but `STOP` and `RESET`. -/
def Obligations.HistoryHoldsTheLastSamples : Prop :=
  ∀ (s : State) (is : List Instr), s.run = false → keepsRunning is = true →
    let xs := samples Config.cfg (inputs is)
    ∃ t, execAll (.start :: is) s = .next t ∧
      ∀ j, j < 4096 →
        t.spec.hist.read ((t.spec.hpos.toNat + j) % 4096) =
          if xs.length + j < 4096 then Config.cfg.num.dec32 0
          else (xs[xs.length + j - 4096]?).getD 0

/-! ## INCB -/

/-- R131, R27: an effective `INCB` adopts the requested mode and timebase, clears all request bits,
and leaves the tone, spectrum, meter, readout and error flags alone. -/
def Obligations.IncbAdoptsAndConsumesRequests : Prop :=
  ∀ s : State, s.run = true → ∃ t, exec .incb s = .next t ∧
    t.cap.mode = s.req.mode ∧ t.cap.tb = s.req.tb ∧ t.req = { s.req with flags := 0 } ∧
    t.run = true ∧ t.tone = s.tone ∧ t.trig.prev = s.trig.prev ∧ t.yscale = s.yscale ∧
    t.spec = s.spec ∧ t.meter = s.meter ∧ t.pub.spec = s.pub.spec ∧
    t.pub.specSeq = s.pub.specSeq ∧ t.pub.freq = s.pub.freq ∧ t.pub.level = s.pub.level ∧
    t.pub.levelShadow = s.pub.levelShadow ∧ t.st.cfgerr = s.st.cfgerr ∧
    t.st.overrun = s.st.overrun ∧ t.st.buserr = s.st.buserr ∧ t.resp = s.resp ∧ t.ops = s.ops

/-- R131(a), (e): with nothing pending `INCB` changes nothing; after an effective `INCB` another one
changes nothing. -/
def Obligations.IncbWithNothingPendingIsIdle : Prop :=
  (∀ s : State, s.req.flags = 0 → s.req.mode = s.cap.mode → s.req.tb = s.cap.tb →
    exec .incb s = .next s) ∧
  (∀ s t : State, s.run = true → exec .incb s = .next t → exec .incb t = .next t)

/-- R158, R131: a timebase change, without a clear, takes effect at `INCB` in every trigger state:
the new index, all cursors zero, `INIT`; the ring and everything published are kept. -/
def Obligations.TimebaseChangeForcesInit : Prop :=
  ∀ s : State, s.run = true → s.req.tb ≠ s.cap.tb → flagClear s.req.flags = false →
    exec .incb s = .next
      { s with
        cap := { s.cap with tb := s.req.tb, mode := s.req.mode, index := 0, start := 0, count := 0,
                            scan := 0 }
        trig := { s.trig with state := .init }
        st := { s.st with freerun := false }
        req := { s.req with flags := 0 } }

/-- R159, R71: a clear zeroes the window of the (new) length and publishes it, in every trigger
state; the words above the length are kept. -/
def Obligations.ClearZeroesAndPublishesTheWindow : Prop :=
  ∀ s : State, s.run = true → flagClear s.req.flags = true → ∃ t, exec .incb s = .next t ∧
    (∀ a, t.cap.ring.read a =
      if a < Config.cfg.count s.req.tb then Config.cfg.num.dec32 0 else s.cap.ring.read a) ∧
    t.cap.index = 0 ∧ t.cap.start = 0 ∧ t.cap.count = 0 ∧ t.cap.scan = 0 ∧
    t.trig.state = .init ∧ t.st.freerun = false ∧
    (∀ a, t.pub.cap.read a =
      if a < Config.cfg.count s.req.tb then Config.cfg.num.dec32 0 else s.pub.cap.read a) ∧
    t.pub.capLen.toNat = Config.cfg.count s.req.tb ∧ t.pub.capXscale = Config.cfg.scale s.req.tb ∧
    t.pub.capFreerun = false ∧ t.pub.capSeq = s.pub.capSeq + 1

/-- R154, R155, R157, R141: without a timebase change or a clear, `INCB` takes the detector out of
`LAST` iff the storage bit just adopted is 0 and either a rearm is requested, or a consume is
requested and the single bit just adopted is 0; in any other trigger state both requests are
dropped. -/
def Obligations.ConsumeAndRearmLeaveLast : Prop :=
  ∀ s : State, s.run = true → s.req.tb = s.cap.tb → flagClear s.req.flags = false →
    exec .incb s = .next
      (if s.trig.state = .last ∧ modeStorage s.req.mode = false ∧
          (flagRearm s.req.flags = true ∨
            (flagConsume s.req.flags = true ∧ modeSingle s.req.mode = false))
       then
        { s with
          cap := { s.cap with mode := s.req.mode, count := 0, scan := 0 }
          trig := { s.trig with state := .init }
          st := { s.st with freerun := false }
          req := { s.req with flags := 0 } }
       else
        { s with cap := { s.cap with mode := s.req.mode }, req := { s.req with flags := 0 } })

/-! ## Invariants and whole-machine rules -/

/-- R24, R25, R27, R28, R30, R60, R161: the invariant holds right after reset, and after a `RESET` in
any state. That every array is in canonical form is no rule of the spec but the model's choice of how
an array is written down (DEDUCED, log 10). -/
def Obligations.InvariantHoldsAtReset : Prop :=
  Inv State.reset ∧ ∀ s t : State, exec .reset s = .next t → Inv t

/-- R24, R25, R27, R28, R30, R60, R161: every step keeps the invariant: the timebase indices stay
below 12, the cursors below the length, the detector is never seen in `NEXT`, a filled window's index
is back at its start, `OVERRUN` stays 0, the spectrum counters stay in range, the published length
stays between 1 and the capacity, and every array stays within its capacity. That every array also
stays in canonical form is no rule of the spec: that form is the model's choice of how an array is
written down (DEDUCED, log 10). -/
def Obligations.EveryStepKeepsTheInvariant : Prop :=
  ∀ s t : State, Inv s → step s = .next t → Inv t

/-- R162: every change of the trigger state is one of the table's. -/
def Obligations.TriggerTransitionTable : Prop :=
  ∀ (i : Instr) (s t : State), Inv s → exec i s = .next t → t.trig.state ≠ s.trig.state →
    (∃ d, i = .inf d ∧ s.run = true ∧ s.trig.state = .init ∧
      qualifies Config.cfg (Config.cfg.num.dec32 d) s = true ∧
      t.trig.state = if Config.cfg.count s.cap.tb = 1 then .last else .first) ∨
    (∃ d, i = .inf d ∧ s.run = true ∧ s.trig.state = .first ∧
      s.cap.count.toNat + 1 = Config.cfg.count s.cap.tb ∧ t.trig.state = .last) ∨
    (i = .incb ∧ s.run = true ∧ t.trig.state = .init ∧
      (s.req.tb ≠ s.cap.tb ∨ flagClear s.req.flags = true ∨
        (s.trig.state = .last ∧ modeStorage s.req.mode = false ∧
          (flagRearm s.req.flags = true ∨
            (flagConsume s.req.flags = true ∧ modeSingle s.req.mode = false))))) ∨
    (i = .start ∧ s.run = false ∧ t.trig.state = .init) ∨
    (i = .reset ∧ t.trig.state = .init)

/-- R132, R68: through any operations but `INCB`, `START` and `RESET` the active mode and timebase
are constant and no request bit is consumed. -/
def Obligations.ModeAndTimebaseConstantBetweenCallbacks : Prop :=
  ∀ (is : List Instr) (s t : State),
    (∀ i ∈ is, i ≠ .incb ∧ i ≠ .start ∧ i ≠ .reset) → execAll is s = .next t →
    t.cap.mode = s.cap.mode ∧ t.cap.tb = s.cap.tb ∧ s.req.flags &&& t.req.flags = s.req.flags

/-- R70, R75, R222: apart from `START` and `RESET`, the published window and what describes it
change only in an `INF` or `INCB` that advances `CAP_SEQ` by one, and the published spectrum and
readout only in an `INF` that advances `SPEC_SEQ` by one. -/
def Obligations.PublishedStateChangesOnlyByPublication : Prop :=
  ∀ (i : Instr) (s t : State), exec i s = .next t → i ≠ .start → i ≠ .reset →
    ((t.pub.cap = s.pub.cap ∧ t.pub.capLen = s.pub.capLen ∧ t.pub.capXscale = s.pub.capXscale ∧
        t.pub.capFreerun = s.pub.capFreerun ∧ t.pub.capSeq = s.pub.capSeq) ∨
      (t.pub.capSeq = s.pub.capSeq + 1 ∧ ((∃ d, i = .inf d) ∨ i = .incb))) ∧
    ((t.pub.spec = s.pub.spec ∧ t.pub.freq = s.pub.freq ∧ t.pub.level = s.pub.level ∧
        t.pub.specSeq = s.pub.specSeq) ∨
      (t.pub.specSeq = s.pub.specSeq + 1 ∧ ∃ d, i = .inf d))

/-- R31, R233: a sticky flag that is set is cleared only by a `STATUS` write with its bit, by an
effective `START` and by `RESET`. -/
def Obligations.StickyFlagsStaySet : Prop :=
  ∀ (i : Instr) (s t : State), exec i s = .next t →
    let clearedBy := fun bit : Nat =>
      i = .reset ∨ (i = .start ∧ s.run = false) ∨
        ∃ data : Word, i = .regw 0x00#8 data ∧ data.getLsbD bit = true
    (s.st.cfgerr = true → t.st.cfgerr = false → clearedBy 1) ∧
    (s.st.overrun = true → t.st.overrun = false → clearedBy 2) ∧
    (s.st.buserr = true → t.st.buserr = false → clearedBy 3)

/-- R231: what sets each sticky flag: the table of errors. -/
def Obligations.FlagsAreSetOnlyByTheirCauses : Prop :=
  ∀ (i : Instr) (s t : State), exec i s = .next t →
    (s.st.cfgerr = false → t.st.cfgerr = true → ∃ data : Word,
      (i = .regw 0x01#8 data ∧ ¬ (finitePattern data = true ∧
        Config.cfg.num.le Config.cfg.kToneFreqMin (Config.cfg.num.dec32 data) = true ∧
        Config.cfg.num.le (Config.cfg.num.dec32 data) Config.cfg.kToneFreqMax = true)) ∨
      (i = .regw 0x02#8 data ∧ ¬ (finitePattern data = true ∧
        Config.cfg.num.le 0 (Config.cfg.num.dec32 data) = true ∧
        Config.cfg.num.le (Config.cfg.num.dec32 data) Config.cfg.kToneAmpMax = true)) ∨
      (i = .regw 0x05#8 data ∧ 12 ≤ data.toNat)) ∧
    (s.st.overrun = false → t.st.overrun = true → (∃ d, i = .inf d) ∧ ¬ Inv s) ∧
    (s.st.buserr = false → t.st.buserr = true →
      (∃ (ra : RegAddr) (data : Word), i = .regw ra data ∧
        (ra.toNat = 3 ∨ ra.toNat = 4 ∨ 9 ≤ ra.toNat)) ∨
      (∃ ra : RegAddr, i = .regr ra ∧ 0x11 ≤ ra.toNat) ∨
      (∃ addr : Word, i = .rdcap addr ∧ s.pub.capLen.toNat ≤ addr.toNat) ∨
      (∃ addr : Word, i = .rdspec addr ∧ 2048 ≤ addr.toNat))

/-- R67: `OUTF` commutes with an adjacent `INF` or `INCB`: neither the final state nor the response
changes. -/
def Obligations.OutfCommutesWithTheInputPath : Prop :=
  ∀ s : State,
    (∀ d : Word, execAll [.outf, .inf d] s = execAll [.inf d, .outf] s) ∧
    execAll [.outf, .incb] s = execAll [.incb, .outf] s

/-- R22, R23: who writes `run` and the tone generator's state. -/
def Obligations.RunAndToneStateHaveTheirWriters : Prop :=
  ∀ (i : Instr) (s t : State), exec i s = .next t →
    (t.run ≠ s.run → i = .start ∨ i = .stop ∨ i = .reset) ∧
    (t.tone.freq ≠ s.tone.freq → i = .reset ∨ ∃ data : Word, i = .regw 0x01#8 data) ∧
    (t.tone.amp ≠ s.tone.amp → i = .reset ∨ ∃ data : Word, i = .regw 0x02#8 data) ∧
    (t.tone.phase ≠ s.tone.phase → i = .outf ∨ i = .start ∨ i = .reset) ∧
    (t.tone.count ≠ s.tone.count → i = .outf ∨ i = .start ∨ i = .reset)

/-! ## Host access -/

/-- R202: a `STATUS` write clears the sticky flags whose written bit is 1 and nothing else. -/
def Obligations.RegwStatusClearsTheWrittenFlags : Prop :=
  ∀ (data : Word) (s : State), exec (.regw 0x00#8 data) s = .next
    { s with st :=
      { cfgerr := if data.getLsbD 1 then false else s.st.cfgerr
        overrun := if data.getLsbD 2 then false else s.st.overrun
        buserr := if data.getLsbD 3 then false else s.st.buserr
        freerun := s.st.freerun } }

/-- R34: `TONE_FREQ` takes a finite value within its bounds and otherwise keeps the old one and
raises `ConfigError`; a read gives it back (in `resp`, log 7); the reset value 0 Hz is held
unchecked. -/
def Obligations.RegwToneFreqIsChecked : Prop :=
  let c := Config.cfg
  (∀ (data : Word) (s : State), exec (.regw 0x01#8 data) s = .next
    (if finitePattern data = true ∧ c.num.le c.kToneFreqMin (c.num.dec32 data) = true ∧
        c.num.le (c.num.dec32 data) c.kToneFreqMax = true
     then { s with tone := { s.tone with freq := c.num.dec32 data } }
     else { s with st := { s.st with cfgerr := true } })) ∧
  (∀ s : State, exec (.regr 0x01#8) s = .next { s with resp := some (c.num.enc32 s.tone.freq) }) ∧
  State.reset.tone.freq = c.num.dec32 0

/-- R35: `TONE_AMP` takes a finite value between 0 and `kToneAmpMax` (1.0 of R7, which the model
reads as NUM's constant 1: log 16) and otherwise keeps the old one and raises `ConfigError`; a read
gives it back (in `resp`, log 7). -/
def Obligations.RegwToneAmpIsChecked : Prop :=
  let c := Config.cfg
  (∀ (data : Word) (s : State), exec (.regw 0x02#8 data) s = .next
    (if finitePattern data = true ∧ c.num.le 0 (c.num.dec32 data) = true ∧
        c.num.le (c.num.dec32 data) c.kToneAmpMax = true
     then { s with tone := { s.tone with amp := c.num.dec32 data } }
     else { s with st := { s.st with cfgerr := true } })) ∧
  (∀ s : State, exec (.regr 0x02#8) s = .next { s with resp := some (c.num.enc32 s.tone.amp) })

/-- R36: `TIMEBASE` takes an index below 12, compared on all 32 bits, and otherwise keeps the old
one and raises `ConfigError`; a read gives the pending index (in `resp`, log 7), which is the active one
after the next effective `INCB`. -/
def Obligations.RegwTimebaseIsChecked : Prop :=
  (∀ (data : Word) (s : State), data.toNat < 12 → exec (.regw 0x05#8 data) s = .next
    { s with req := { s.req with tb := data.extractLsb' 0 4 } }) ∧
  (∀ (data : Word) (s : State), 12 ≤ data.toNat →
    exec (.regw 0x05#8 data) s = .next { s with st := { s.st with cfgerr := true } }) ∧
  (∀ s : State, exec (.regr 0x05#8) s = .next { s with resp := some (s.req.tb.setWidth 32) }) ∧
  (∀ s t : State, s.run = true → exec .incb s = .next t → t.cap.tb = s.req.tb)

/-- R37, R206: a `MODE` write takes bits 4:0 and raises nothing; a read gives them back with the
other bits zero (in `resp`, log 7). -/
def Obligations.RegwModeTakesFiveBits : Prop :=
  (∀ (data : Word) (s : State), exec (.regw 0x06#8 data) s = .next
    { s with req := { s.req with mode := data.extractLsb' 0 5 } }) ∧
  (∀ s : State, exec (.regr 0x06#8) s = .next { s with resp := some (s.req.mode.setWidth 32) })

/-- R38: `REQ` bits are set by writing 1 and are cleared only by an effective `INCB`, by an
effective `START` and by `RESET`; a read gives them back (in `resp`, log 7). -/
def Obligations.RegwReqAccumulates : Prop :=
  (∀ (data : Word) (s : State), exec (.regw 0x07#8 data) s = .next
    { s with req := { s.req with flags := s.req.flags ||| data.extractLsb' 0 3 } }) ∧
  (∀ s : State, exec (.regr 0x07#8) s = .next { s with resp := some (s.req.flags.setWidth 32) }) ∧
  (∀ (i : Instr) (s t : State) (bit : Nat), exec i s = .next t → s.req.flags.getLsbD bit = true →
    t.req.flags.getLsbD bit = false →
    (i = .incb ∧ s.run = true) ∨ (i = .start ∧ s.run = false) ∨ i = .reset)

/-- R39: `YSCALE` stores all 32 bits unchecked, a read gives them back (in `resp`, log 7), `START`
keeps it, its reset value is 0, and no operation but its own read depends on it. -/
def Obligations.YscaleIsStoredAndReadByNothing : Prop :=
  (∀ (data : Word) (s : State), exec (.regw 0x08#8 data) s = .next { s with yscale := data }) ∧
  (∀ s : State, exec (.regr 0x08#8) s = .next { s with resp := some s.yscale }) ∧
  State.reset.yscale = 0 ∧
  (∀ (i : Instr) (s t : State) (v : Word), i ≠ .reset → i ≠ .regr 0x08#8 →
    (∀ data, i ≠ .regw 0x08#8 data) → exec i s = .next t →
    t.yscale = s.yscale ∧ exec i { s with yscale := v } = .next { t with yscale := v })

/-- R209: a write of a read-only or unmapped address raises `BusError` and changes no register. -/
def Obligations.RegwReadOnlyOrUnmappedIsBusError : Prop :=
  ∀ (ra : RegAddr) (data : Word) (s : State),
    (ra.toNat = 3 ∨ ra.toNat = 4 ∨ 9 ≤ ra.toNat) →
    exec (.regw ra data) s = .next { s with st := { s.st with buserr := true } }

/-- R201, R32, R40: a read of a mapped register answers the value it holds; only `RD_FREQ` changes
state, latching the published level; an unmapped address answers 0 and raises `BusError` (the answer
in `resp`, log 7). -/
def Obligations.RegrReturnsTheHeldValue : Prop :=
  let n := Config.cfg.num
  (∀ s : State,
    (∀ (ra : RegAddr) (v : Word),
      (ra, v) ∈ [(0x00#8, statusWord s.run s.st s.trig.state),
        (0x01#8, n.enc32 s.tone.freq), (0x02#8, n.enc32 s.tone.amp), (0x03#8, s.tone.count),
        (0x04#8, n.enc32 s.tone.phase), (0x05#8, s.req.tb.setWidth 32),
        (0x06#8, s.req.mode.setWidth 32), (0x07#8, s.req.flags.setWidth 32), (0x08#8, s.yscale),
        (0x0A#8, n.enc32 s.pub.levelShadow), (0x0B#8, n.enc32 s.meter.level),
        (0x0C#8, s.pub.capSeq), (0x0D#8, s.pub.capLen.setWidth 32),
        (0x0E#8, n.enc32 s.pub.capXscale), (0x0F#8, if s.pub.capFreerun then 1#32 else 0#32),
        (0x10#8, s.pub.specSeq)] →
      exec (.regr ra) s = .next { s with resp := some v }) ∧
    exec (.regr 0x09#8) s = .next
      { s with pub := { s.pub with levelShadow := s.pub.level },
               resp := some (n.enc32 s.pub.freq) }) ∧
  (∀ (ra : RegAddr) (s : State), 0x11 ≤ ra.toNat → exec (.regr ra) s = .next
    { s with st := { s.st with buserr := true }, resp := some 0x00000000#32 })

/-- R33: the bits of the `STATUS` word. -/
def Obligations.StatusWordHasItsBits : Prop :=
  ∀ (run : Bool) (st : Status) (trig : TrigState) (k : Nat),
    (statusWord run st trig).getLsbD k =
      if k = 0 then run
      else if k = 1 then st.cfgerr
      else if k = 2 then st.overrun
      else if k = 3 then st.buserr
      else if k = 4 then st.freerun
      else if k = 8 then decide (trig = .first ∨ trig = .last)
      else if k = 9 then decide (trig = .next ∨ trig = .last)
      else false

/-- R214: after a read of `RD_FREQ`, whatever happens before the next `RD_FREQ`, `START` or `RESET`,
`RD_LEVEL` answers the level that was published with that frequency (the answer in `resp`, log 7). -/
def Obligations.ReadoutPairWasPublishedTogether : Prop :=
  ∀ (is : List Instr) (s t : State),
    (∀ i ∈ is, i ≠ .regr 0x09#8 ∧ i ≠ .start ∧ i ≠ .reset) →
    execAll (.regr 0x09#8 :: is) s = .next t →
    exec (.regr 0x0A#8) t = .next { t with resp := some (Config.cfg.num.enc32 s.pub.level) }

/-- R220: `RDCAP` answers the word of the published window, or 0 with `BusError` at the length of
the published window and above (the answer in `resp`, log 7). -/
def Obligations.RdcapReadsThePublishedWindow : Prop :=
  ∀ (addr : Word) (s : State), exec (.rdcap addr) s = .next
    (if addr.toNat < s.pub.capLen.toNat
     then { s with resp := some (Config.cfg.num.enc32 (s.pub.cap.read addr.toNat)) }
     else { s with st := { s.st with buserr := true }, resp := some 0x00000000#32 })

/-- R221: `RDSPEC` answers the magnitude of the bin, or 0 with `BusError` at 2048 and above (the answer
in `resp`, log 7). -/
def Obligations.RdspecReadsThePublishedSpectrum : Prop :=
  ∀ (addr : Word) (s : State), exec (.rdspec addr) s = .next
    (if addr.toNat < 2048
     then { s with resp := some (Config.cfg.num.enc32 (s.pub.spec.read addr.toNat)) }
     else { s with st := { s.st with buserr := true }, resp := some 0x00000000#32 })

/-! ## The level meter over time -/

/-- R29, R194: under a NUM with the order law L3 all of whose values are finite, every operation
keeps the level within `[kMeterMin, kMeterMax]`, and it is there after reset. -/
def Obligations.MeterLevelStaysInRange : Prop :=
  ∀ c : Cfg Q, c.num.LawOrder → (∀ x, c.num.finite x = true) →
    let inRange := fun s : State =>
      c.num.le c.kMeterMin s.meter.level = true ∧ c.num.le s.meter.level c.kMeterMax = true
    inRange (State.resetOf c) ∧
    ∀ (i : Instr) (s t : State), inRange s → execUnder c i s = .next t → inRange t

/-- R192: in `NUM_REAL`, for an instantaneous amplitude `v` in the meter's range and a level in the
range, one frame multiplies the distance to `v` by one minus the smoothing constant and keeps its
sign, so the level approaches `v` and never passes it. -/
def Obligations.MeterApproachesWithoutOvershoot : Prop :=
  ∀ (u : Word → ℝ) (c : Cfg ℝ) (x level : ℝ), c.num = numReal u →
    c.kMeterMin ≤ |x| → |x| ≤ c.kMeterMax → c.kMeterMin ≤ level → level ≤ c.kMeterMax →
    let alpha := if level < |x| then c.kMeterAttack else c.kMeterDecay
    |x| - meterNext c level x = (1 - alpha) * (|x| - level) ∧ 0 ≤ 1 - alpha ∧ 1 - alpha < 1

/-- R193: in `NUM_REAL`, after `n` silent frames the level is
`max(kMeterMin, (1 - kMeterDecay)^n * level_0)`. -/
def Obligations.MeterDecaysOnSilence : Prop :=
  ∀ (u : Word → ℝ) (c : Cfg ℝ) (level : ℝ) (n : Nat), c.num = numReal u →
    c.kMeterMin ≤ level → level ≤ c.kMeterMax →
    (fun l => meterNext c l 0)^[n] level = max c.kMeterMin ((1 - c.kMeterDecay) ^ n * level)
end

