-- ==== Sys2Proof/Laws/Memory.lean ====
section
/-! SUPPORT. The laws of the arrays: what a read gives after a write or a prefix overwrite, and that
every operation keeps the canonical form and the capacity. -/

namespace Sys2Proof.Machine

/-! ## Reads -/

@[simp] theorem Memory.read_nil (a : Nat) : Memory.read [] a = 0 := rfl

@[simp] theorem Memory.read_cons (b : Nat) (v : Q) (m : Memory) (a : Nat) :
    Memory.read ((b, v) :: m) a = if b = a then v else Memory.read m a := rfl

theorem Memory.read_eq_zero_of_notin {m : Memory} {a : Nat} (h : ∀ p ∈ m, p.1 ≠ a) :
    m.read a = 0 := by
  induction m with
  | nil => rfl
  | cons p m ih =>
    obtain ⟨b, v⟩ := p
    have hb : b ≠ a := h (b, v) (by simp)
    simp only [Memory.read_cons, if_neg hb]
    exact ih (fun q hq => h q (by simp [hq]))

theorem Memory.read_append (m n : Memory) (a : Nat) :
    Memory.read (m ++ n) a = if (∃ p ∈ m, p.1 = a) then m.read a else n.read a := by
  induction m with
  | nil => simp
  | cons p m ih =>
    obtain ⟨b, v⟩ := p
    by_cases hb : b = a
    · simp [hb]
    · simp only [List.cons_append, Memory.read_cons, hb, ih, List.mem_cons, exists_eq_or_imp,
        false_or, if_false]

theorem Memory.read_filter (m : Memory) (p : Nat → Bool) (a : Nat) :
    Memory.read (m.filter (fun q => p q.1)) a = if p a then m.read a else 0 := by
  induction m with
  | nil => simp
  | cons q m ih =>
    obtain ⟨b, v⟩ := q
    by_cases hb : b = a
    · subst hb
      by_cases hp : p b <;> simp [hp, ih]
    · by_cases hp : p b <;> simp [hp, hb, ih]

theorem Memory.read_insert (m : Memory) (a : Nat) (v : Q) (h : ∀ p ∈ m, p.1 ≠ a) (b : Nat) :
    (Memory.insert a v m).read b = if a = b then v else m.read b := by
  induction m with
  | nil => simp [Memory.insert]
  | cons q m ih =>
    obtain ⟨d, w⟩ := q
    have hd : d ≠ a := h (d, w) (by simp)
    have ih := ih (fun q hq => h q (by simp [hq]))
    unfold Memory.insert
    split
    · simp
    · by_cases hdb : d = b
      · have : a ≠ b := fun e => hd (hdb.trans e.symm)
        simp [hdb, this]
      · simp [hdb, ih]

/-- A read after a write: the value written at that address, the old word elsewhere. -/
theorem Memory.read_write (m : Memory) (a : Nat) (v : Q) (b : Nat) :
    (m.write a v).read b = if b = a then v else m.read b := by
  have hf := Memory.read_filter m (fun q => q != a) b
  unfold Memory.write
  by_cases hv : v = 0
  · simp only [hv, if_true]
    rw [hf]
    by_cases hb : b = a <;> simp [hb]
  · simp only [hv, if_false]
    rw [Memory.read_insert _ _ _ (by simp), hf]
    by_cases hb : b = a
    · simp [hb]
    · have : a ≠ b := fun e => hb e.symm
      simp [hb, this]

theorem Memory.mem_tabulate {n : Nat} {f : Nat → Q} {p : Nat × Q} :
    p ∈ Memory.tabulate n f ↔ p.1 < n ∧ p.2 = f p.1 ∧ p.2 ≠ 0 := by
  obtain ⟨a, v⟩ := p
  simp only [Memory.tabulate, List.mem_filterMap, List.mem_range]
  constructor
  · rintro ⟨i, hi, h⟩
    by_cases hv : f i = 0
    · simp [hv] at h
    · simp only [hv, if_false, Option.some.injEq, Prod.mk.injEq] at h
      obtain ⟨rfl, rfl⟩ := h
      exact ⟨hi, rfl, hv⟩
  · rintro ⟨h1, h2, h3⟩
    refine ⟨a, h1, ?_⟩
    subst h2
    simp [h3]

theorem Memory.tabulate_succ (n : Nat) (f : Nat → Q) :
    Memory.tabulate (n + 1) f =
      Memory.tabulate n f ++ (if f n = 0 then [] else [(n, f n)]) := by
  unfold Memory.tabulate
  rw [List.range_succ, List.filterMap_append]
  congr 1
  by_cases h : f n = 0 <;> simp [h]

theorem Memory.read_tabulate (n : Nat) (f : Nat → Q) (a : Nat) :
    (Memory.tabulate n f).read a = if a < n then f a else 0 := by
  induction n with
  | zero => simp [Memory.tabulate]
  | succ n ih =>
    rw [Memory.tabulate_succ, Memory.read_append, ih]
    by_cases ha : a < n
    · by_cases hex : ∃ p ∈ Memory.tabulate n f, p.1 = a
      · simp [hex, ha, Nat.lt_succ_of_lt ha]
      · have hz : f a = 0 := by
          by_contra hne
          exact hex ⟨(a, f a), Memory.mem_tabulate.2 ⟨ha, rfl, hne⟩, rfl⟩
        have hna : n ≠ a := by omega
        rw [if_neg hex, if_pos (Nat.lt_succ_of_lt ha), hz]
        by_cases h : f n = 0 <;> simp [h, hna]
    · have hex : ¬ ∃ p ∈ Memory.tabulate n f, p.1 = a := by
        rintro ⟨p, hp, rfl⟩
        exact ha (Memory.mem_tabulate.1 hp).1
      rw [if_neg hex]
      by_cases hn : n = a
      · subst hn
        by_cases h : f n = 0 <;> simp [h]
      · have : ¬ a < n + 1 := by omega
        by_cases h : f n = 0 <;> simp [h, hn, this]

/-- A read after the loop `m[i] <- f i`, `i < n`. -/
theorem Memory.read_setPrefix (m : Memory) (n : Nat) (f : Nat → Q) (a : Nat) :
    (m.setPrefix n f).read a = if a < n then f a else m.read a := by
  have hf := Memory.read_filter m (fun q => decide (n ≤ q)) a
  unfold Memory.setPrefix
  rw [Memory.read_append, Memory.read_tabulate]
  by_cases ha : a < n
  · simp only [ha, if_true]
    split
    · rfl
    · rename_i hex
      rw [hf]
      have hz : f a = 0 := by
        by_contra hne
        exact hex ⟨(a, f a), Memory.mem_tabulate.2 ⟨ha, rfl, hne⟩, rfl⟩
      simp [hz, Nat.not_le.2 ha]
  · have hex : ¬ ∃ p ∈ Memory.tabulate n f, p.1 = a := by
      rintro ⟨p, hp, rfl⟩
      exact ha (Memory.mem_tabulate.1 hp).1
    rw [if_neg hex, hf]
    simp [ha, Nat.not_lt.1 ha]

/-! ## The canonical form -/

/-- The canonical form as one statement: rising addresses and no zero entry. -/
theorem Memory.wf_iff (m : Memory) :
    m.wf = true ↔ m.Pairwise (fun p q => p.1 < q.1) ∧ ∀ p ∈ m, p.2 ≠ 0 := by
  induction m with
  | nil => simp [Memory.wf]
  | cons p m ih =>
    obtain ⟨a, v⟩ := p
    cases m with
    | nil => simp [Memory.wf]
    | cons q m =>
      obtain ⟨b, w⟩ := q
      rw [Memory.wf, Bool.and_eq_true, Bool.and_eq_true, ih]
      simp only [bne_iff_ne, decide_eq_true_eq]
      rw [List.pairwise_cons (a := (a, v))]
      constructor
      · rintro ⟨⟨hv, hab⟩, hp, hz⟩
        refine ⟨⟨?_, hp⟩, ?_⟩
        · intro r hr
          rcases List.mem_cons.1 hr with rfl | hr
          · exact hab
          · exact hab.trans ((List.pairwise_cons.1 hp).1 r hr)
        · intro r hr
          rcases List.mem_cons.1 hr with rfl | hr
          · exact hv
          · exact hz r hr
      · rintro ⟨⟨hlt, hp⟩, hz⟩
        exact ⟨⟨hz (a, v) (by simp), hlt (b, w) (by simp)⟩, hp,
          fun r hr => hz r (List.mem_cons_of_mem _ hr)⟩

theorem Memory.mem_insert {a : Nat} {v : Q} {m : Memory} {p : Nat × Q} :
    p ∈ Memory.insert a v m ↔ p = (a, v) ∨ p ∈ m := by
  induction m with
  | nil => simp [Memory.insert]
  | cons q m ih =>
    obtain ⟨b, w⟩ := q
    unfold Memory.insert
    split
    · simp
    · simp only [List.mem_cons, ih]; tauto

theorem Memory.insert_pairwise {a : Nat} {v : Q} {m : Memory}
    (h : m.Pairwise (fun p q => p.1 < q.1)) (ha : ∀ p ∈ m, p.1 ≠ a) :
    (Memory.insert a v m).Pairwise (fun p q => p.1 < q.1) := by
  induction m with
  | nil => simp [Memory.insert]
  | cons q m ih =>
    obtain ⟨b, w⟩ := q
    obtain ⟨hb, hm⟩ := List.pairwise_cons.1 h
    unfold Memory.insert
    split
    · rename_i hab
      refine List.pairwise_cons.2 ⟨?_, h⟩
      intro r hr
      rcases List.mem_cons.1 hr with rfl | hr
      · exact hab
      · exact hab.trans (hb r hr)
    · rename_i hab
      refine List.pairwise_cons.2 ⟨?_, ih hm (fun p hp => ha p (by simp [hp]))⟩
      intro r hr
      rcases Memory.mem_insert.1 hr with rfl | hr
      · have := ha (b, w) (by simp)
        simp only at this ⊢
        omega
      · exact hb r hr

/-- A write keeps the canonical form. -/
theorem Memory.write_wf {m : Memory} (a : Nat) (v : Q) (h : m.wf = true) :
    (m.write a v).wf = true := by
  rw [Memory.wf_iff] at h ⊢
  have hf := h.1.filter (fun p => p.1 != a)
  unfold Memory.write
  by_cases hv : v = 0
  · simp only [hv, if_true]
    exact ⟨hf, fun p hp => h.2 p (List.mem_filter.1 hp).1⟩
  · simp only [hv, if_false]
    refine ⟨Memory.insert_pairwise hf (by simp), ?_⟩
    intro p hp
    rcases Memory.mem_insert.1 hp with rfl | hp
    · exact hv
    · exact h.2 p (List.mem_filter.1 hp).1

theorem Memory.tabulate_pairwise (n : Nat) (f : Nat → Q) :
    (Memory.tabulate n f).Pairwise (fun p q => p.1 < q.1) := by
  induction n with
  | zero => simp [Memory.tabulate]
  | succ n ih =>
    rw [Memory.tabulate_succ, List.pairwise_append]
    refine ⟨ih, by split <;> simp, ?_⟩
    intro p hp q hq
    have := (Memory.mem_tabulate.1 hp).1
    split at hq
    · simp at hq
    · simp at hq; subst hq; exact this

/-- A prefix overwrite keeps the canonical form. -/
theorem Memory.setPrefix_wf {m : Memory} (n : Nat) (f : Nat → Q) (h : m.wf = true) :
    (m.setPrefix n f).wf = true := by
  unfold Memory.setPrefix
  rw [Memory.wf_iff] at h ⊢
  refine ⟨List.pairwise_append.2 ⟨Memory.tabulate_pairwise n f, h.1.filter _, ?_⟩, ?_⟩
  · intro p hp q hq
    have h1 := (Memory.mem_tabulate.1 hp).1
    have h2 := (List.mem_filter.1 hq).2
    simp only [decide_eq_true_eq] at h2
    omega
  · intro p hp
    rcases List.mem_append.1 hp with hp | hp
    · exact (Memory.mem_tabulate.1 hp).2.2
    · exact h.2 p (List.mem_filter.1 hp).1

/-! ## Capacity -/

theorem Memory.below_iff {n : Nat} {m : Memory} :
    m.below n = true ↔ ∀ p ∈ m, p.1 < n := by
  simp [Memory.below, List.all_eq_true]

/-- A write inside the capacity keeps the array inside it. -/
theorem Memory.write_below {n : Nat} {m : Memory} {a : Nat} (v : Q) (h : m.below n = true)
    (ha : a < n) : (m.write a v).below n = true := by
  rw [Memory.below_iff] at h ⊢
  intro p hp
  unfold Memory.write at hp
  by_cases hv : v = 0
  · simp only [hv, if_true] at hp
    exact h p (List.mem_filter.1 hp).1
  · simp only [hv, if_false] at hp
    rcases Memory.mem_insert.1 hp with rfl | hp
    · exact ha
    · exact h p (List.mem_filter.1 hp).1

/-- A prefix overwrite inside the capacity keeps the array inside it. -/
theorem Memory.setPrefix_below {n k : Nat} {m : Memory} (f : Nat → Q) (h : m.below n = true)
    (hk : k ≤ n) : (m.setPrefix k f).below n = true := by
  unfold Memory.setPrefix
  rw [Memory.below_iff] at h ⊢
  intro p hp
  rcases List.mem_append.1 hp with hp | hp
  · exact (Memory.mem_tabulate.1 hp).1.trans_le hk
  · exact h p (List.mem_filter.1 hp).1

/-- An array in canonical form that reads as zero everywhere is empty: equal contents are equal
data. -/
theorem Memory.eq_nil_of_read_zero {m : Memory} (h : m.wf = true) (hz : ∀ a, m.read a = 0) :
    m = [] := by
  cases m with
  | nil => rfl
  | cons p m =>
    obtain ⟨a, v⟩ := p
    have hv := ((Memory.wf_iff _).1 h).2 (a, v) (by simp)
    have := hz a
    simp at this
    exact absurd this hv

end Sys2Proof.Machine
end

