-- ==== Sys2Proof/Laws/State.lean ====
section
/-! SUPPORT. What each update of the state leaves in each field: one lemma per field per update. -/

namespace Sys2Proof.Machine

section
variable (s : State) (v : Bool)

@[simp] theorem State.withRun_run : (s.withRun v).run = v := rfl
@[simp] theorem State.withRun_tone : (s.withRun v).tone = s.tone := rfl
@[simp] theorem State.withRun_cap : (s.withRun v).cap = s.cap := rfl
@[simp] theorem State.withRun_trig : (s.withRun v).trig = s.trig := rfl
@[simp] theorem State.withRun_req : (s.withRun v).req = s.req := rfl
@[simp] theorem State.withRun_yscale : (s.withRun v).yscale = s.yscale := rfl
@[simp] theorem State.withRun_spec : (s.withRun v).spec = s.spec := rfl
@[simp] theorem State.withRun_meter : (s.withRun v).meter = s.meter := rfl
@[simp] theorem State.withRun_pub : (s.withRun v).pub = s.pub := rfl
@[simp] theorem State.withRun_st : (s.withRun v).st = s.st := rfl
@[simp] theorem State.withRun_resp : (s.withRun v).resp = s.resp := rfl
@[simp] theorem State.withRun_ops : (s.withRun v).ops = s.ops := rfl

end

section
variable (s : State) (v : Tone)

@[simp] theorem State.withTone_run : (s.withTone v).run = s.run := rfl
@[simp] theorem State.withTone_tone : (s.withTone v).tone = v := rfl
@[simp] theorem State.withTone_cap : (s.withTone v).cap = s.cap := rfl
@[simp] theorem State.withTone_trig : (s.withTone v).trig = s.trig := rfl
@[simp] theorem State.withTone_req : (s.withTone v).req = s.req := rfl
@[simp] theorem State.withTone_yscale : (s.withTone v).yscale = s.yscale := rfl
@[simp] theorem State.withTone_spec : (s.withTone v).spec = s.spec := rfl
@[simp] theorem State.withTone_meter : (s.withTone v).meter = s.meter := rfl
@[simp] theorem State.withTone_pub : (s.withTone v).pub = s.pub := rfl
@[simp] theorem State.withTone_st : (s.withTone v).st = s.st := rfl
@[simp] theorem State.withTone_resp : (s.withTone v).resp = s.resp := rfl
@[simp] theorem State.withTone_ops : (s.withTone v).ops = s.ops := rfl

end

section
variable (s : State) (v : Cap)

@[simp] theorem State.withCap_run : (s.withCap v).run = s.run := rfl
@[simp] theorem State.withCap_tone : (s.withCap v).tone = s.tone := rfl
@[simp] theorem State.withCap_cap : (s.withCap v).cap = v := rfl
@[simp] theorem State.withCap_trig : (s.withCap v).trig = s.trig := rfl
@[simp] theorem State.withCap_req : (s.withCap v).req = s.req := rfl
@[simp] theorem State.withCap_yscale : (s.withCap v).yscale = s.yscale := rfl
@[simp] theorem State.withCap_spec : (s.withCap v).spec = s.spec := rfl
@[simp] theorem State.withCap_meter : (s.withCap v).meter = s.meter := rfl
@[simp] theorem State.withCap_pub : (s.withCap v).pub = s.pub := rfl
@[simp] theorem State.withCap_st : (s.withCap v).st = s.st := rfl
@[simp] theorem State.withCap_resp : (s.withCap v).resp = s.resp := rfl
@[simp] theorem State.withCap_ops : (s.withCap v).ops = s.ops := rfl

end

section
variable (s : State) (v : Trig)

@[simp] theorem State.withTrig_run : (s.withTrig v).run = s.run := rfl
@[simp] theorem State.withTrig_tone : (s.withTrig v).tone = s.tone := rfl
@[simp] theorem State.withTrig_cap : (s.withTrig v).cap = s.cap := rfl
@[simp] theorem State.withTrig_trig : (s.withTrig v).trig = v := rfl
@[simp] theorem State.withTrig_req : (s.withTrig v).req = s.req := rfl
@[simp] theorem State.withTrig_yscale : (s.withTrig v).yscale = s.yscale := rfl
@[simp] theorem State.withTrig_spec : (s.withTrig v).spec = s.spec := rfl
@[simp] theorem State.withTrig_meter : (s.withTrig v).meter = s.meter := rfl
@[simp] theorem State.withTrig_pub : (s.withTrig v).pub = s.pub := rfl
@[simp] theorem State.withTrig_st : (s.withTrig v).st = s.st := rfl
@[simp] theorem State.withTrig_resp : (s.withTrig v).resp = s.resp := rfl
@[simp] theorem State.withTrig_ops : (s.withTrig v).ops = s.ops := rfl

end

section
variable (s : State) (v : Req)

@[simp] theorem State.withReq_run : (s.withReq v).run = s.run := rfl
@[simp] theorem State.withReq_tone : (s.withReq v).tone = s.tone := rfl
@[simp] theorem State.withReq_cap : (s.withReq v).cap = s.cap := rfl
@[simp] theorem State.withReq_trig : (s.withReq v).trig = s.trig := rfl
@[simp] theorem State.withReq_req : (s.withReq v).req = v := rfl
@[simp] theorem State.withReq_yscale : (s.withReq v).yscale = s.yscale := rfl
@[simp] theorem State.withReq_spec : (s.withReq v).spec = s.spec := rfl
@[simp] theorem State.withReq_meter : (s.withReq v).meter = s.meter := rfl
@[simp] theorem State.withReq_pub : (s.withReq v).pub = s.pub := rfl
@[simp] theorem State.withReq_st : (s.withReq v).st = s.st := rfl
@[simp] theorem State.withReq_resp : (s.withReq v).resp = s.resp := rfl
@[simp] theorem State.withReq_ops : (s.withReq v).ops = s.ops := rfl

end

section
variable (s : State) (v : Word)

@[simp] theorem State.withYscale_run : (s.withYscale v).run = s.run := rfl
@[simp] theorem State.withYscale_tone : (s.withYscale v).tone = s.tone := rfl
@[simp] theorem State.withYscale_cap : (s.withYscale v).cap = s.cap := rfl
@[simp] theorem State.withYscale_trig : (s.withYscale v).trig = s.trig := rfl
@[simp] theorem State.withYscale_req : (s.withYscale v).req = s.req := rfl
@[simp] theorem State.withYscale_yscale : (s.withYscale v).yscale = v := rfl
@[simp] theorem State.withYscale_spec : (s.withYscale v).spec = s.spec := rfl
@[simp] theorem State.withYscale_meter : (s.withYscale v).meter = s.meter := rfl
@[simp] theorem State.withYscale_pub : (s.withYscale v).pub = s.pub := rfl
@[simp] theorem State.withYscale_st : (s.withYscale v).st = s.st := rfl
@[simp] theorem State.withYscale_resp : (s.withYscale v).resp = s.resp := rfl
@[simp] theorem State.withYscale_ops : (s.withYscale v).ops = s.ops := rfl

end

section
variable (s : State) (v : Spec)

@[simp] theorem State.withSpec_run : (s.withSpec v).run = s.run := rfl
@[simp] theorem State.withSpec_tone : (s.withSpec v).tone = s.tone := rfl
@[simp] theorem State.withSpec_cap : (s.withSpec v).cap = s.cap := rfl
@[simp] theorem State.withSpec_trig : (s.withSpec v).trig = s.trig := rfl
@[simp] theorem State.withSpec_req : (s.withSpec v).req = s.req := rfl
@[simp] theorem State.withSpec_yscale : (s.withSpec v).yscale = s.yscale := rfl
@[simp] theorem State.withSpec_spec : (s.withSpec v).spec = v := rfl
@[simp] theorem State.withSpec_meter : (s.withSpec v).meter = s.meter := rfl
@[simp] theorem State.withSpec_pub : (s.withSpec v).pub = s.pub := rfl
@[simp] theorem State.withSpec_st : (s.withSpec v).st = s.st := rfl
@[simp] theorem State.withSpec_resp : (s.withSpec v).resp = s.resp := rfl
@[simp] theorem State.withSpec_ops : (s.withSpec v).ops = s.ops := rfl

end

section
variable (s : State) (v : Meter)

@[simp] theorem State.withMeter_run : (s.withMeter v).run = s.run := rfl
@[simp] theorem State.withMeter_tone : (s.withMeter v).tone = s.tone := rfl
@[simp] theorem State.withMeter_cap : (s.withMeter v).cap = s.cap := rfl
@[simp] theorem State.withMeter_trig : (s.withMeter v).trig = s.trig := rfl
@[simp] theorem State.withMeter_req : (s.withMeter v).req = s.req := rfl
@[simp] theorem State.withMeter_yscale : (s.withMeter v).yscale = s.yscale := rfl
@[simp] theorem State.withMeter_spec : (s.withMeter v).spec = s.spec := rfl
@[simp] theorem State.withMeter_meter : (s.withMeter v).meter = v := rfl
@[simp] theorem State.withMeter_pub : (s.withMeter v).pub = s.pub := rfl
@[simp] theorem State.withMeter_st : (s.withMeter v).st = s.st := rfl
@[simp] theorem State.withMeter_resp : (s.withMeter v).resp = s.resp := rfl
@[simp] theorem State.withMeter_ops : (s.withMeter v).ops = s.ops := rfl

end

section
variable (s : State) (v : Pub)

@[simp] theorem State.withPub_run : (s.withPub v).run = s.run := rfl
@[simp] theorem State.withPub_tone : (s.withPub v).tone = s.tone := rfl
@[simp] theorem State.withPub_cap : (s.withPub v).cap = s.cap := rfl
@[simp] theorem State.withPub_trig : (s.withPub v).trig = s.trig := rfl
@[simp] theorem State.withPub_req : (s.withPub v).req = s.req := rfl
@[simp] theorem State.withPub_yscale : (s.withPub v).yscale = s.yscale := rfl
@[simp] theorem State.withPub_spec : (s.withPub v).spec = s.spec := rfl
@[simp] theorem State.withPub_meter : (s.withPub v).meter = s.meter := rfl
@[simp] theorem State.withPub_pub : (s.withPub v).pub = v := rfl
@[simp] theorem State.withPub_st : (s.withPub v).st = s.st := rfl
@[simp] theorem State.withPub_resp : (s.withPub v).resp = s.resp := rfl
@[simp] theorem State.withPub_ops : (s.withPub v).ops = s.ops := rfl

end

section
variable (s : State) (v : Status)

@[simp] theorem State.withSt_run : (s.withSt v).run = s.run := rfl
@[simp] theorem State.withSt_tone : (s.withSt v).tone = s.tone := rfl
@[simp] theorem State.withSt_cap : (s.withSt v).cap = s.cap := rfl
@[simp] theorem State.withSt_trig : (s.withSt v).trig = s.trig := rfl
@[simp] theorem State.withSt_req : (s.withSt v).req = s.req := rfl
@[simp] theorem State.withSt_yscale : (s.withSt v).yscale = s.yscale := rfl
@[simp] theorem State.withSt_spec : (s.withSt v).spec = s.spec := rfl
@[simp] theorem State.withSt_meter : (s.withSt v).meter = s.meter := rfl
@[simp] theorem State.withSt_pub : (s.withSt v).pub = s.pub := rfl
@[simp] theorem State.withSt_st : (s.withSt v).st = v := rfl
@[simp] theorem State.withSt_resp : (s.withSt v).resp = s.resp := rfl
@[simp] theorem State.withSt_ops : (s.withSt v).ops = s.ops := rfl

end

section
variable (s : State) (v : Option Word)

@[simp] theorem State.withResp_run : (s.withResp v).run = s.run := rfl
@[simp] theorem State.withResp_tone : (s.withResp v).tone = s.tone := rfl
@[simp] theorem State.withResp_cap : (s.withResp v).cap = s.cap := rfl
@[simp] theorem State.withResp_trig : (s.withResp v).trig = s.trig := rfl
@[simp] theorem State.withResp_req : (s.withResp v).req = s.req := rfl
@[simp] theorem State.withResp_yscale : (s.withResp v).yscale = s.yscale := rfl
@[simp] theorem State.withResp_spec : (s.withResp v).spec = s.spec := rfl
@[simp] theorem State.withResp_meter : (s.withResp v).meter = s.meter := rfl
@[simp] theorem State.withResp_pub : (s.withResp v).pub = s.pub := rfl
@[simp] theorem State.withResp_st : (s.withResp v).st = s.st := rfl
@[simp] theorem State.withResp_resp : (s.withResp v).resp = v := rfl
@[simp] theorem State.withResp_ops : (s.withResp v).ops = s.ops := rfl

end

section
variable (s : State) (v : List OpWord)

@[simp] theorem State.withOps_run : (s.withOps v).run = s.run := rfl
@[simp] theorem State.withOps_tone : (s.withOps v).tone = s.tone := rfl
@[simp] theorem State.withOps_cap : (s.withOps v).cap = s.cap := rfl
@[simp] theorem State.withOps_trig : (s.withOps v).trig = s.trig := rfl
@[simp] theorem State.withOps_req : (s.withOps v).req = s.req := rfl
@[simp] theorem State.withOps_yscale : (s.withOps v).yscale = s.yscale := rfl
@[simp] theorem State.withOps_spec : (s.withOps v).spec = s.spec := rfl
@[simp] theorem State.withOps_meter : (s.withOps v).meter = s.meter := rfl
@[simp] theorem State.withOps_pub : (s.withOps v).pub = s.pub := rfl
@[simp] theorem State.withOps_st : (s.withOps v).st = s.st := rfl
@[simp] theorem State.withOps_resp : (s.withOps v).resp = s.resp := rfl
@[simp] theorem State.withOps_ops : (s.withOps v).ops = v := rfl

end

section
variable (s : State) (v : Word)

@[simp] theorem State.respond_run : (s.respond v).run = s.run := rfl
@[simp] theorem State.respond_tone : (s.respond v).tone = s.tone := rfl
@[simp] theorem State.respond_cap : (s.respond v).cap = s.cap := rfl
@[simp] theorem State.respond_trig : (s.respond v).trig = s.trig := rfl
@[simp] theorem State.respond_req : (s.respond v).req = s.req := rfl
@[simp] theorem State.respond_yscale : (s.respond v).yscale = s.yscale := rfl
@[simp] theorem State.respond_spec : (s.respond v).spec = s.spec := rfl
@[simp] theorem State.respond_meter : (s.respond v).meter = s.meter := rfl
@[simp] theorem State.respond_pub : (s.respond v).pub = s.pub := rfl
@[simp] theorem State.respond_st : (s.respond v).st = s.st := rfl
@[simp] theorem State.respond_resp : (s.respond v).resp = some v := rfl
@[simp] theorem State.respond_ops : (s.respond v).ops = s.ops := rfl

end

/-- Two states with the same fields are the same state. -/
theorem State.ext_fields {s t : State} (h1 : s.run = t.run) (h2 : s.tone = t.tone)
    (h3 : s.cap = t.cap) (h4 : s.trig = t.trig) (h5 : s.req = t.req) (h6 : s.yscale = t.yscale)
    (h7 : s.spec = t.spec) (h8 : s.meter = t.meter) (h9 : s.pub = t.pub) (h10 : s.st = t.st)
    (h11 : s.resp = t.resp) (h12 : s.ops = t.ops) : s = t := by
  cases s; cases t; simp_all

end Sys2Proof.Machine
end

