-- ==== Sys2Proof/Laws/Ops.lean ====
section
/-! SUPPORT. What the shared operations over the state can do: entering `INIT`, raising an error, a
STATUS write; the index a TIMEBASE write selects; the length of the window. -/

namespace Sys2Proof.Machine

variable (s : State)

/-! ## enterInit (R143) -/

@[simp] theorem enterInit_run : (enterInit s).run = s.run := rfl
@[simp] theorem enterInit_tone : (enterInit s).tone = s.tone := rfl
@[simp] theorem enterInit_req : (enterInit s).req = s.req := rfl
@[simp] theorem enterInit_yscale : (enterInit s).yscale = s.yscale := rfl
@[simp] theorem enterInit_spec : (enterInit s).spec = s.spec := rfl
@[simp] theorem enterInit_meter : (enterInit s).meter = s.meter := rfl
@[simp] theorem enterInit_pub : (enterInit s).pub = s.pub := rfl
@[simp] theorem enterInit_resp : (enterInit s).resp = s.resp := rfl
@[simp] theorem enterInit_ops : (enterInit s).ops = s.ops := rfl
@[simp] theorem enterInit_trig : (enterInit s).trig = { state := .init, prev := s.trig.prev } := rfl
@[simp] theorem enterInit_cap :
    (enterInit s).cap = { s.cap with scan := 0, count := 0 } := rfl
@[simp] theorem enterInit_st : (enterInit s).st = { s.st with freerun := false } := rfl

/-- Entering `INIT` twice is entering it once. -/
theorem enterInit_enterInit : enterInit (enterInit s) = enterInit s := rfl

/-! ## raise (R232, R234) and acknowledge (R233) -/

@[simp] theorem raise_config : raise .config s = s.withSt { s.st with cfgerr := true } := rfl
@[simp] theorem raise_bus : raise .bus s = s.withSt { s.st with buserr := true } := rfl
@[simp] theorem raise_overrun :
    raise .overrun s = enterInit (s.withSt { s.st with overrun := true }) := rfl

/-- Everything raising an error can do: its own sticky flag is set, the other two sticky flags are
kept, and all else but the recovery of `OverrunError` is untouched. -/
theorem raise_effect (e : ErrorKind) :
    ((raise e s).st.cfgerr = if e = .config then true else s.st.cfgerr) ∧
    ((raise e s).st.overrun = if e = .overrun then true else s.st.overrun) ∧
    ((raise e s).st.buserr = if e = .bus then true else s.st.buserr) ∧
    (e ≠ .overrun → raise e s = s.withSt (raise e s).st ∧ (raise e s).st.freerun = s.st.freerun) := by
  cases e <;> simp [State.withSt]

@[simp] theorem acknowledge_eq (data : Word) :
    acknowledge data s = s.withSt (clearSticky data s.st) := rfl

/-- Everything a STATUS write can do to the flags (R202). -/
theorem clearSticky_effect (data : Word) (st : Status) :
    (clearSticky data st).cfgerr = (st.cfgerr && !data.getLsbD 1) ∧
    (clearSticky data st).overrun = (st.overrun && !data.getLsbD 2) ∧
    (clearSticky data st).buserr = (st.buserr && !data.getLsbD 3) ∧
    (clearSticky data st).freerun = st.freerun := ⟨rfl, rfl, rfl, rfl⟩

/-! ## The index a TIMEBASE write selects (R36, R205) -/

/-- An accepted write selects the number written: bits 3:0 of it lose nothing. -/
theorem timebaseIndex_some {d : Word} {i : BitVec 4} (h : timebaseIndex d = some i) :
    i = d.extractLsb' 0 4 ∧ i.toNat = d.toNat ∧ i.toNat < tbEntries := by
  unfold timebaseIndex at h
  split at h
  · rename_i hd
    injection h with h
    subst h
    have hi : (d.extractLsb' 0 4).toNat = d.toNat := by
      rw [BitVec.extractLsb'_toNat, Nat.shiftRight_zero]
      exact Nat.mod_eq_of_lt (Nat.lt_trans hd (by decide))
    exact ⟨rfl, hi, hi ▸ hd⟩
  · cases h

theorem timebaseIndex_of_lt {d : Word} (h : d.toNat < tbEntries) :
    timebaseIndex d = some (d.extractLsb' 0 4) := if_pos h

theorem timebaseIndex_of_ge {d : Word} (h : tbEntries ≤ d.toNat) : timebaseIndex d = none :=
  if_neg (Nat.not_lt.mpr h)

/-! ## length -/

variable (c : Cfg Q)

/-- `length` is the count of the active timebase entry. -/
theorem length_eq : length c s = c.count s.cap.tb := rfl

/-- `length` depends on the active timebase index alone. -/
theorem length_congr {s t : State} (h : s.cap.tb = t.cap.tb) : length c s = length c t := by
  rw [length_eq, length_eq, h]

theorem count_pos (i : BitVec 4) : 0 < c.count i := by
  unfold Cfg.count
  split
  · exact Nat.pow_pos (by decide)
  · exact Nat.succ_pos _

theorem count_le_capacity (i : BitVec 4) : c.count i ≤ capacity := by
  unfold Cfg.count
  split
  · exact Nat.pow_le_pow_right (by decide) (Nat.le_of_lt_succ (Fin.isLt _))
  · exact (c.beyondCount i).isLt

/-- An index below 12 names an entry of the table, and its count is a power of two (R7, R8). -/
theorem count_of_lt {i : BitVec 4} (h : i.toNat < tbEntries) :
    c.count i = 2 ^ (c.tableCountLog ⟨i.toNat, h⟩).val := by
  simp [Cfg.count, tableEntry, h]

theorem scale_of_lt {i : BitVec 4} (h : i.toNat < tbEntries) :
    c.scale i = c.tableScale ⟨i.toNat, h⟩ := by
  simp [Cfg.scale, tableEntry, h]

theorem length_pos : 0 < length c s := count_pos c s.cap.tb

theorem length_le_capacity : length c s ≤ capacity := count_le_capacity c s.cap.tb

@[simp] theorem length_withRun (v : Bool) : length c (s.withRun v) = length c s := rfl
@[simp] theorem length_withTone (v : Tone) : length c (s.withTone v) = length c s := rfl
@[simp] theorem length_withCap (v : Cap) : length c (s.withCap v) = c.count v.tb := rfl
@[simp] theorem length_withTrig (v : Trig) : length c (s.withTrig v) = length c s := rfl
@[simp] theorem length_withReq (v : Req) : length c (s.withReq v) = length c s := rfl
@[simp] theorem length_withYscale (v : Word) : length c (s.withYscale v) = length c s := rfl
@[simp] theorem length_withSpec (v : Spec) : length c (s.withSpec v) = length c s := rfl
@[simp] theorem length_withMeter (v : Meter) : length c (s.withMeter v) = length c s := rfl
@[simp] theorem length_withPub (v : Pub) : length c (s.withPub v) = length c s := rfl
@[simp] theorem length_withSt (v : Status) : length c (s.withSt v) = length c s := rfl
@[simp] theorem length_withResp (v : Option Word) : length c (s.withResp v) = length c s := rfl
@[simp] theorem length_withOps (v : List OpWord) : length c (s.withOps v) = length c s := rfl
@[simp] theorem length_enterInit : length c (enterInit s) = length c s := rfl

end Sys2Proof.Machine
end

