-- ==== Sys2Proof/Laws/Capture.lean ====
section
/-! SUPPORT. What each building block of the capture and trigger unit can do, and the frame they
share: everything outside the capture group, the trigger state, the published window and the two
flags `overrun` and `freerun` is left alone. -/

namespace Sys2Proof.Machine

/-- The frame of the capture unit: `t` differs from `s` at most in `cap.ring`, `cap.index`,
`cap.start`, `cap.count`, `cap.scan`, `trig.state`, the published window, `st.overrun` and
`st.freerun`. -/
structure CaptureFrame (s t : State) : Prop where
  run : t.run = s.run
  tone : t.tone = s.tone
  tb : t.cap.tb = s.cap.tb
  mode : t.cap.mode = s.cap.mode
  prev : t.trig.prev = s.trig.prev
  req : t.req = s.req
  yscale : t.yscale = s.yscale
  spec : t.spec = s.spec
  meter : t.meter = s.meter
  pubSpec : t.pub.spec = s.pub.spec
  specSeq : t.pub.specSeq = s.pub.specSeq
  freq : t.pub.freq = s.pub.freq
  level : t.pub.level = s.pub.level
  shadow : t.pub.levelShadow = s.pub.levelShadow
  cfgerr : t.st.cfgerr = s.st.cfgerr
  buserr : t.st.buserr = s.st.buserr
  resp : t.resp = s.resp
  ops : t.ops = s.ops

theorem CaptureFrame.refl (s : State) : CaptureFrame s s := by constructor <;> rfl

theorem CaptureFrame.trans {s t u : State} (h : CaptureFrame s t) (k : CaptureFrame t u) :
    CaptureFrame s u where
  run := k.run.trans h.run
  tone := k.tone.trans h.tone
  tb := k.tb.trans h.tb
  mode := k.mode.trans h.mode
  prev := k.prev.trans h.prev
  req := k.req.trans h.req
  yscale := k.yscale.trans h.yscale
  spec := k.spec.trans h.spec
  meter := k.meter.trans h.meter
  pubSpec := k.pubSpec.trans h.pubSpec
  specSeq := k.specSeq.trans h.specSeq
  freq := k.freq.trans h.freq
  level := k.level.trans h.level
  shadow := k.shadow.trans h.shadow
  cfgerr := k.cfgerr.trans h.cfgerr
  buserr := k.buserr.trans h.buserr
  resp := k.resp.trans h.resp
  ops := k.ops.trans h.ops

variable (c : Cfg Q) (x : Q) (s : State)

/-! ## ringWrite (R144) -/

/-- Everything `RingWrite` can do: the ring and the write index. -/
theorem ringWrite_eq : ringWrite c x s = s.withCap { s.cap with
    ring := s.cap.ring.write s.cap.index.toNat x
    index := BitVec.ofNat 18 ((s.cap.index.toNat + 1) % length c s) } := rfl

theorem ringWrite_frame : CaptureFrame s (ringWrite c x s) := by constructor <;> rfl

@[simp] theorem length_ringWrite : length c (ringWrite c x s) = length c s := rfl

/-- The word stored by `RingWrite`, and every other word of the ring. -/
theorem ringWrite_read (a : Nat) :
    (ringWrite c x s).cap.ring.read a =
      if a = s.cap.index.toNat then x else s.cap.ring.read a := by
  simp [ringWrite_eq, Memory.read_write]

/-- The write index after `RingWrite`, as a number: it stays below `length`. -/
theorem ringWrite_index :
    (ringWrite c x s).cap.index.toNat = (s.cap.index.toNat + 1) % length c s := by
  have h1 := Nat.mod_lt (s.cap.index.toNat + 1) (length_pos s c)
  have h2 := length_le_capacity s c
  unfold capacity at h2
  rw [ringWrite_eq]
  simp only [State.withCap_cap, BitVec.toNat_ofNat]
  exact Nat.mod_eq_of_lt (by omega)

/-! ## publishCapture (R71) -/

theorem publishCapture_frame (base : Nat) (fr : Bool) :
    CaptureFrame s (publishCapture c base fr s) := by constructor <;> rfl

@[simp] theorem publishCapture_cap (base : Nat) (fr : Bool) :
    (publishCapture c base fr s).cap = s.cap := rfl
@[simp] theorem publishCapture_trig (base : Nat) (fr : Bool) :
    (publishCapture c base fr s).trig = s.trig := rfl
@[simp] theorem publishCapture_st (base : Nat) (fr : Bool) :
    (publishCapture c base fr s).st = s.st := rfl
@[simp] theorem length_publishCapture (base : Nat) (fr : Bool) :
    length c (publishCapture c base fr s) = length c s := rfl

/-- The published window after a publication: `length` words of the ring from `base` on, and the
words above kept. -/
theorem publishCapture_read (base : Nat) (fr : Bool) (a : Nat) :
    (publishCapture c base fr s).pub.cap.read a =
      if a < length c s then s.cap.ring.read ((base + a) % length c s) else s.pub.cap.read a := by
  simp [publishCapture, Memory.read_setPrefix]

/-- The published length as a number. -/
theorem publishCapture_capLen (base : Nat) (fr : Bool) :
    (publishCapture c base fr s).pub.capLen.toNat = length c s := by
  have h2 := length_le_capacity s c
  unfold capacity at h2
  simp only [publishCapture, State.withPub_pub, BitVec.toNat_ofNat]
  exact Nat.mod_eq_of_lt (by omega)

@[simp] theorem publishCapture_capSeq (base : Nat) (fr : Bool) :
    (publishCapture c base fr s).pub.capSeq = s.pub.capSeq + 1 := rfl
@[simp] theorem publishCapture_capFreerun (base : Nat) (fr : Bool) :
    (publishCapture c base fr s).pub.capFreerun = fr := rfl
@[simp] theorem publishCapture_capXscale (base : Nat) (fr : Bool) :
    (publishCapture c base fr s).pub.capXscale = c.scale s.cap.tb := rfl

/-! ## settle (R152, R153) -/

theorem enterInit_frame : CaptureFrame s (enterInit s) := by constructor <;> rfl

/-- `Settle` when the check of `NEXT` holds: the window is published and `LAST` entered. -/
theorem settle_of_check (h : s.cap.index = s.cap.start ∧ s.cap.count.toNat = length c s) :
    settle c s = publishCapture c s.cap.start.toNat false
      (s.withTrig { s.trig with state := .last }) := by
  simp only [settle]
  rw [if_pos (by exact h)]
  rfl

/-- `Settle` when the check of `NEXT` fails: `OverrunError` (R234). -/
theorem settle_of_not_check (h : ¬ (s.cap.index = s.cap.start ∧ s.cap.count.toNat = length c s)) :
    settle c s = enterInit (s.withSt { s.st with overrun := true }) := by
  simp only [settle]
  rw [if_neg (by exact h)]
  rfl

theorem settle_frame : CaptureFrame s (settle c s) := by
  by_cases h : s.cap.index = s.cap.start ∧ s.cap.count.toNat = length c s
  · rw [settle_of_check c s h]
    exact CaptureFrame.trans (t := s.withTrig { s.trig with state := .last })
      (by constructor <;> rfl) (publishCapture_frame ..)
  · rw [settle_of_not_check c s h]
    constructor <;> rfl

theorem settleIfFull_frame : CaptureFrame s (settleIfFull c s) := by
  unfold settleIfFull
  split
  · exact settle_frame c s
  · exact CaptureFrame.refl s

/-! ## The steps of the detector -/

theorem initEdge_frame : CaptureFrame s (initEdge c x s) := by
  unfold initEdge
  refine CaptureFrame.trans ?_ (settleIfFull_frame c _)
  constructor <;> rfl

theorem freeRun_frame : CaptureFrame s (freeRun c s) := by constructor <;> rfl

theorem initScan_frame : CaptureFrame s (initScan c x s) := by
  unfold initScan
  dsimp only
  split
  · refine CaptureFrame.trans ?_ (freeRun_frame c _)
    constructor <;> rfl
  · constructor <;> rfl

theorem firstFill_frame : CaptureFrame s (firstFill c x s) := by
  unfold firstFill
  refine CaptureFrame.trans ?_ (settleIfFull_frame c _)
  constructor <;> rfl

theorem captureStep_init_edge (h : s.trig.state = .init) (q : qualifies c x s = true) :
    captureStep c x s = initEdge c x s := by simp [captureStep, h, q]

theorem captureStep_init_scan (h : s.trig.state = .init) (q : qualifies c x s = false) :
    captureStep c x s = initScan c x s := by simp [captureStep, h, q]

theorem captureStep_first (h : s.trig.state = .first) :
    captureStep c x s = firstFill c x s := by simp [captureStep, h]

theorem captureStep_next (h : s.trig.state = .next) :
    captureStep c x s = settle c s := by simp [captureStep, h]

theorem captureStep_last (h : s.trig.state = .last) : captureStep c x s = s := by
  simp [captureStep, h]

/-- Everything `CaptureStep` can do, by the state it starts in (R146). -/
theorem captureStep_cases :
    (s.trig.state = .init ∧ qualifies c x s = true ∧ captureStep c x s = initEdge c x s) ∨
    (s.trig.state = .init ∧ qualifies c x s = false ∧ captureStep c x s = initScan c x s) ∨
    (s.trig.state = .first ∧ captureStep c x s = firstFill c x s) ∨
    (s.trig.state = .next ∧ captureStep c x s = settle c s) ∨
    (s.trig.state = .last ∧ captureStep c x s = s) := by
  rcases h : s.trig.state
  · cases q : qualifies c x s
    · exact .inr (.inl ⟨rfl, rfl, captureStep_init_scan c x s h q⟩)
    · exact .inl ⟨rfl, rfl, captureStep_init_edge c x s h q⟩
  · exact .inr (.inr (.inl ⟨rfl, captureStep_first c x s h⟩))
  · exact .inr (.inr (.inr (.inl ⟨rfl, captureStep_next c x s h⟩)))
  · exact .inr (.inr (.inr (.inr ⟨rfl, captureStep_last c x s h⟩)))

/-- `CaptureStep` leaves everything outside its frame alone. -/
theorem captureStep_frame : CaptureFrame s (captureStep c x s) := by
  rcases captureStep_cases c x s with ⟨_, _, h⟩ | ⟨_, _, h⟩ | ⟨_, h⟩ | ⟨_, h⟩ | ⟨_, h⟩ <;> rw [h]
  · exact initEdge_frame c x s
  · exact initScan_frame c x s
  · exact firstFill_frame c x s
  · exact settle_frame c s
  · exact CaptureFrame.refl s

@[simp] theorem length_captureStep : length c (captureStep c x s) = length c s :=
  length_congr c (captureStep_frame c x s).tb

/-! ## Request procedures (R154 to R159) -/

/-- `Consume` leaves the state alone or enters `INIT` from `LAST`. -/
theorem consume_cases :
    consume s = s ∨ (s.trig.state = .last ∧ modeSingle s.cap.mode = false ∧
      modeStorage s.cap.mode = false ∧ consume s = enterInit s) := by
  unfold consume
  split
  · rename_i h; exact .inr ⟨h.1, h.2.1, h.2.2, rfl⟩
  · exact .inl rfl

/-- `Rearm` leaves the state alone or enters `INIT` from `LAST`. -/
theorem rearm_cases :
    rearm s = s ∨ (s.trig.state = .last ∧ modeStorage s.cap.mode = false ∧
      rearm s = enterInit s) := by
  unfold rearm
  split
  · rename_i h; exact .inr ⟨h.1, h.2, rfl⟩
  · exact .inl rfl

theorem consume_frame : CaptureFrame s (consume s) := by
  rcases consume_cases s with h | ⟨_, _, _, h⟩ <;> rw [h]
  · exact CaptureFrame.refl s
  · exact enterInit_frame s

theorem rearm_frame : CaptureFrame s (rearm s) := by
  rcases rearm_cases s with h | ⟨_, _, h⟩ <;> rw [h]
  · exact CaptureFrame.refl s
  · exact enterInit_frame s

theorem clearCapture_frame : CaptureFrame s (clearCapture c s) := by constructor <;> rfl

/-- `TimebaseChange` writes the capture cursors, the trigger state and `st.freerun`; the ring and
everything published are kept (R158). -/
theorem timebaseChange_eq (i : BitVec 4) : timebaseChange i s =
    ((s.withCap { s.cap with tb := i, index := 0, start := 0, count := 0, scan := 0 }).withTrig
      { s.trig with state := .init }).withSt { s.st with freerun := false } := rfl

end Sys2Proof.Machine
end

