-- ==== Sys2Proof/Laws/Decode.lean ====
section
/-! SUPPORT. The fields of an assembled operation word (R90). -/

namespace Sys2Proof

section
variable (op : BitVec 8) (ra : RegAddr) (data : Word)

/-- Every bit of an assembled word, by the field it stands in. -/
theorem getLsbD_assemble (k : Nat) : (assemble op ra data).getLsbD k =
    if k < 32 then data.getLsbD k else if k < 48 then false
    else if k < 56 then ra.getLsbD (k - 48) else op.getLsbD (k - 56) := by
  have h : (assemble op ra data).getLsbD k =
    (op ++ ra ++ 0#16 ++ data : BitVec (8 + 8 + 16 + 32)).getLsbD k := rfl
  rw [h, BitVec.getLsbD_append, BitVec.getLsbD_append, BitVec.getLsbD_append]
  by_cases h1 : k < 32
  · simp [h1]
  · by_cases h2 : k < 48
    · have : k - 32 < 16 := by omega
      simp [h1, h2, this]
    · by_cases h3 : k < 56
      · have a : ¬ k - 32 < 16 := by omega
        have e : k - 32 - 16 = k - 48 := by omega
        simp [h1, h2, h3, a, e]
        intro; omega
      · have a : ¬ k - 32 < 16 := by omega
        have b : ¬ k - 32 - 16 < 8 := by omega
        have e : k - 32 - 16 - 8 = k - 56 := by omega
        simp [h1, h2, h3, a, b, e]

@[simp] theorem opField_assemble : opField (assemble op ra data) = op := by
  apply BitVec.eq_of_getLsbD_eq
  intro k hk
  unfold opField
  rw [BitVec.getLsbD_extractLsb', getLsbD_assemble]
  have h1 : ¬ 56 + k < 32 := by omega
  have h2 : ¬ 56 + k < 48 := by omega
  have h3 : ¬ 56 + k < 56 := by omega
  simp [h1, h2, hk]

@[simp] theorem raField_assemble : raField (assemble op ra data) = ra := by
  apply BitVec.eq_of_getLsbD_eq
  intro k hk
  unfold raField
  rw [BitVec.getLsbD_extractLsb', getLsbD_assemble]
  have h1 : ¬ 48 + k < 32 := by omega
  have h3 : 48 + k < 56 := by omega
  simp [h1, h3, hk]

@[simp] theorem zField_assemble : zField (assemble op ra data) = 0#16 := by
  apply BitVec.eq_of_getLsbD_eq
  intro k hk
  unfold zField
  rw [BitVec.getLsbD_extractLsb', getLsbD_assemble]
  have h1 : ¬ 32 + k < 32 := by omega
  have h2 : 32 + k < 48 := by omega
  simp [h2]

@[simp] theorem dataField_assemble : dataField (assemble op ra data) = data := by
  apply BitVec.eq_of_getLsbD_eq
  intro k hk
  unfold dataField
  rw [BitVec.getLsbD_extractLsb', getLsbD_assemble]
  simp [hk]

end

/-- Everything `checkReserved` can do: it accepts exactly the words whose reserved fields are
zero. -/
theorem checkReserved_ok {w : OpWord} {usesRa usesData : Bool} {i j : Instr} :
    checkReserved w usesRa usesData i = .ok j ↔
      j = i ∧ zField w = 0#16 ∧ (usesRa = false → raField w = 0#8) ∧
        (usesData = false → dataField w = 0#32) := by
  unfold checkReserved
  by_cases h1 : zField w = 0#16
  · by_cases h2 : usesRa = false ∧ raField w ≠ 0#8
    · simp [h1, h2]
    · by_cases h3 : usesData = false ∧ dataField w ≠ 0#32
      · simp [h1, h2, h3]
      · simp only [h1, h2, h3, ne_eq, not_true_eq_false, if_false, Except.ok.injEq, true_and]
        constructor
        · rintro rfl
          exact ⟨rfl, fun e => by_contra fun n => h2 ⟨e, n⟩, fun e => by_contra fun n => h3 ⟨e, n⟩⟩
        · rintro ⟨rfl, _, _⟩; rfl
  · simp [h1]

end Sys2Proof
end

