-- ==== Sys2Proof/Laws/Spectrum.lean ====
section
/-! SUPPORT. What the spectrum analyzer, the level meter and the tone generator can do. -/

namespace Sys2Proof.Machine

/-- The frame of the analyzer: `t` differs from `s` at most in `spec.*`, `pub.spec`,
`pub.spec_seq`, `pub.freq` and `pub.level`. -/
structure SpectrumFrame (s t : State) : Prop where
  run : t.run = s.run
  tone : t.tone = s.tone
  cap : t.cap = s.cap
  trig : t.trig = s.trig
  req : t.req = s.req
  yscale : t.yscale = s.yscale
  meter : t.meter = s.meter
  pubCap : t.pub.cap = s.pub.cap
  capLen : t.pub.capLen = s.pub.capLen
  capXscale : t.pub.capXscale = s.pub.capXscale
  capFreerun : t.pub.capFreerun = s.pub.capFreerun
  capSeq : t.pub.capSeq = s.pub.capSeq
  shadow : t.pub.levelShadow = s.pub.levelShadow
  st : t.st = s.st
  resp : t.resp = s.resp
  ops : t.ops = s.ops

theorem SpectrumFrame.trans {s t u : State} (h : SpectrumFrame s t) (k : SpectrumFrame t u) :
    SpectrumFrame s u where
  run := k.run.trans h.run
  tone := k.tone.trans h.tone
  cap := k.cap.trans h.cap
  trig := k.trig.trans h.trig
  req := k.req.trans h.req
  yscale := k.yscale.trans h.yscale
  meter := k.meter.trans h.meter
  pubCap := k.pubCap.trans h.pubCap
  capLen := k.capLen.trans h.capLen
  capXscale := k.capXscale.trans h.capXscale
  capFreerun := k.capFreerun.trans h.capFreerun
  capSeq := k.capSeq.trans h.capSeq
  shadow := k.shadow.trans h.shadow
  st := k.st.trans h.st
  resp := k.resp.trans h.resp
  ops := k.ops.trans h.ops

variable (c : Cfg Q) (x : Q) (s : State)

theorem withSpec_frame (v : Spec) : SpectrumFrame s (s.withSpec v) := by constructor <;> rfl

theorem publishSpectrum_frame : SpectrumFrame s (publishSpectrum c s) := by constructor <;> rfl

@[simp] theorem publishSpectrum_spec : (publishSpectrum c s).spec = s.spec := rfl
@[simp] theorem publishSpectrum_specSeq :
    (publishSpectrum c s).pub.specSeq = s.pub.specSeq + 1 := rfl

/-- The published spectrum: the mean of the folded magnitudes (R72). -/
theorem publishSpectrum_read (k : Nat) :
    (publishSpectrum c s).pub.spec.read k =
      if k < kRange then c.num.div (s.spec.acc.read k) (c.num.ofNat kOversample)
      else s.pub.spec.read k := by
  simp [publishSpectrum, Memory.read_setPrefix]

/-- The readout pair: frequency and level of the peak bin of the spectrum just published (R72). -/
theorem publishSpectrum_readout :
    (publishSpectrum c s).pub.freq =
      c.num.binFreq (peakBin c (spectrumOf (publishSpectrum c s).pub.spec)) ∧
    (publishSpectrum c s).pub.level =
      (publishSpectrum c s).pub.spec.read (peakBin c (spectrumOf (publishSpectrum c s).pub.spec)) :=
  ⟨rfl, rfl⟩

theorem publishAndRestart_frame : SpectrumFrame s (publishAndRestart c s) := by
  constructor <;> rfl

/-- The spectrum group after a publication: accumulator cleared, cursor 0, history kept (R174). -/
theorem publishAndRestart_spec : (publishAndRestart c s).spec =
    { s.spec with acc := s.spec.acc.setPrefix kRange (fun _ => 0), slot := 0 } := rfl

theorem publishAndRestart_pub : (publishAndRestart c s).pub = (publishSpectrum c s).pub := rfl

/-- The state after the fold of a sub-window, before the test of `spec.slot` (R173). -/
def folded : State := s.withSpec { s.spec with
  acc := s.spec.acc.setPrefix kRange (foldBin c s.spec.acc (c.num.dftmag (window s)))
  slot := s.spec.slot + 1 }

/-- Everything `SubWindow` can do: fold, then publish if the cursor has come round (R173). -/
theorem subWindow_eq : subWindow c s =
    if (s.spec.slot + 1).toNat = kOversample then publishAndRestart c (folded c s)
    else folded c s := rfl

theorem subWindow_frame : SpectrumFrame s (subWindow c s) := by
  rw [subWindow_eq]
  split
  · exact (withSpec_frame s _).trans (publishAndRestart_frame c _)
  · exact withSpec_frame s _

/-- The state after the store of a sample into the history, before the test of `spec.fill`
(R171). -/
def stored : State := s.withSpec { s.spec with
  hist := s.spec.hist.write s.spec.hpos.toNat x
  hpos := BitVec.ofNat 12 ((s.spec.hpos.toNat + 1) % kSamples)
  fill := s.spec.fill + 1 }

/-- Everything `SpectrumStep` can do: store the sample, and every `kStep` samples a sub-window
(R171). -/
theorem spectrumStep_eq : spectrumStep c x s =
    if (s.spec.fill + 1).toNat = kStep then
      subWindow c ((stored x s).withSpec { (stored x s).spec with fill := 0 })
    else stored x s := rfl

/-- `SpectrumStep` leaves everything outside its frame alone. -/
theorem spectrumStep_frame : SpectrumFrame s (spectrumStep c x s) := by
  rw [spectrumStep_eq]
  split
  · exact ((withSpec_frame s _).trans (withSpec_frame _ _)).trans (subWindow_frame c _)
  · exact withSpec_frame s _

/-! ## What the analyzer reads

It reads `spec.*` and the published spectrum only, and so does not see what the capture step of the
same frame did. -/

/-- `s` and `t` agree on what the analyzer reads and writes. -/
structure SpectrumEq (s t : State) : Prop where
  spec : s.spec = t.spec
  pubSpec : s.pub.spec = t.pub.spec
  specSeq : s.pub.specSeq = t.pub.specSeq
  freq : s.pub.freq = t.pub.freq
  level : s.pub.level = t.pub.level

theorem SpectrumEq.withSpec {s t : State} (h : SpectrumEq s t) (v : Spec) :
    SpectrumEq (s.withSpec v) (t.withSpec v) :=
  ⟨rfl, h.pubSpec, h.specSeq, h.freq, h.level⟩

theorem publishSpectrum_congr {s t : State} (h : SpectrumEq s t) :
    SpectrumEq (publishSpectrum c s) (publishSpectrum c t) := by
  have hs : (publishSpectrum c s).pub.spec = (publishSpectrum c t).pub.spec := by
    simp only [publishSpectrum, State.withPub_pub, h.spec, h.pubSpec]
  refine ⟨h.spec, hs, ?_, ?_, ?_⟩
  · simp [h.specSeq]
  · rw [(publishSpectrum_readout c s).1, (publishSpectrum_readout c t).1, hs]
  · rw [(publishSpectrum_readout c s).2, (publishSpectrum_readout c t).2, hs]

theorem publishAndRestart_congr {s t : State} (h : SpectrumEq s t) :
    SpectrumEq (publishAndRestart c s) (publishAndRestart c t) := by
  have e := publishSpectrum_congr c h
  exact ⟨by rw [publishAndRestart_spec, publishAndRestart_spec, h.spec], e.pubSpec, e.specSeq,
    e.freq, e.level⟩

theorem folded_congr {s t : State} (h : SpectrumEq s t) : SpectrumEq (folded c s) (folded c t) := by
  have hw : window s = window t := by unfold window; rw [h.spec]
  have e : folded c s = s.withSpec (folded c t).spec := by
    unfold folded; rw [hw, h.spec]; rfl
  rw [e]
  exact ⟨rfl, h.pubSpec, h.specSeq, h.freq, h.level⟩

theorem subWindow_congr {s t : State} (h : SpectrumEq s t) :
    SpectrumEq (subWindow c s) (subWindow c t) := by
  rw [subWindow_eq, subWindow_eq, h.spec]
  split
  · exact publishAndRestart_congr c (folded_congr c h)
  · exact folded_congr c h

theorem stored_congr {s t : State} (h : SpectrumEq s t) : SpectrumEq (stored x s) (stored x t) := by
  have e : stored x s = s.withSpec (stored x t).spec := by unfold stored; rw [h.spec]; rfl
  rw [e]
  exact ⟨rfl, h.pubSpec, h.specSeq, h.freq, h.level⟩

theorem spectrumStep_congr {s t : State} (h : SpectrumEq s t) :
    SpectrumEq (spectrumStep c x s) (spectrumStep c x t) := by
  have e := stored_congr x h
  rw [spectrumStep_eq, spectrumStep_eq, h.spec, e.spec]
  split
  · exact subWindow_congr c (e.withSpec _)
  · exact e

/-! ## The level meter (R191) -/

/-- Everything `MeterStep` can do: the level. -/
theorem meterStep_eq : meterStep c x s = s.withMeter { level := meterNext c s.meter.level x } := rfl

/-- What `Clamp` answers: a bound, or its argument if it passes neither bound. -/
theorem clampLevel_cases {α : Type} [Zero α] (c : Cfg α) (l : α) :
    clampLevel c l = c.kMeterMin ∨ clampLevel c l = c.kMeterMax ∨
    (clampLevel c l = l ∧ c.num.lt l c.kMeterMin = false ∧ c.num.lt c.kMeterMax l = false) := by
  unfold clampLevel
  split
  · exact .inl rfl
  · split
    · exact .inr (.inl rfl)
    · rename_i h1 h2
      exact .inr (.inr ⟨rfl, by simpa using h1, by simpa using h2⟩)

/-! ## The tone generator (R121) -/

/-- `OUTF` while running. -/
theorem outputFrame_running (h : s.run = true) : outputFrame c s =
    (s.withTone { s.tone with
      phase := tonePhaseNext c.num s.tone.freq s.tone.phase
      count := s.tone.count + 1 }).respond
      (c.num.enc32 (toneSample c.num s.tone.amp s.tone.phase)) := by
  simp [outputFrame, h]

/-- `OUTF` while stopped. -/
theorem outputFrame_stopped (h : s.run = false) : outputFrame c s = s.respond 0 := by
  simp [outputFrame, h]

end Sys2Proof.Machine
end

