-- ==== Sys2Proof/Laws/Input.lean ====
section
/-! SUPPORT. What `INF` and `INCB` can do: each unit's part of an input frame, and the state a
callback boundary leaves. -/

namespace Sys2Proof.Machine

variable (c : Cfg Q) (x : Q) (s : State)

theorem inputFrame_stopped (h : s.run = false) : inputFrame c x s = s := by
  simp [inputFrame, h]

/-- `INF` while running: the three steps, then the sample is remembered (R130). -/
theorem inputFrame_running (h : s.run = true) : inputFrame c x s =
    rememberSample x (meterStep c x (spectrumStep c x (captureStep c x s))) := by
  simp [inputFrame, h]

/-- The capture group after a frame is what `CaptureStep` makes it. -/
theorem inputFrame_cap (h : s.run = true) :
    (inputFrame c x s).cap = (captureStep c x s).cap := by
  rw [inputFrame_running c x s h]
  exact (spectrumStep_frame c x _).cap

/-- The trigger after a frame: the state of `CaptureStep`, the sample remembered. -/
theorem inputFrame_trig (h : s.run = true) :
    (inputFrame c x s).trig = { state := (captureStep c x s).trig.state, prev := x } := by
  rw [inputFrame_running c x s h]
  simp [rememberSample, meterStep_eq, (spectrumStep_frame c x _).trig]

theorem inputFrame_st (h : s.run = true) : (inputFrame c x s).st = (captureStep c x s).st := by
  rw [inputFrame_running c x s h]
  exact (spectrumStep_frame c x _).st

/-- The level after a frame (R191). -/
theorem inputFrame_meter (h : s.run = true) :
    (inputFrame c x s).meter = { level := meterNext c s.meter.level x } := by
  rw [inputFrame_running c x s h]
  simp [rememberSample, meterStep_eq, (spectrumStep_frame c x _).meter,
    (captureStep_frame c x s).meter]

/-- The published window after a frame is what `CaptureStep` makes it. -/
theorem inputFrame_pubCap (h : s.run = true) :
    (inputFrame c x s).pub.cap = (captureStep c x s).pub.cap ∧
    (inputFrame c x s).pub.capLen = (captureStep c x s).pub.capLen ∧
    (inputFrame c x s).pub.capXscale = (captureStep c x s).pub.capXscale ∧
    (inputFrame c x s).pub.capFreerun = (captureStep c x s).pub.capFreerun ∧
    (inputFrame c x s).pub.capSeq = (captureStep c x s).pub.capSeq := by
  rw [inputFrame_running c x s h]
  have f := spectrumStep_frame c x (captureStep c x s)
  exact ⟨f.pubCap, f.capLen, f.capXscale, f.capFreerun, f.capSeq⟩

/-- The spectrum group and the published spectrum after a frame are what `SpectrumStep` makes them
from the state before the frame. -/
theorem inputFrame_spec (h : s.run = true) :
    (inputFrame c x s).spec = (spectrumStep c x s).spec ∧
    (inputFrame c x s).pub.spec = (spectrumStep c x s).pub.spec ∧
    (inputFrame c x s).pub.specSeq = (spectrumStep c x s).pub.specSeq ∧
    (inputFrame c x s).pub.freq = (spectrumStep c x s).pub.freq ∧
    (inputFrame c x s).pub.level = (spectrumStep c x s).pub.level := by
  rw [inputFrame_running c x s h]
  have f := captureStep_frame c x s
  have e := spectrumStep_congr c x ⟨f.spec, f.pubSpec, f.specSeq, f.freq, f.level⟩
  exact ⟨e.spec, e.pubSpec, e.specSeq, e.freq, e.level⟩

/-- What a frame leaves alone, running or stopped. -/
structure FrameFrame (s t : State) : Prop where
  run : t.run = s.run
  tone : t.tone = s.tone
  tb : t.cap.tb = s.cap.tb
  mode : t.cap.mode = s.cap.mode
  req : t.req = s.req
  yscale : t.yscale = s.yscale
  shadow : t.pub.levelShadow = s.pub.levelShadow
  cfgerr : t.st.cfgerr = s.st.cfgerr
  buserr : t.st.buserr = s.st.buserr
  resp : t.resp = s.resp
  ops : t.ops = s.ops

theorem inputFrame_frame : FrameFrame s (inputFrame c x s) := by
  cases h : s.run with
  | false => rw [inputFrame_stopped c x s h]; constructor <;> rfl
  | true =>
    have f := captureStep_frame c x s
    have g := spectrumStep_frame c x (captureStep c x s)
    rw [inputFrame_running c x s h]
    exact ⟨g.run.trans f.run, g.tone.trans f.tone, (congrArg Cap.tb g.cap).trans f.tb,
      (congrArg Cap.mode g.cap).trans f.mode, g.req.trans f.req, g.yscale.trans f.yscale,
      g.shadow.trans f.shadow, (congrArg Status.cfgerr g.st).trans f.cfgerr,
      (congrArg Status.buserr g.st).trans f.buserr, g.resp.trans f.resp, g.ops.trans f.ops⟩

@[simp] theorem length_inputFrame : length c (inputFrame c x s) = length c s :=
  length_congr c (inputFrame_frame c x s).tb

/-! ## INCB (R131) -/

theorem callbackBoundary_stopped (h : s.run = false) : callbackBoundary c s = s := by
  simp [callbackBoundary, h]

theorem callbackBoundary_running (h : s.run = true) :
    callbackBoundary c s = serveRequests c (adoptModeAndTimebase s) := by
  simp [callbackBoundary, h]

/-- Steps 1 and 2 of `INCB` without a timebase change. -/
theorem adoptModeAndTimebase_same (h : s.req.tb = s.cap.tb) :
    adoptModeAndTimebase s = s.withCap { s.cap with mode := s.req.mode } := by
  simp [adoptModeAndTimebase, h]

/-- Steps 1 and 2 of `INCB` with a timebase change. -/
theorem adoptModeAndTimebase_change (h : s.req.tb ≠ s.cap.tb) :
    adoptModeAndTimebase s =
      timebaseChange s.req.tb (s.withCap { s.cap with mode := s.req.mode }) := by
  simp [adoptModeAndTimebase, h]

/-- Steps 1 and 2 of `INCB` adopt the requested mode and timebase. -/
theorem adoptModeAndTimebase_adopts :
    (adoptModeAndTimebase s).cap.tb = s.req.tb ∧ (adoptModeAndTimebase s).cap.mode = s.req.mode ∧
    (adoptModeAndTimebase s).req = s.req := by
  by_cases h : s.req.tb = s.cap.tb
  · rw [adoptModeAndTimebase_same s h]; exact ⟨h.symm, rfl, rfl⟩
  · rw [adoptModeAndTimebase_change s h]; exact ⟨rfl, rfl, rfl⟩

theorem serveClear_frame : CaptureFrame s (serveClear c s) := by
  unfold serveClear
  split
  · exact clearCapture_frame c s
  · exact CaptureFrame.refl s

theorem serveRearm_frame : CaptureFrame s (serveRearm s) := by
  unfold serveRearm
  split
  · exact rearm_frame s
  · exact CaptureFrame.refl s

theorem serveConsume_frame : CaptureFrame s (serveConsume s) := by
  unfold serveConsume
  split
  · exact consume_frame s
  · exact CaptureFrame.refl s

/-- Steps 3 to 5 of `INCB` stay in the capture unit's frame, but for the flags they clear. -/
theorem serveRequests_frame : CaptureFrame (dropFlags s) (serveRequests c s) := by
  have h := ((serveClear_frame c s).trans (serveRearm_frame _)).trans (serveConsume_frame _)
  unfold serveRequests
  exact ⟨h.run, h.tone, h.tb, h.mode, h.prev, by simp [dropFlags, h.req], h.yscale, h.spec,
    h.meter, h.pubSpec, h.specSeq, h.freq, h.level, h.shadow, h.cfgerr, h.buserr, h.resp, h.ops⟩

end Sys2Proof.Machine
end

