-- ==== Sys2Proof/Laws/Exec.lean ====
section
/-! SUPPORT. The machine as one equation per operation, the machine under a configuration, and
sequences of operations. -/

namespace Sys2Proof.Machine

/-- The machine is the machine under `Config.cfg`. -/
theorem exec_eq_execUnder (i : Instr) (s : State) : exec i s = execUnder Config.cfg i s := by
  cases i <;> rfl

/-- An operation never faults (R268). -/
theorem exec_ne_fault (i : Instr) (s : State) (f : Fault) : exec i s ≠ .fault f := nomatch f

/-- `INF` of a finite pattern completes. -/
theorem inputSample_finite (c : Cfg Q) (d : Word) (s : State) (h : finitePattern d = true) :
    inputSample c d s = .next (inputFrame c (c.num.dec32 d) s) := by simp [inputSample, h]

/-- `INF` of a NaN or infinity pattern is refused (U1). -/
theorem inputSample_nonFinite (c : Cfg Q) (d : Word) (s : State) (h : finitePattern d = false) :
    inputSample c d s = .refused (.nonFiniteSample d) := by simp [inputSample, h]

/-- Everything an `INF` can do. -/
theorem inputSample_next {c : Cfg Q} {d : Word} {s t : State} (h : inputSample c d s = .next t) :
    finitePattern d = true ∧ t = inputFrame c (c.num.dec32 d) s := by
  unfold inputSample at h
  split at h
  · rename_i hf
    injection h with h
    exact ⟨hf, h.symm⟩
  · cases h

/-- A well-formed operation completes: there is no stuck state (R268). -/
theorem execUnder_completes (c : Cfg Q) (i : Instr) (s : State) (h : i.wellFormed = true) :
    ∃ t, execUnder c i s = .next t := by
  cases i <;> try exact ⟨_, rfl⟩
  exact ⟨_, inputSample_finite c _ s h⟩

section
variable (f : Instr → State → Host.Outcome State Fault Refusal)

@[simp] theorem runWith_nil (s : State) : runWith f [] s = .next s := rfl

theorem runWith_cons_next (i : Instr) (is : List Instr) {s t : State} (h : f i s = .next t) :
    runWith f (i :: is) s = runWith f is t := by simp [runWith, h]

/-- A sequence that completes has completed its first operation. -/
theorem runWith_cons_inv {i : Instr} {is : List Instr} {s u : State}
    (h : runWith f (i :: is) s = .next u) : ∃ t, f i s = .next t ∧ runWith f is t = .next u := by
  unfold runWith at h
  split at h
  · rename_i t ht; exact ⟨t, ht, h⟩
  · cases h
  · cases h

/-- Two sequences in a row are their concatenation. -/
theorem runWith_append (is js : List Instr) {s t : State} (h : runWith f is s = .next t) :
    runWith f (is ++ js) s = runWith f js t := by
  induction is generalizing s with
  | nil => simp only [runWith_nil, Host.Outcome.next.injEq] at h; subst h; rfl
  | cons i is ih =>
    obtain ⟨u, hu, h⟩ := runWith_cons_inv f h
    rw [List.cons_append, runWith_cons_next f i _ hu, ih h]

/-- A property that every operation of a list keeps, the whole list keeps. -/
theorem runWith_keeps {P : State → Prop} (is : List Instr)
    (hk : ∀ i ∈ is, ∀ s t, P s → f i s = .next t → P t) {s t : State} (hs : P s)
    (h : runWith f is s = .next t) : P t := by
  induction is generalizing s with
  | nil => simp only [runWith_nil, Host.Outcome.next.injEq] at h; subst h; exact hs
  | cons i is ih =>
    obtain ⟨u, hu, h⟩ := runWith_cons_inv f h
    exact ih (fun j hj => hk j (by simp [hj])) (hk i (by simp) s u hs hu) h

end

end Sys2Proof.Machine
end

