-- ==== Sys2Proof/Laws/PerInstr.lean ====
section
/-! SUPPORT. Statements about every operation as syntax, one lemma per constructor of `Instr`. -/

namespace Sys2Proof.Laws

/-- The encoding of an operation has its code and its operands in their fields, and zero in the
reserved field `z` (R90). -/
def EncodingFields.Statement (i : Instr) : Prop :=
  opField (encode i) = opcode i ∧ raField (encode i) = raOperand i ∧
  zField (encode i) = 0#16 ∧ dataField (encode i) = dataOperand i

/-- The fields of any encoding. -/
theorem encode_fields (i : Instr) : EncodingFields.Statement i :=
  ⟨opField_assemble _ _ _, raField_assemble _ _ _, zField_assemble _ _ _, dataField_assemble _ _ _⟩

theorem EncodingFields.nop : EncodingFields.Statement .nop := encode_fields _
theorem EncodingFields.reset : EncodingFields.Statement .reset := encode_fields _
theorem EncodingFields.start : EncodingFields.Statement .start := encode_fields _
theorem EncodingFields.stop : EncodingFields.Statement .stop := encode_fields _
theorem EncodingFields.incb : EncodingFields.Statement .incb := encode_fields _
theorem EncodingFields.inf (data : Word) : EncodingFields.Statement (.inf data) := encode_fields _
theorem EncodingFields.outf : EncodingFields.Statement .outf := encode_fields _
theorem EncodingFields.regw (ra : RegAddr) (data : Word) :
    EncodingFields.Statement (.regw ra data) := encode_fields _
theorem EncodingFields.regr (ra : RegAddr) : EncodingFields.Statement (.regr ra) := encode_fields _
theorem EncodingFields.rdcap (addr : Word) : EncodingFields.Statement (.rdcap addr) :=
  encode_fields _
theorem EncodingFields.rdspec (addr : Word) : EncodingFields.Statement (.rdspec addr) :=
  encode_fields _

end Sys2Proof.Laws
end

