-- ==== Sys2Proof/Machine/Trace.lean ====
section
/-! DEFINITION. Operation sequences: the source-level events of R93, the pseudo-operations of R95,
the agents of R14, and the textual form of an operation (R95). -/

namespace Sys2Proof.Machine

/-- The address of a mapped host register (R32). -/
def HostReg.addr : HostReg → RegAddr
  | .status => 0x00#8
  | .toneFreq => 0x01#8
  | .toneAmp => 0x02#8
  | .toneCount => 0x03#8
  | .tonePhase => 0x04#8
  | .timebase => 0x05#8
  | .mode => 0x06#8
  | .req => 0x07#8
  | .yscale => 0x08#8
  | .rdFreq => 0x09#8
  | .rdLevel => 0x0A#8
  | .meter => 0x0B#8
  | .capSeq => 0x0C#8
  | .capLen => 0x0D#8
  | .capXscale => 0x0E#8
  | .capInfo => 0x0F#8
  | .specSeq => 0x10#8

/-- The name of a mapped host register (R32). -/
def HostReg.name : HostReg → String
  | .status => "STATUS"
  | .toneFreq => "TONE_FREQ"
  | .toneAmp => "TONE_AMP"
  | .toneCount => "TONE_COUNT"
  | .tonePhase => "TONE_PHASE"
  | .timebase => "TIMEBASE"
  | .mode => "MODE"
  | .req => "REQ"
  | .yscale => "YSCALE"
  | .rdFreq => "RD_FREQ"
  | .rdLevel => "RD_LEVEL"
  | .meter => "METER"
  | .capSeq => "CAP_SEQ"
  | .capLen => "CAP_LEN"
  | .capXscale => "CAP_XSCALE"
  | .capInfo => "CAP_INFO"
  | .specSeq => "SPEC_SEQ"

/-! ## Events and pseudo-operations (R93, R95) -/

/-- `INFS d1, ..., dn` (R95). -/
def infs (ds : List Word) : List Instr := ds.map Instr.inf

/-- `OUTFS n`, the event `onOutputFrames(n)` (R93, R95). -/
def outfs (n : Nat) : List Instr := List.replicate n .outf

/-- `CALLBACK_IN d1, ..., dn`, the event `onInputFrames(frames)` (R93, R95). -/
def callbackIn (ds : List Word) : List Instr := .incb :: infs ds

/-- `W1C mask` (R95). -/
def w1c (mask : Word) : List Instr := [.regw HostReg.status.addr mask]

/-- `READOUT`: RD_FREQ, then RD_LEVEL (R95, R261). -/
def readout : List Instr := [.regr HostReg.rdFreq.addr, .regr HostReg.rdLevel.addr]

/-- The event `start(config)`: the five configuration registers, then `START` (R93). -/
def startConfig (freq amp timebase mode yscale : Word) : List Instr :=
  [.regw HostReg.toneFreq.addr freq, .regw HostReg.toneAmp.addr amp,
   .regw HostReg.timebase.addr timebase, .regw HostReg.mode.addr mode,
   .regw HostReg.yscale.addr yscale, .start]

/-! ## Agents (R14) -/

/-- The agents that issue operations. The block does not enforce who issues what (R240, U8); a claim
that depends on it puts `Agent.issues` on its trace. -/
inductive Agent where
  | input | output | ui | sys
deriving DecidableEq, Repr

/-- Which agent issues which operation (R14, R92). -/
def Agent.issues : Agent → Instr → Bool
  | _, .nop => true
  | a, .reset => a == .sys
  | a, .start => a == .ui
  | a, .stop => a == .ui
  | a, .incb => a == .input
  | a, .inf _ => a == .input
  | a, .outf => a == .output
  | a, .regw _ _ => a == .ui
  | a, .regr _ => a == .ui
  | a, .rdcap _ => a == .ui
  | a, .rdspec _ => a == .ui

/-! ## Textual form (R95) -/

/-- The low `digits` hexadecimal digits of a number, the highest first. -/
def hexDigits (digits v : Nat) : String :=
  String.ofList (((List.range digits).map (fun i => Nat.digitChar (v / 16 ^ i % 16))).reverse)

/-- `0x` and the hexadecimal digits of a word. -/
def hexWord {n : Nat} (w : BitVec n) : String := "0x" ++ hexDigits (n / 4) w.toNat

/-- The register operand: its name in R32, or its address. -/
def regText (ra : RegAddr) : String :=
  match hostReg ra with
  | some r => r.name
  | none => hexWord ra

/-- The textual form of an operation, without its response (R95). -/
def traceText (i : Instr) : String :=
  match i with
  | .nop => mnemonic i
  | .reset => mnemonic i
  | .start => mnemonic i
  | .stop => mnemonic i
  | .incb => mnemonic i
  | .inf data => mnemonic i ++ " " ++ hexWord data
  | .outf => mnemonic i
  | .regw ra data => mnemonic i ++ " " ++ regText ra ++ ", " ++ hexWord data
  | .regr ra => mnemonic i ++ " " ++ regText ra
  | .rdcap addr => mnemonic i ++ " " ++ hexWord addr
  | .rdspec addr => mnemonic i ++ " " ++ hexWord addr

/-- The textual form of an operation with its response after `->` where it has one (R95). -/
def traceLine (i : Instr) (resp : Option Word) : String :=
  match resp with
  | none => traceText i
  | some v => traceText i ++ " -> " ++ hexWord v

end Sys2Proof.Machine
end

