-- ==== Sys2Proof/Laws/Runs.lean ====
section
/-! SUPPORT. What the terms of Safety about sequences of operations say, and the invariant of the
capture part: where only other fields change, and in the state `FIRST`. -/

namespace Sys2Proof.Machine

/-! ## The input frames of a sequence -/

@[simp] theorem inputs_nil : inputs [] = [] := rfl

@[simp] theorem inputs_cons_inf (d : Word) (is : List Instr) :
    inputs (.inf d :: is) = d :: inputs is := rfl

/-- An operation that is no `INF` delivers no frame. -/
theorem inputs_cons_other (i : Instr) (is : List Instr) (h : ∀ d, i ≠ .inf d) :
    inputs (i :: is) = inputs is := by
  cases i with
  | inf d => exact absurd rfl (h d)
  | nop | reset | start | stop | incb | outf | regw _ _ | regr _ | rdcap _ | rdspec _ => rfl

theorem inputs_append (is js : List Instr) : inputs (is ++ js) = inputs is ++ inputs js :=
  List.filterMap_append

/-- The frames of `INFS d1, ..., dn` (R95) are `d1, ..., dn`. -/
theorem inputs_infs (ds : List Word) : inputs (infs ds) = ds := by
  induction ds with
  | nil => rfl
  | cons d ds ih => exact congrArg (d :: ·) ih

/-! ## Conditions along a sequence -/

theorem keepsRunning_cons {i : Instr} {is : List Instr} (h : keepsRunning (i :: is) = true) :
    i.wellFormed = true ∧ i ≠ .stop ∧ i ≠ .reset ∧ keepsRunning is = true := by
  simpa [keepsRunning, and_assoc] using h

/-- A condition along a sequence holds at its first operation, and along the rest. -/
theorem along_cons {c : Cfg Q} {p : Instr → State → Bool} {i : Instr} {is : List Instr} {s t : State}
    (h : along c p (i :: is) s = true) (ht : execUnder c i s = .next t) :
    p i s = true ∧ along c p is t = true := by
  simpa [along, ht] using h

/-! ## The invariant of the capture part -/

/-- It reads the capture group, the trigger state and two flags. -/
theorem CaptureInv.congr {c : Cfg Q} {s t : State} (inv : CaptureInv c s) (cap : t.cap = s.cap)
    (trig : t.trig.state = s.trig.state) (overrun : t.st.overrun = s.st.overrun)
    (freerun : t.st.freerun = s.st.freerun) : CaptureInv c t := by
  have len : length c t = length c s := length_congr c (congrArg Cap.tb cap)
  constructor <;> simp only [cap, trig, overrun, freerun, len]
  exacts [inv.index_lt, inv.start_lt, inv.count_le, inv.scan_lt, inv.not_next, inv.init_count,
    inv.first_count, inv.last_full, inv.no_overrun, inv.freerun_init]

/-- In `FIRST` it says where the write index stands: `count` places after the trigger point. -/
theorem CaptureInv.of_first {c : Cfg Q} {s : State} (first : s.trig.state = .first)
    (overrun : s.st.overrun = false) (freerun : s.st.freerun = false)
    (start : s.cap.start.toNat < length c s) (scan : s.cap.scan.toNat < length c s)
    (count : 0 < s.cap.count.toNat ∧ s.cap.count.toNat < length c s ∧
      s.cap.index.toNat = (s.cap.start.toNat + s.cap.count.toNat) % length c s) :
    CaptureInv c s where
  index_lt := count.2.2 ▸ Nat.mod_lt _ (length_pos s c)
  start_lt := start
  count_le := count.2.1.le
  scan_lt := scan
  not_next := by simp [first]
  init_count := by simp [first]
  first_count _ := count
  last_full := by simp [first]
  no_overrun := overrun
  freerun_init := by simp [freerun]

end Sys2Proof.Machine
end

