-- ==== Sys2Proof/Machine/NumF32.lean ====
section
/-! DEFINITION. `NUM_F32` of R12: `Q` is IEEE 754 binary32, held as its bit pattern, with the IEEE
operations rounding to nearest even. The machine does not use it. What R12 and U2 leave to the
implementation, and which NaN an operation gives, are parameters (log 14). -/

namespace Sys2Proof.Machine

/-- What an implementation of `NUM_F32` chooses (R12, U2; log 14). -/
structure F32Choice where
  sin     : Word → Word
  wrap2pi : Word → Word
  dftmag  : (Fin kSamples → Word) → (Fin kRange → Word)
  twoPi   : Word
  nan     : Word → Word → Word

namespace F32

/-- A NaN pattern. -/
def isNaN (w : Word) : Bool := !finitePattern w && w.extractLsb' 0 23 != 0#23

/-- An infinity pattern. -/
def isInf (w : Word) : Bool := !finitePattern w && w.extractLsb' 0 23 == 0#23

/-- A zero of either sign. -/
def isZero (w : Word) : Bool := w.extractLsb' 0 31 == 0#31

/-- The value of a finite pattern. -/
def value (w : Word) : Rat := Binary32.decode w

/-- The pattern with a given sign bit and 31 low bits. -/
def withSign (neg : Bool) (low : Nat) : Word := BitVec.ofBool neg ++ BitVec.ofNat 31 low

/-- Round a magnitude and give it a sign; a magnitude that rounds to zero keeps the sign. -/
def roundSigned (neg : Bool) (a : Rat) : Word := withSign neg (Binary32.roundMagnitude a)

/-- The pattern with its sign bit flipped. -/
def negate (w : Word) : Word := w ^^^ 0x80000000#32

/-- IEEE addition: an exact zero sum is +0 unless both operands are negative zeros. -/
def add (p : F32Choice) (a b : Word) : Word :=
  if isNaN a || isNaN b then p.nan a b
  else if isInf a then
    if isInf b && Binary32.signBit a != Binary32.signBit b then p.nan a b else a
  else if isInf b then b
  else
    let r := value a + value b
    if r = 0 then withSign (Binary32.signBit a && Binary32.signBit b) 0
    else roundSigned (r < 0) |r|

/-- IEEE subtraction. -/
def sub (p : F32Choice) (a b : Word) : Word :=
  if isNaN a || isNaN b then p.nan a b else add p a (negate b)

/-- IEEE multiplication. -/
def mul (p : F32Choice) (a b : Word) : Word :=
  let neg := Binary32.signBit a != Binary32.signBit b
  if isNaN a || isNaN b then p.nan a b
  else if isInf a || isInf b then
    if isZero a || isZero b then p.nan a b else withSign neg Binary32.infinityBits
  else roundSigned neg |value a * value b|

/-- IEEE division. -/
def div (p : F32Choice) (a b : Word) : Word :=
  let neg := Binary32.signBit a != Binary32.signBit b
  if isNaN a || isNaN b then p.nan a b
  else if isInf a then
    if isInf b then p.nan a b else withSign neg Binary32.infinityBits
  else if isInf b then withSign neg 0
  else if isZero b then
    if isZero a then p.nan a b else withSign neg Binary32.infinityBits
  else roundSigned neg |value a / value b|

/-- The rank of a pattern that is no NaN in the order of the values; both zeros have rank 0. -/
def rank (w : Word) : Int :=
  if Binary32.signBit w then -((w.extractLsb' 0 31).toNat : Int) else (w.extractLsb' 0 31).toNat

/-- IEEE less-than: false on a NaN. -/
def lt (a b : Word) : Bool := !isNaN a && !isNaN b && decide (rank a < rank b)

/-- IEEE less-or-equal: false on a NaN. -/
def le (a b : Word) : Bool := !isNaN a && !isNaN b && decide (rank a ≤ rank b)

end F32

/-- `NUM_F32` (R12): `dec32` and `enc32` are the identity on bit patterns. R12 does not say what `abs`
and `ofNat` are there: that `abs` clears bit 31, of a NaN too, and that `ofNat` rounds to the nearest
binary32, ties to even, is the model's (PRESUMED, log 14). -/
def numF32 (p : F32Choice) : Numeric Word where
  dec32 w := w
  enc32 w := w
  one := 0x3F800000#32
  twoPi := p.twoPi
  add := F32.add p
  sub := F32.sub p
  mul := F32.mul p
  div := F32.div p
  abs w := w &&& 0x7FFFFFFF#32
  sin := p.sin
  lt := F32.lt
  le := F32.le
  ofNat n := Binary32.encode (n : Rat)
  wrap2pi := p.wrap2pi
  dftmag := p.dftmag
  finite := finitePattern
  dec32_zero := by rfl
  enc32_zero := by rfl

end Sys2Proof.Machine
end

