-- ==== Sys2Proof/Tests/Slice0.lean ====
section
/-! SUPPORT. The model's own tests. Expected values are the spec's: the vectors V-… and programs P…
of spec/95_test_vectors.md, named at each test. CFG_TEST itself is `cfgTestReal`, over `NUM_REAL`;
`cfgTest` is what of it evaluates: the same table and bounds over rational arithmetic,
with stand-ins for what is no rational function: a turn is 4 (so a quarter turn of V-T1 is 1), the
sine is known at the quarter turns, and `dftmag` is a toy of no meaning. The last part
holds one witness per obligation that has hypotheses. -/

namespace Sys2Proof.Machine.Tests

/-! ## The test configuration -/

/-- The sine at the four quarter turns, 0 elsewhere. -/
def quarterSine (x : Rat) : Rat := if x = 1 then 1 else if x = 3 then -1 else 0

/-- A stand-in for `NUM_REAL` that evaluates. -/
def numTest : Numeric Q where
  dec32 := Binary32.decode
  enc32 := Binary32.encode
  one := 1
  twoPi := 4
  add x y := x + y
  sub x y := x - y
  mul x y := x * y
  div x y := x / y
  abs x := if x < 0 then -x else x
  sin := quarterSine
  lt x y := decide (x < y)
  le x y := decide (x ≤ y)
  ofNat n := n
  wrap2pi x := x - 4 * (x / 4).floor
  dftmag w k := w ⟨k, Nat.lt_trans k.isLt (by decide)⟩
  finite _ := true
  dec32_zero := by decide +kernel
  enc32_zero := by decide +kernel

/-- CFG_TEST of R7, over `numTest`. -/
def cfgTest : Cfg Q where
  num := numTest
  tableCountLog i := ⟨i + 2, Nat.add_lt_add_right (Nat.lt_trans i.isLt (by decide : 12 < 17)) 2⟩
  tableScale i := 2 ^ i.val / 1024
  kFrequencyMin := 10
  kFrequencyMax := 20000
  kToneFreqMin := 10
  kToneFreqMax := 20000
  kMeterMin := 0
  kMeterMax := 1
  kMeterAttack := 1 / 2
  kMeterDecay := 1 / 4
  peakUnordered _ := ⟨0, by decide⟩
  beyondCount _ := ⟨0, by decide⟩
  beyondScale _ := 1
  scale_ok := by decide +kernel
  band_ok := by decide +kernel
  band_nonempty := ⟨⟨1, by decide⟩, by decide +kernel⟩
  tone_ok := by decide +kernel
  meter_ok := by decide +kernel
  attack_ok := by decide +kernel
  decay_ok := by decide +kernel

/-- The state after `RESET`, `START` under CFG_TEST. -/
def started : State := start cfgTest (State.resetOf cfgTest)

/-- What one operation leaves, seen through `f`. -/
def after {β : Type} (i : Instr) (s : State) (f : State → β) : Option β :=
  match execUnder cfgTest i s with
  | .next t => some (f t)
  | .fault _ => none
  | .refused _ => none

/-! ## Well-formedness -/

theorem test_wf_refuses_nan : Instr.wellFormed (.inf 0x7FC00000#32) = false := by decide
theorem test_wf_refuses_infinity : Instr.wellFormed (.inf 0xFF800000#32) = false := by decide
theorem test_wf_accepts_largest : Instr.wellFormed (.inf 0x7F7FFFFF#32) = true := by decide

/-! ## Decoding: words written out from R90, R92 (most of them stand in P1 to P6) -/

theorem test_decode_nop : decodeTableWord 64 0x0000000000000000 = some .nop := by decide
theorem test_decode_reset : decodeTableWord 64 0x0100000000000000 = some .reset := by decide
theorem test_decode_start : decodeTableWord 64 0x0200000000000000 = some .start := by decide
theorem test_decode_stop : decodeTableWord 64 0x0300000000000000 = some .stop := by decide
theorem test_decode_incb : decodeTableWord 64 0x1000000000000000 = some .incb := by decide
theorem test_decode_inf :
    decodeTableWord 64 0x11000000BE800000 = some (.inf 0xBE800000#32) := by decide
theorem test_decode_outf : decodeTableWord 64 0x2000000000000000 = some .outf := by decide
theorem test_decode_regw :
    decodeTableWord 64 0x30010000447A0000 = some (.regw 0x01#8 0x447A0000#32) := by decide
theorem test_decode_regr : decodeTableWord 64 0x3110000000000000 = some (.regr 0x10#8) := by decide
theorem test_decode_rdcap :
    decodeTableWord 64 0x4000000000000004 = some (.rdcap 4#32) := by decide
theorem test_decode_rdspec :
    decodeTableWord 64 0x4100000000000400 = some (.rdspec 0x400#32) := by decide
/-- R94: an unknown code, then a nonzero bit in each field that must be zero. -/
theorem test_decode_illegal :
    decodeWord 0x0400000000000000#64 = .error (.illegalOp 0x04#8) ∧
    decodeWord 0x1100000100000000#64 = .error .reservedZ ∧
    decodeWord 0x4001000000000000#64 = .error .reservedRa ∧
    decodeWord 0x3100000000000001#64 = .error .reservedData := by decide

/-- R62: 0.5 and -0.25 in a byte stream; a stream that ends inside a frame. -/
theorem test_frame_stream :
    framesToBytes [0x3F000000#32, 0xBE800000#32] =
      [0x00#8, 0x00#8, 0x00#8, 0x3F#8, 0x00#8, 0x00#8, 0x80#8, 0xBE#8] ∧
    frameOfBytes [0x00#8, 0x00#8, 0x80#8, 0xBE#8, 0x11#8] = some (0xBE800000#32, [0x11#8]) ∧
    framesOfBytes [0x00#8, 0x00#8, 0x80#8, 0xBE#8, 0x11#8] = none := by decide

/-! ## Binary32 (the patterns spec/95_test_vectors.md lists, and R12's rounding) -/

theorem test_decode32 :
    Binary32.decode 0xBE800000#32 = (-1 / 4 : Rat) ∧ Binary32.decode 0x462C4400#32 = (11025 : Rat) ∧
    Binary32.decode 0x3A800000#32 = (1 / 1024 : Rat) := by decide +kernel
theorem test_encode32 :
    Binary32.encode (-1 / 4 : Rat) = 0xBE800000#32 ∧
    Binary32.encode (11025 : Rat) = 0x462C4400#32 ∧
    Binary32.encode (4 / 5 : Rat) = 0x3F4CCCCD#32 ∧
    Binary32.encode ((2 : Rat) ^ 128) = 0x7F800000#32 ∧
    Binary32.encode (-(1 : Rat) / 2 ^ 151) = 0x00000000#32 := by decide +kernel

/-! ## One step of each operation -/

theorem test_nop : after .nop started id = some started := by decide +kernel

/-- V-E1. -/
theorem test_reset :
    after .reset { started with yscale := 7, tone := ⟨1, 1, 1, 9⟩ }
      (fun t => (regValue cfgTest .status t, t.yscale, t.tone.count, t.pub.capLen,
        regValue cfgTest .capXscale t)) =
    some (0x00000000#32, 0x00000000#32, 0#32, 4#19, 0x3A800000#32) := by decide +kernel

/-- R7: the first and the last entry of CFG_TEST's table, and FS. -/
theorem test_timebase_table :
    select cfgTest 0 = (4, 1 / 1024) ∧ select cfgTest 11 = (8192, 2) ∧ cfgTest.num.fs = 44100 := by
  decide +kernel

/-- R250: any 4-bit index may stand before `RESET`, which answers 0 there. -/
theorem test_reset_clears_any_index :
    after .reset { started with cap := { started.cap with tb := 15 }, req := ⟨13, 0, 0⟩ }
      (fun t => (t.cap.tb, t.req.tb)) = some (0, 0) := by decide +kernel

/-- V-E2. -/
theorem test_start :
    after .start { State.resetOf cfgTest with
        tone := ⟨1000, 1 / 2, 1, 5⟩, req := ⟨2, 0x01, 7⟩, cap := { started.cap with index := 3 } }
      (fun t => (t.tone, t.req, t.cap.index, t.cap.mode, t.pub.capLen, regValue cfgTest .status t)) =
    some (⟨1000, 1 / 2, 0, 0⟩, ⟨2, 0x01, 0⟩, 0#18, 0x01#5, 16#19, 0x00000001#32) := by
  decide +kernel
/-- V-E3. -/
theorem test_start_running :
    after .start { started with tone := ⟨1000, 1 / 2, 1, 5⟩ } (fun t => t.tone.count) =
      some 5#32 := by decide +kernel

theorem test_stop :
    after .stop started (fun t => (t.run, t.pub.capLen)) = some (false, 4#19) := by decide +kernel

/-- V-I5. -/
theorem test_incb_clear :
    after .incb { started with
        req := ⟨1, 0, 1⟩, cap := { started.cap with ring := [(0, 1), (7, 1), (8, 1)], index := 2 } }
      (fun t => decide (t.cap.tb = 1 ∧ t.cap.ring = [(8, 1)] ∧ t.cap.index = 0 ∧
        t.trig.state = .init ∧ t.pub.capLen = 8 ∧ t.pub.capSeq = 1 ∧ t.req.flags = 0)) =
    some true := by decide +kernel
/-- V-C8: a consume leaves `LAST`, but not when the single bit just adopted is set. -/
theorem test_incb_consume :
    after .incb { started with trig := ⟨.last, 0⟩, req := ⟨0, 0x01, 4⟩ } (fun t => t.trig.state) =
      some .init ∧
    after .incb { started with trig := ⟨.last, 0⟩, req := ⟨0, 0x05, 4⟩ } (fun t => t.trig.state) =
      some .last := by decide +kernel

/-- V-I1. -/
theorem test_inf_first :
    after (.inf 0x3F000000#32) started
      (fun t => decide (t.cap.ring = [(0, 1 / 2)] ∧ t.cap.index = 1 ∧ t.cap.scan = 1 ∧
        t.spec.hist = [(0, 1 / 2)] ∧ t.spec.hpos = 1 ∧ t.spec.fill = 1 ∧ t.meter.level = 1 / 4 ∧
        t.trig.prev = 1 / 2)) = some true := by decide +kernel
/-- V-C3, the last sample: the window is complete, its first sample stands at index 2. -/
theorem test_inf_completes :
    after (.inf 0xBE800000#32) { started with
        cap := ⟨[(0, 1 / 4), (1, -1 / 4), (2, 1 / 4), (3, 1 / 2)], 0, 1, 2, 3, 0, 0x01⟩,
        trig := ⟨.first, 1 / 4⟩ }
      (fun t => (t.trig.state, t.pub.cap, t.pub.capSeq, t.cap.index, t.cap.start)) =
    some (.last, [(0, 1 / 4), (1, 1 / 2), (2, 1 / 4), (3, -1 / 4)], 1#32, 2#18, 2#18) := by
  decide +kernel

/-- V-C1. -/
theorem test_edge :
    [(-1 / 4, 1 / 4), (-1 / 4, 0), (0, 1 / 4), (1 / 4, 1 / 2), (-1 / 2, -1 / 4), (0, 0)].map
      (fun p => edge numTest false p.1 p.2) = [true, true, false, false, false, false] ∧
    [(1 / 4, -1 / 4), (1 / 4, 0), (0, -1 / 4), (-1 / 4, -1 / 2), (-1 / 4, 1 / 4)].map
      (fun p => edge numTest true p.1 p.2) = [true, true, false, false, false] := by decide +kernel

/-- V-S2, V-S4: a tie goes to the lowest bin of the band, and bin 0 is not in the band. -/
theorem test_peak :
    peakBin cfgTest (fun _ => 0) = ⟨1, by decide⟩ ∧
    peakBin cfgTest (fun k => if k.val = 0 then 2 else if k.val = 3 then 1 else 0) =
      ⟨3, by decide⟩ := by decide +kernel

/-- V-T1, the second frame. -/
theorem test_outf :
    after .outf { started with tone := ⟨11025, 1, 1, 1⟩ } (fun t => (t.resp, t.tone.phase,
      t.tone.count)) = some (some 0x3F800000#32, 2, 2#32) := by decide +kernel
/-- V-T6, V-T7: both wraps. -/
theorem test_outf_wraps :
    after .outf { started with tone := ⟨11025, 1, 3, 0xFFFFFFFF⟩ } (fun t => (t.resp, t.tone.phase,
      t.tone.count)) = some (some 0xBF800000#32, 0, 0#32) := by decide +kernel

/-- P4: 1000.0 is accepted; 25000.0, a NaN and timebase 12 are not. -/
theorem test_regw_checks :
    after (.regw 0x01#8 0x447A0000#32) started (fun t => (t.tone.freq, t.st.cfgerr)) =
      some (1000, false) ∧
    after (.regw 0x01#8 0x46C35000#32) started (fun t => (t.tone.freq, t.st.cfgerr)) =
      some (0, true) ∧
    after (.regw 0x01#8 0x7FC00000#32) started (fun t => (t.tone.freq, t.st.cfgerr)) =
      some (0, true) ∧
    after (.regw 0x05#8 0x0000000C#32) started (fun t => (t.req.tb, t.st.cfgerr)) =
      some (0, true) := by decide +kernel
/-- P4: a STATUS write of 0x0A clears CFGERR and BUSERR and not OVERRUN. -/
theorem test_regw_status :
    after (.regw 0x00#8 0x0000000A#32) { started with st := ⟨true, true, true, true⟩ }
      (fun t => t.st) = some ⟨false, true, false, true⟩ := by decide +kernel

/-- P2: STATUS in `LAST` with BUSERR set. -/
theorem test_regr_status :
    after (.regr 0x00#8) { started with trig := ⟨.last, 0⟩, st := ⟨false, false, true, false⟩ }
      (fun t => t.resp) = some (some 0x00000309#32) := by decide +kernel
/-- R40, R214. -/
theorem test_regr_latches :
    after (.regr 0x09#8) { started with pub := { started.pub with freq := 11025, level := 5 / 8 } }
      (fun t => (t.resp, t.pub.levelShadow)) = some (some 0x462C4400#32, 5 / 8) := by decide +kernel

/-- P2: `RDCAP 3`, and `RDCAP 4` at the length. -/
theorem test_rdcap :
    after (.rdcap 3#32) { started with pub := { started.pub with cap := [(3, -1 / 4)] } }
      (fun t => (t.resp, t.st.buserr)) = some (some 0xBE800000#32, false) ∧
    after (.rdcap 4#32) { started with pub := { started.pub with cap := [(4, 1)] } }
      (fun t => (t.resp, t.st.buserr)) = some (some 0x00000000#32, true) := by decide +kernel

/-- P6: `RDSPEC 1024`, and the first bin out of range. -/
theorem test_rdspec :
    after (.rdspec 1024#32) { started with pub := { started.pub with spec := [(1024, 5 / 8)] } }
      (fun t => (t.resp, t.st.buserr)) = some (some 0x3F200000#32, false) ∧
    after (.rdspec 2048#32) started (fun t => (t.resp, t.st.buserr)) =
      some (some 0x00000000#32, true) := by decide +kernel

/-! ## Witnesses: states and operands that meet the hypotheses of an obligation, all together

One theorem per obligation that has hypotheses, named after it; a conjunct or a disjunct per clause,
at a boundary value where the clause has a range. The ones about `exec` use the state after `RESET`
under `Config.cfg`, of which only R7's constraints are known; the ones about `execUnder` use CFG_TEST. -/

/-- The state after `RESET`, running. -/
def running : State := { State.reset with run := true }

/-- An operation completes. -/
def Completes (i : Instr) (s : State) : Prop := ∃ t, exec i s = .next t

theorem witness_EncodeOfDecode :
    decodeWord 0x3010000000000001#64 = .ok (.regw 0x10#8 1#32) := by decide

theorem witness_WordsSerialiseLittleEndian :
    (7 < 8 ∧ (toBytes 0x3010000000000001#64)[7]? = some 0x30#8) ∧
    ([0x11#8, 0#8, 0#8, 0#8, 0#8, 0#8, 0#8] : List Byte).length < 8 ∧
    (3 < frameBytes ∧ (frameToBytes 0xBE800000#32)[3]? = some 0xBE#8) := by decide

theorem witness_DecodeAgreesWithOpcodeMap :
    decodeWord 0x3110000000000000#64 = .ok (.regr 0x10#8) ∧
    ∃ r ∈ opcodeRows, r.mnemonic = "REGR" ∧ r.matches 0x3110000000000000#64 = true := by decide

theorem witness_IllegalWordsAreRefused :
    opField 0x4200000000000000#64 ∉ [0x00#8, 0x01#8, 0x02#8, 0x03#8, 0x10#8, 0x11#8, 0x20#8, 0x30#8,
      0x31#8, 0x40#8, 0x41#8] ∧
    zField 0x1100800000000000#64 ≠ 0#16 ∧
    (opField 0x1180000000000000#64 ∉ [0x30#8, 0x31#8] ∧ raField 0x1180000000000000#64 ≠ 0#8) ∧
    (opField 0x3100000080000000#64 ∈ [0x00#8, 0x01#8, 0x02#8, 0x03#8, 0x10#8, 0x20#8, 0x31#8] ∧
      dataField 0x3100000080000000#64 ≠ 0#32) ∧
    ({ State.reset with ops := [0x4200000000000000#64] } : State).ops =
      0x4200000000000000#64 :: [] ∧
    0x11 ≤ (0x11#8).toNat ∧ 0x11 ≤ (0xFF#8).toNat :=
  ⟨by decide, by decide, by decide, by decide, rfl, by decide, by decide⟩

theorem witness_StepRunsTheDecodedOperation :
    ({ State.reset with ops := [0x2000000000000000#64] } : State).ops =
      0x2000000000000000#64 :: [] ∧
    decodeWord 0x2000000000000000#64 = .ok .outf ∧ State.reset.ops = [] :=
  ⟨rfl, by decide, rfl⟩

/-- For the last clause: two states that agree on the configuration registers, and differ. -/
theorem witness_StartInitialisesAllButConfiguration :
    running.run = true ∧ State.reset.run = false ∧
    (let s' : State := { State.reset with cap := { State.reset.cap with index := 1 } }
     State.reset ≠ s' ∧ State.reset.tone.freq = s'.tone.freq ∧ State.reset.tone.amp = s'.tone.amp ∧
      State.reset.req.tb = s'.req.tb ∧ State.reset.req.mode = s'.req.mode ∧
      State.reset.yscale = s'.yscale ∧ State.reset.resp = s'.resp ∧ State.reset.ops = s'.ops) :=
  ⟨rfl, rfl, fun h => absurd (congrArg (fun s => s.cap.index) h) (by decide : (0#18) ≠ 1#18),
    rfl, rfl, rfl, rfl, rfl, rfl, rfl⟩

theorem witness_StoppedEngineIgnoresRealTimeOperations :
    State.reset.run = false ∧ finitePattern 0x7F7FFFFF#32 = true := ⟨rfl, by decide⟩

theorem witness_OutfGivesSampleAndAdvancesPhase : running.run = true ∧ State.reset.run = false :=
  ⟨rfl, rfl⟩

theorem witness_PhaseIsContinuous :
    (∀ i ∈ [Instr.regw 0x08#8 1#32, .stop], i ≠ .outf ∧ i ≠ .start ∧ i ≠ .reset) ∧
    running.run = true ∧
    ∃ t, execAll (.outf :: [.regw 0x08#8 1#32, .stop]) running = .next t :=
  ⟨by decide, rfl, _, rfl⟩

theorem witness_FiniteWordsRoundTripInNumReal :
    finitePattern 0x80000000#32 = true ∧ finitePattern 0x00000001#32 = true ∧
    finitePattern 0x7F7FFFFF#32 = true := by decide

theorem witness_InfFrame :
    (finitePattern 0x7F800000#32 = false ∧ finitePattern 0xFFFFFFFF#32 = false) ∧
    finitePattern 0x7F7FFFFF#32 = true ∧ running.run = true := ⟨by decide, by decide, rfl⟩

theorem witness_InfMovesTheMeterLevel : running.run = true ∧ finitePattern 0x3F000000#32 = true :=
  ⟨rfl, by decide⟩

theorem witness_InfStoresTheHistory :
    (running.run = true ∧ finitePattern 0x3F000000#32 = true) ∧ running.spec.fill.toNat + 1 ≠ 1024 ∧
    ({ running with spec := { running.spec with fill := 1023 } } : State).spec.fill.toNat + 1 =
      1024 := ⟨⟨rfl, by decide⟩, by decide, by decide⟩

theorem witness_SubWindowFoldsAndPublishes :
    let s := fun slot : BitVec 3 =>
      ({ running with spec := { running.spec with fill := 1023, slot := slot } } : State)
    (∀ slot, (s slot).run = true ∧ (s slot).spec.fill.toNat + 1 = 1024) ∧
      finitePattern 0x3F000000#32 = true ∧ (s 2).spec.slot.toNat + 1 ≠ 4 ∧
      (s 3).spec.slot.toNat + 1 = 4 :=
  ⟨fun _ => ⟨rfl, rfl⟩, by decide, by decide, by decide⟩

theorem witness_lawOrder : numTest.LawOrder := by
  refine ⟨fun x y _ _ => ?_, fun x y z _ _ _ => ?_, fun x y _ _ => ?_⟩
  · simpa [numTest] using le_total x y
  · simpa [numTest] using le_trans
  · simp [numTest]

theorem witness_PeakBinIsTheLowestGreatestBin :
    cfgTest.num.LawOrder ∧ ∀ k : Fin kRange, cfgTest.num.finite ((fun _ => (0 : Q)) k) = true :=
  ⟨witness_lawOrder, fun _ => rfl⟩

/-- Triggering disabled, then enabled with no edge at a boundary (from 0 up); the scan counter not
at and at the end of the scan. -/
theorem witness_InitScanWritesAndFreeRuns :
    let s := fun (mode : BitVec 5) (scan : BitVec 19) =>
      ({ started with cap := { started.cap with mode := mode, scan := scan } } : State)
    let noEdge := fun s : State => (modeTrigEn s.cap.mode &&
      (if modeSlope s.cap.mode
        then cfgTest.num.lt 0 s.trig.prev && cfgTest.num.le (cfgTest.num.dec32 0x3F000000#32) 0
        else cfgTest.num.lt s.trig.prev 0 && cfgTest.num.le 0 (cfgTest.num.dec32 0x3F000000#32)))
      = false
    started.run = true ∧ finitePattern 0x3F000000#32 = true ∧ started.trig.state = .init ∧
    noEdge (s 0 2) ∧ noEdge (s 1 3) ∧
    ((s 0 2).cap.scan + 1).toNat ≠ cfgTest.count (s 0 2).cap.tb ∧
    ((s 1 3).cap.scan + 1).toNat = cfgTest.count (s 1 3).cap.tb := by decide +kernel

/-- An edge onto 0 exactly (V-C1). -/
theorem witness_InitEdgeStartsTheWindow :
    let s : State := { started with cap := { started.cap with mode := 1 }, trig := ⟨.init, -1 / 4⟩ }
    s.run = true ∧ finitePattern 0x00000000#32 = true ∧ s.trig.state = .init ∧
    (modeTrigEn s.cap.mode &&
      (if modeSlope s.cap.mode
        then cfgTest.num.lt 0 s.trig.prev && cfgTest.num.le (cfgTest.num.dec32 0x00000000#32) 0
        else cfgTest.num.lt s.trig.prev 0 && cfgTest.num.le 0 (cfgTest.num.dec32 0x00000000#32)))
      = true ∧ cfgTest.count s.cap.tb ≠ 1 := by decide +kernel

/-- In `FIRST` with `count` of the 4 samples of the window stored from index 2 on. -/
def filling (count : BitVec 19) (index : BitVec 18) : State :=
  { started with cap := { started.cap with index := index, start := 2, count := count, mode := 1 },
                 trig := ⟨.first, 1 / 4⟩ }

theorem filling_inv (count : BitVec 19) (index : BitVec 18)
    (h : 0 < count.toNat ∧ count.toNat < 4 ∧ index.toNat = (2 + count.toNat) % 4) :
    CaptureInv cfgTest (filling count index) :=
  .of_first rfl rfl rfl (by decide : 2 < 4) (by decide : 0 < 4) h

theorem witness_FirstFillCompletesTheWindow :
    (CaptureInv cfgTest (filling 1 3) ∧ CaptureInv cfgTest (filling 3 1)) ∧
    (filling 1 3).run = true ∧ finitePattern 0x3F000000#32 = true ∧
    (filling 1 3).trig.state = .first ∧
    (filling 1 3).cap.count.toNat + 1 ≠ cfgTest.count (filling 1 3).cap.tb ∧
    (filling 3 1).cap.count.toNat + 1 = cfgTest.count (filling 3 1).cap.tb :=
  ⟨⟨filling_inv 1 3 (by decide), filling_inv 3 1 (by decide)⟩, by decide +kernel⟩

theorem witness_LastFreezesTheCapture :
    let s : State := { running with trig := ⟨.last, 0⟩ }
    s.run = true ∧ finitePattern 0x3F400000#32 = true ∧ s.trig.state = .last :=
  ⟨rfl, by decide, rfl⟩

/-- Scanning, with the sample before negative. -/
def scanning (mode : BitVec 5) : State :=
  { started with cap := { started.cap with index := 2, mode := mode }, trig := ⟨.init, -1 / 4⟩,
                 req := ⟨0, mode, 0⟩ }

theorem scanning_inv (mode : BitVec 5) : CaptureInv cfgTest (scanning mode) :=
  ⟨(by decide : 2 < 4), (by decide : 0 < 4), (by decide : 0 ≤ 4), (by decide : 0 < 4), nofun,
    fun _ => rfl, nofun, nofun, rfl, nofun⟩

/-- Four frames, the first of them an edge onto 0 exactly, with operations of every other agent
between them: an `INCB` adopts other mode flags, consumes and rearms, another is idle; a timebase
request and a clear stay pending. -/
def edgeTrace : List Instr :=
  [.inf 0x00000000#32, .regw 0x06#8 0x04#32, .regw 0x07#8 6#32, .outf, .incb, .inf 0x3F000000#32,
   .start, .incb, .regr 0x0C#8, .inf 0x3E800000#32, .regw 0x05#8 3#32, .regw 0x07#8 1#32,
   .rdspec 0#32, .inf 0xBE800000#32]

theorem witness_EdgeReachesLastInOneRevolution :
    CaptureInv cfgTest (scanning 1) ∧ (scanning 1).run = true ∧ (scanning 1).trig.state = .init ∧
    edgeTrace = .inf 0x00000000#32 :: edgeTrace.tail ∧
    qualifies cfgTest (cfgTest.num.dec32 0x00000000#32) (scanning 1) = true ∧
    keepsRunning edgeTrace = true ∧ along cfgTest keepsWindow edgeTrace (scanning 1) = true ∧
    (inputs edgeTrace).length = cfgTest.count (scanning 1).cap.tb ∧
    ∃ e, edgeTrace.getLast? = some (.inf e) :=
  ⟨scanning_inv 1, rfl, rfl, rfl, by decide +kernel, by decide, by decide +kernel, by decide +kernel,
    _, rfl⟩

/-- Four frames with no rising edge under the mode flags active at each: what would be one at the
first comes before triggering is enabled. -/
def modeChangeTrace : List Instr :=
  [.inf 0x3E800000#32, .regw 0x06#8 1#32, .incb, .inf 0x3F000000#32, .outf, .inf 0x00000000#32,
   .inf 0xBE800000#32]

/-- Four frames with triggering enabled and no rising edge, after a negative sample; an idle `INCB`
and a request that stays pending between them. -/
def quietTrace : List Instr :=
  [.inf 0xBE800000#32, .incb, .inf 0xBF000000#32, .regr 0x00#8, .inf 0xBE800000#32, .rdcap 0#32,
   .inf 0xBF000000#32, .regw 0x07#8 1#32]

/-- The last conjunct: with triggering disabled no list of samples has an edge. -/
theorem witness_NoEdgeFreeRunsInOneRevolution :
    (∀ mode, CaptureInv cfgTest (scanning mode) ∧ (scanning mode).run = true ∧
      (scanning mode).trig.state = .init ∧ (scanning mode).cap.scan = 0) ∧
    (keepsRunning modeChangeTrace = true ∧
      along cfgTest keepsWindow modeChangeTrace (scanning 0) = true ∧
      along cfgTest (noEdge cfgTest) modeChangeTrace (scanning 0) = true ∧
      (inputs modeChangeTrace).length = cfgTest.count (scanning 0).cap.tb) ∧
    (keepsRunning quietTrace = true ∧ along cfgTest keepsWindow quietTrace (scanning 1) = true ∧
      along cfgTest keepsMode quietTrace (scanning 1) = true ∧
      noEdgeAmong cfgTest (scanning 1).cap.mode (scanning 1).trig.prev
        (samples cfgTest (inputs quietTrace)) = true ∧
      (inputs quietTrace).length = cfgTest.count (scanning 1).cap.tb) ∧
    noEdgeAmong cfgTest 0x1E#5 (-1) (samples cfgTest [0x3F000000#32, 0xBF000000#32]) = true :=
  ⟨fun mode => ⟨scanning_inv mode, rfl, rfl, rfl⟩,
    ⟨by decide, by decide +kernel, by decide +kernel, by decide +kernel⟩,
    ⟨by decide, by decide +kernel, by decide +kernel, by decide +kernel, by decide +kernel⟩,
    by decide +kernel⟩

/-- Two frames with operations of every other agent between them, an effective timebase change among
them. -/
def sessionTrace : List Instr :=
  [.regw 0x05#8 11#32, .incb, .inf 0x3F000000#32, .start, .outf, .rdcap 0#32, .inf 0x7F7FFFFF#32]

theorem witness_SpectrumIsPublishedOncePer4096Frames :
    State.reset.run = false ∧ keepsRunning sessionTrace = true := ⟨rfl, by decide⟩

/-- The last index before the session and the first in it. -/
theorem witness_HistoryHoldsTheLastSamples :
    State.reset.run = false ∧ keepsRunning sessionTrace = true ∧ 4095 < 4096 ∧
    (samples Config.cfg (inputs sessionTrace)).length + 4093 < 4096 ∧
    ¬ (samples Config.cfg (inputs sessionTrace)).length + 4094 < 4096 :=
  ⟨rfl, by decide, by decide, by decide, by decide⟩

theorem witness_IncbAdoptsAndConsumesRequests : running.run = true := rfl

theorem witness_IncbWithNothingPendingIsIdle :
    (State.reset.req.flags = 0 ∧ State.reset.req.mode = State.reset.cap.mode ∧
      State.reset.req.tb = State.reset.cap.tb) ∧ running.run = true ∧ Completes .incb running :=
  ⟨⟨rfl, rfl, rfl⟩, rfl, _, rfl⟩

theorem witness_TimebaseChangeForcesInit :
    let s : State := { running with req := ⟨11, 0, 6⟩ }
    s.run = true ∧ s.req.tb ≠ s.cap.tb ∧ flagClear s.req.flags = false :=
  ⟨rfl, by decide, by decide⟩

theorem witness_ClearZeroesAndPublishesTheWindow :
    let s : State := { running with req := ⟨11, 0, 7⟩ }
    s.run = true ∧ flagClear s.req.flags = true := ⟨rfl, by decide⟩

/-- Both branches: a consume, and a consume with the single bit. -/
theorem witness_ConsumeAndRearmLeaveLast :
    let s := fun mode : BitVec 5 =>
      ({ running with trig := ⟨.last, 0⟩, req := ⟨0, mode, 4⟩ } : State)
    let leaves := fun s : State => s.trig.state = .last ∧ modeStorage s.req.mode = false ∧
      (flagRearm s.req.flags = true ∨
        (flagConsume s.req.flags = true ∧ modeSingle s.req.mode = false))
    (∀ m, (s m).run = true ∧ (s m).req.tb = (s m).cap.tb ∧ flagClear (s m).req.flags = false) ∧
    leaves (s 0) ∧ ¬ leaves (s 4) :=
  ⟨fun _ => ⟨rfl, rfl, (by decide : flagClear 4#3 = false)⟩, ⟨rfl, by decide, by decide⟩, by
    rintro ⟨-, -, h⟩
    revert h
    show ¬ (flagRearm 4#3 = true ∨ (flagConsume 4#3 = true ∧ modeSingle 4#5 = false))
    decide⟩

theorem witness_InvariantHoldsAtReset : Completes .reset { running with tone := ⟨1, 1, 1, 1⟩ } :=
  ⟨_, rfl⟩

/-- A state in `LAST` that has the invariant, whatever the configuration. -/
def held : State :=
  { running with cap := { running.cap with count := BitVec.ofNat 19 (Config.cfg.count 0) }
                 trig := ⟨.last, 0⟩ }

theorem held_inv (ops : List OpWord) : Inv { held with ops := ops } := by
  have h1 : 1 ≤ Config.cfg.count 0 := count_pos _ _
  have h2 : Config.cfg.count 0 ≤ 262144 := count_le_capacity _ _
  have h3 : (BitVec.ofNat 19 (Config.cfg.count 0)).toNat = Config.cfg.count 0 :=
    (BitVec.toNat_ofNat ..).trans (Nat.mod_eq_of_lt (Nat.lt_of_le_of_lt h2 (by decide)))
  refine ⟨⟨?_, ?_, ?_, ?_, nofun, nofun, nofun, fun _ => ⟨h3, rfl⟩, rfl, nofun⟩,
    ⟨(by decide : 0 < 12), (by decide : 0 < 12), (by decide : 0 < 1024), (by decide : 0 < 4), ?_, ?_⟩,
    by constructor <;> rfl⟩
  · exact h1
  · exact h1
  · exact h3.le
  · exact h1
  · show 1 ≤ (BitVec.ofNat 19 (Config.cfg.count 0)).toNat
    omega
  · show (BitVec.ofNat 19 (Config.cfg.count 0)).toNat ≤ 262144
    omega

theorem witness_EveryStepKeepsTheInvariant :
    let s : State := { held with ops := [0x0100000000000000#64] }
    Inv s ∧ ∃ t, step s = .next t := ⟨held_inv _, _, rfl⟩

theorem witness_TriggerTransitionTable :
    Inv held ∧ ∃ t, exec .reset held = .next t ∧ t.trig.state ≠ held.trig.state :=
  ⟨held_inv [], _, rfl, nofun⟩

theorem witness_ModeAndTimebaseConstantBetweenCallbacks :
    (∀ i ∈ [Instr.regw 0x06#8 31#32, .regw 0x05#8 11#32],
      i ≠ .incb ∧ i ≠ .start ∧ i ≠ .reset) ∧
    ∃ t, execAll [.regw 0x06#8 31#32, .regw 0x05#8 11#32] running = .next t :=
  ⟨by decide, _, rfl⟩

theorem witness_PublishedStateChangesOnlyByPublication :
    Completes .incb { running with req := ⟨0, 0, 1⟩ } ∧ Instr.incb ≠ .start ∧
    Instr.incb ≠ .reset := ⟨⟨_, rfl⟩, nofun, nofun⟩

theorem witness_StickyFlagsStaySet :
    let s : State := { running with st := ⟨true, true, true, false⟩ }
    ∃ t, exec (.regw 0x00#8 0xE#32) s = .next t ∧ (s.st.cfgerr = true ∧ t.st.cfgerr = false) ∧
      (s.st.overrun = true ∧ t.st.overrun = false) ∧ (s.st.buserr = true ∧ t.st.buserr = false) :=
  ⟨_, rfl, ⟨rfl, rfl⟩, ⟨rfl, rfl⟩, rfl, rfl⟩

/-- The second flag is set only from a state no run reaches: the verification of `NEXT` fails. -/
theorem witness_FlagsAreSetOnlyByTheirCauses :
    (∃ t, exec (.regw 0x05#8 12#32) running = .next t ∧ running.st.cfgerr = false ∧
      t.st.cfgerr = true) ∧
    (let s : State := { running with trig := ⟨.next, 0⟩, cap := { running.cap with start := 1 } }
     ∃ t, exec (.inf 0x00000000#32) s = .next t ∧ s.st.overrun = false ∧ t.st.overrun = true) ∧
    (∃ t, exec (.rdspec 2048#32) running = .next t ∧ running.st.buserr = false ∧
      t.st.buserr = true) :=
  ⟨⟨_, rfl, rfl, rfl⟩, ⟨_, rfl, rfl, rfl⟩, ⟨_, rfl, rfl, rfl⟩⟩

theorem witness_RunAndToneStateHaveTheirWriters :
    let s : State := { running with tone := ⟨1, 1, 1, 1⟩ }
    ∃ t, exec .reset s = .next t ∧ t.run ≠ s.run ∧ t.tone.freq ≠ s.tone.freq ∧
      t.tone.amp ≠ s.tone.amp ∧ t.tone.phase ≠ s.tone.phase ∧ t.tone.count ≠ s.tone.count := by
  refine ⟨_, rfl, nofun, ?_, ?_, ?_, by decide⟩ <;>
  · show (0 : Rat) ≠ 1
    decide

theorem witness_RegwTimebaseIsChecked :
    (11#32).toNat < 12 ∧ 12 ≤ (12#32).toNat ∧ running.run = true ∧ Completes .incb running :=
  ⟨by decide, by decide, rfl, _, rfl⟩

theorem witness_RegwReqAccumulates :
    let s : State := { running with req := ⟨0, 0, 7⟩ }
    ∃ t, exec .incb s = .next t ∧ s.req.flags.getLsbD 2 = true ∧ t.req.flags.getLsbD 2 = false :=
  ⟨_, rfl, rfl, rfl⟩

theorem witness_YscaleIsStoredAndReadByNothing :
    Instr.stop ≠ .reset ∧ Instr.stop ≠ .regr 0x08#8 ∧ (∀ data, Instr.stop ≠ .regw 0x08#8 data) ∧
    Completes .stop running := ⟨nofun, nofun, nofun, _, rfl⟩

theorem witness_RegwReadOnlyOrUnmappedIsBusError :
    (3#8).toNat = 3 ∧ (4#8).toNat = 4 ∧ 9 ≤ (9#8).toNat ∧ 9 ≤ (0xFF#8).toNat := by decide

theorem witness_RegrReturnsTheHeldValue :
    (0x10#8, running.pub.specSeq) ∈ [(0x00#8, statusWord running.run running.st running.trig.state),
      (0x10#8, running.pub.specSeq)] ∧ 0x11 ≤ (0x11#8).toNat ∧ 0x11 ≤ (0xFF#8).toNat :=
  ⟨by simp, by decide, by decide⟩

theorem witness_ReadoutPairWasPublishedTogether :
    (∀ i ∈ [Instr.regw 0x08#8 1#32], i ≠ .regr 0x09#8 ∧ i ≠ .start ∧ i ≠ .reset) ∧
    ∃ t, execAll (.regr 0x09#8 :: [.regw 0x08#8 1#32]) running = .next t :=
  ⟨by decide, _, rfl⟩

/-- The word before the end of the window and the word at it. -/
theorem witness_RdcapReadsThePublishedWindow :
    let s : State := { running with pub := { running.pub with capLen := 4 } }
    (3#32).toNat < s.pub.capLen.toNat ∧ ¬ (4#32).toNat < s.pub.capLen.toNat :=
  ⟨by decide, by decide⟩

theorem witness_MeterLevelStaysInRange :
    cfgTest.num.LawOrder ∧ (∀ x, cfgTest.num.finite x = true) ∧
    (cfgTest.num.le cfgTest.kMeterMin started.meter.level = true ∧
      cfgTest.num.le started.meter.level cfgTest.kMeterMax = true) ∧
    ∃ t, execUnder cfgTest (.inf 0x3F800000#32) started = .next t :=
  ⟨witness_lawOrder, fun _ => rfl, by decide +kernel, _, rfl⟩

/-- CFG_TEST over `NUM_REAL`. -/
noncomputable def real : Cfg ℝ := cfgTestReal (fun _ => 0)

theorem witness_MeterApproachesWithoutOvershoot :
    real.num = numReal (fun _ => 0) ∧ real.kMeterMin ≤ |(1 : ℝ)| ∧
    |(1 : ℝ)| ≤ real.kMeterMax ∧ real.kMeterMin ≤ (0 : ℝ) ∧ (0 : ℝ) ≤ real.kMeterMax :=
  ⟨rfl, by norm_num [real, cfgTestReal]⟩

theorem witness_MeterDecaysOnSilence :
    real.num = numReal (fun _ => 0) ∧ real.kMeterMin ≤ (1 : ℝ) ∧ (1 : ℝ) ≤ real.kMeterMax :=
  ⟨rfl, by norm_num [real, cfgTestReal]⟩

end Sys2Proof.Machine.Tests
end

section
/-! SUPPORT. Rounding a value that binary32 holds exactly gives its own pattern (R12, log 14). -/

namespace Sys2Proof.Binary32

/-! ## The fields of a word -/

/-- The bits 30:0 of a word as a number: the exponent field above the fraction field. -/
def low31 (w : Word) : Nat := exponent w * 2 ^ 23 + fraction w

theorem fraction_lt (w : Word) : fraction w < 2 ^ 23 := (w.extractLsb' 0 23).isLt

/-- R200: the exponent field of a finite pattern is not all ones. -/
theorem exponent_lt_of_finite {w : Word} (h : finitePattern w = true) : exponent w < 255 := by
  have hlt : exponent w < 2 ^ 8 := (w.extractLsb' 23 8).isLt
  have hne : exponent w ≠ 255 := fun he => bne_iff_ne.mp h (BitVec.eq_of_toNat_eq he)
  omega

/-- The sign, exponent and fraction fields are the whole word. -/
theorem toNat_eq_sign_add_low31 (w : Word) :
    w.toNat = (if signBit w then 0x80000000 else 0) + low31 w := by
  have hw := w.isLt
  have hs : signBit w = decide (2 ^ 31 ≤ w.toNat) := by
    rw [signBit, ← BitVec.msb_eq_getLsbD_last, BitVec.msb_eq_decide]
  simp only [low31, exponent, fraction, hs, BitVec.extractLsb'_toNat, Nat.shiftRight_eq_div_pow,
    decide_eq_true_eq]
  split <;> omega

theorem magnitude_of_exponent_zero {w : Word} (h : exponent w = 0) : magnitude w = fraction w :=
  if_pos h

theorem magnitude_of_exponent_ne_zero {w : Word} (h : exponent w ≠ 0) :
    magnitude w = (2 ^ 23 + fraction w) * 2 ^ (exponent w - 1) := if_neg h

theorem magnitude_eq_zero_iff (w : Word) : magnitude w = 0 ↔ low31 w = 0 := by
  by_cases h : exponent w = 0
  · simp [magnitude_of_exponent_zero h, low31, h]
  · simp [magnitude_of_exponent_ne_zero h, low31, h]

/-! ## Rounding what needs no rounding -/

section
variable {K : Type} [Field K] [LinearOrder K] [FloorRing K] [IsStrictOrderedRing K]

theorem roundEven_natCast (n : Nat) : roundEven (n : K) = n := by simp [roundEven]

/-- Each halving of `a * 2^e` takes one binade, up to the binade where the integer `a` stands. -/
theorem roundScaled_mul_two_pow {a : Nat} (ha : a < 2 ^ 24) (e t : Nat) {fuel : Nat}
    (normal : e ≠ 0 → 2 ^ 23 ≤ a) (hf : e < fuel) :
    roundScaled t ((a * 2 ^ e : Nat) : K) fuel = min ((t + e) * 2 ^ 23 + a) infinityBits := by
  obtain ⟨fuel, rfl⟩ : ∃ k, fuel = k + 1 := ⟨fuel - 1, by omega⟩
  induction e generalizing t fuel with
  | zero =>
    have hlt : (a : K) < 2 ^ 24 := by exact_mod_cast ha
    simp [roundScaled, hlt, roundEven_natCast]
  | succ e ih =>
    obtain ⟨fuel, rfl⟩ : ∃ k, fuel = k + 1 := ⟨fuel - 1, by omega⟩
    have hge : 2 ^ 24 ≤ a * 2 ^ (e + 1) := calc
      2 ^ 24 = 2 ^ 23 * 2 := by norm_num
      _ ≤ a * 2 ^ (e + 1) := Nat.mul_le_mul (normal e.succ_ne_zero) (Nat.le_self_pow (by omega) 2)
    have hK : ¬ ((a * 2 ^ (e + 1) : Nat) : K) < 2 ^ 24 := by exact_mod_cast hge.not_gt
    have hhalf : ((a * 2 ^ (e + 1) : Nat) : K) / 2 = ((a * 2 ^ e : Nat) : K) := by
      push_cast; ring
    rw [roundScaled, if_neg hK, hhalf, ih (t + 1) (fun _ => normal e.succ_ne_zero) fuel (by omega),
      add_right_comm t 1 e, add_assoc t e 1]

/-- A finite pattern's magnitude rounds to the pattern's own low bits. -/
theorem roundScaled_magnitude {w : Word} (h : finitePattern w = true) :
    roundScaled 0 (magnitude w : K) 254 = low31 w := by
  have hexp := exponent_lt_of_finite h
  have hfrac := fraction_lt w
  by_cases h0 : exponent w = 0
  · have hr := roundScaled_mul_two_pow (K := K) (a := fraction w) (by omega) 0 0 (fuel := 254)
      (by simp) (by omega)
    rw [pow_zero, mul_one] at hr
    rw [magnitude_of_exponent_zero h0, hr, low31, infinityBits, h0]
    omega
  · rw [magnitude_of_exponent_ne_zero h0,
      roundScaled_mul_two_pow (by omega) _ _ (by omega) (by omega), low31, infinityBits]
    omega

theorem abs_decode (w : Word) : |(decode w : K)| = (magnitude w : K) / 2 ^ 149 := by
  have hnn : (0 : K) ≤ (magnitude w : K) / 2 ^ 149 := by positivity
  unfold decode
  split
  · rw [abs_neg, abs_of_nonneg hnn]
  · exact abs_of_nonneg hnn

theorem roundMagnitude_abs_decode {w : Word} (h : finitePattern w = true) :
    roundMagnitude |(decode w : K)| = low31 w := by
  rw [roundMagnitude, abs_decode, div_mul_cancel₀ _ (by positivity), roundScaled_magnitude h]

/-- Negative zero is the one pattern with the sign bit that denotes no negative number. -/
theorem decode_neg_iff (w : Word) : (decode w : K) < 0 ↔ signBit w = true ∧ low31 w ≠ 0 := by
  rw [ne_eq, ← magnitude_eq_zero_iff]
  unfold decode
  split
  case isTrue hs =>
    have hpos : 0 < (magnitude w : K) / 2 ^ 149 ↔ magnitude w ≠ 0 := by
      rw [div_pos_iff_of_pos_right (by positivity), Nat.cast_pos, Nat.pos_iff_ne_zero]
    rw [neg_lt_zero, hpos]
    exact (and_iff_right hs).symm
  case isFalse hs =>
    have hnn : (0 : K) ≤ (magnitude w : K) / 2 ^ 149 := by positivity
    exact iff_of_false hnn.not_gt fun h => hs h.1

/-- R12, U5: a finite word comes back from the number it denotes, and negative zero as zero. -/
theorem encode_decode {w : Word} (h : finitePattern w = true) :
    encode (decode w : K) = if w = 0x80000000#32 then 0x00000000#32 else w := by
  have fields := toNat_eq_sign_add_low31 w
  have negZero : w = 0x80000000#32 ↔ w.toNat = 0x80000000 := BitVec.toNat_eq
  have low_lt : low31 w < 0x80000000 := by
    have := exponent_lt_of_finite h
    have := fraction_lt w
    unfold low31
    omega
  simp only [encode, roundMagnitude_abs_decode h, decode_neg_iff, negZero]
  by_cases hs : signBit w = true
  · rw [if_pos hs] at fields
    by_cases h0 : low31 w = 0
    · rw [if_neg (fun hc => hc.2 h0), if_pos (by omega), h0]
    · rw [if_pos ⟨⟨hs, h0⟩, h0⟩, if_neg (by omega), Nat.add_comm, ← fields,
        BitVec.ofNat_toNat, BitVec.setWidth_eq]
  · rw [if_neg hs, Nat.zero_add] at fields
    rw [if_neg (fun hc => hs hc.1.1), if_neg (by omega), ← fields, BitVec.ofNat_toNat,
      BitVec.setWidth_eq]

end

end Sys2Proof.Binary32
end

section
/-! SUPPORT. `NUM_REAL` (R12): what its port functions do, and the laws L1 to L5, one lemma each. -/

namespace Sys2Proof.Machine

section
variable (u : Word → ℝ)

theorem numReal_dec32_of_finite {w : Word} (h : finitePattern w = true) :
    (numReal u).dec32 w = Binary32.decode w := if_pos h

theorem numReal_enc32 (x : ℝ) : (numReal u).enc32 x = Binary32.encode x := rfl

theorem numReal_lawAbs : (numReal u).LawAbs :=
  ⟨fun x => decide_eq_false (abs_nonneg x).not_gt, abs_zero⟩

/-- `x - p * ⌊x/p⌋` is `p` times the fractional part of `x/p`, here with `p = TWO_PI`. -/
theorem numReal_wrap2pi (x : ℝ) :
    (numReal u).wrap2pi x = 2 * Real.pi * Int.fract (x / (2 * Real.pi)) := by
  show x - 2 * Real.pi * ⌊x / (2 * Real.pi)⌋ = _
  rw [Int.fract, mul_sub, mul_div_cancel₀ _ Real.two_pi_pos.ne']

theorem numReal_lawWrap : (numReal u).LawWrap := fun x => by
  rw [numReal_wrap2pi]
  exact ⟨decide_eq_true (mul_nonneg Real.two_pi_pos.le (Int.fract_nonneg _)),
    decide_eq_true (mul_lt_of_lt_one_right Real.two_pi_pos (Int.fract_lt_one _))⟩

theorem numReal_lawOrder : (numReal u).LawOrder := by
  refine ⟨fun x y _ _ => ?total, fun x y z _ _ _ hxy hyz => ?trans, fun x y _ _ => ?strict⟩
  case total => exact (le_total x y).imp decide_eq_true decide_eq_true
  case trans => exact decide_eq_true ((of_decide_eq_true hxy).trans (of_decide_eq_true hyz))
  case strict => simp [numReal]

theorem numReal_lawSin : (numReal u).LawSin := Real.sin_zero

/-- A part `a` of the way up from `l` to `i` stays between them. -/
theorem add_mul_sub_mem_Icc {a l i : ℝ} (a_nonneg : 0 ≤ a) (a_le : a ≤ 1) (h : l ≤ i) :
    l + a * (i - l) ∈ Set.Icc l i := by
  have gap : 0 ≤ i - l := sub_nonneg.mpr h
  exact ⟨le_add_of_nonneg_right (mul_nonneg a_nonneg gap),
    le_sub_iff_add_le'.mp (mul_le_of_le_one_left gap a_le)⟩

/-- Downwards, the part `a` of the way from `l` to `i` is the part `1 - a` of the way up. -/
theorem numReal_lawSmooth : (numReal u).LawSmooth := by
  intro a l i a_pos a_le _ _
  replace a_pos : 0 < a := of_decide_eq_true a_pos
  replace a_le : a ≤ 1 := of_decide_eq_true a_le
  refine ⟨fun h => ?up, fun h => ?down⟩
  case up =>
    obtain ⟨hl, hi⟩ := add_mul_sub_mem_Icc a_pos.le a_le (of_decide_eq_true h)
    exact ⟨decide_eq_true hl, decide_eq_true hi⟩
  case down =>
    obtain ⟨hi, hl⟩ := add_mul_sub_mem_Icc (sub_nonneg.mpr a_le) (sub_le_self 1 a_pos.le)
      (of_decide_eq_true h)
    have turn : i + (1 - a) * (l - i) = l + a * (i - l) := by ring
    rw [turn] at hi hl
    exact ⟨decide_eq_true hi, decide_eq_true hl⟩

end

/-- Settles O16, law by law. -/
theorem numRealHasTheLaws : Obligations.NumRealHasTheLaws := fun u =>
  ⟨numReal_lawAbs u, numReal_lawWrap u, numReal_lawOrder u, numReal_lawSin u, numReal_lawSmooth u⟩

/-- Settles O17: the magnitude in units of 2^-149 halves to its own significand, so nothing is
rounded. -/
theorem finiteWordsRoundTripInNumReal : Obligations.FiniteWordsRoundTripInNumReal :=
  fun u w h => by
    rw [numReal_dec32_of_finite u h, numReal_enc32, Binary32.encode_decode h]

end Sys2Proof.Machine
end

section
/-! SUPPORT. The port and the step (R5, R14, R94), and sequences of operations under a
configuration (R7). -/

namespace Sys2Proof.Machine

/-- With no word at the port there is nothing to take (log 6). -/
theorem takeOp_nil {s : State} (h : s.ops = []) : takeOp s = none := by simp [takeOp, h]

/-- Taking a word removes it and withdraws the response before it (log 6, log 7). -/
theorem takeOp_cons {s : State} {w : OpWord} {rest : List OpWord} (h : s.ops = w :: rest) :
    takeOp s = some (w, { s with ops := rest, resp := none }) := by
  simp [takeOp, h, State.withOps, State.withResp]

theorem step_of_no_word {s : State} (h : s.ops = []) : step s = .next s := by
  simp [step, takeOp_nil h]

theorem step_of_legal_word {s : State} {w : OpWord} {rest : List OpWord} {i : Instr}
    (h : s.ops = w :: rest) (hd : decodeWord w = .ok i) :
    step s = exec i { s with ops := rest, resp := none } := by
  simp [step, takeOp_cons h, hd]

/-- R94, U7: a word that is no operation is refused. -/
theorem step_of_illegal_word {s : State} {w : OpWord} {rest : List OpWord} {e : DecodeError}
    (h : s.ops = w :: rest) (hd : decodeWord w = .error e) :
    step s = .refused (.illegalWord w) := by
  simp [step, takeOp_cons h, hd]

/-- `exec_eq_execUnder` for sequences. -/
theorem execAll_eq_execAllUnder (is : List Instr) (s : State) :
    execAll is s = execAllUnder Config.cfg is s := by
  have hfun : exec = execUnder Config.cfg := funext₂ exec_eq_execUnder
  rw [execAll, execAllUnder, hfun]

/-- Settles O7, by whether a word arrives. -/
theorem stepRunsTheDecodedOperation : Obligations.StepRunsTheDecodedOperation :=
  ⟨fun _ _ _ _ => step_of_legal_word, fun _ => step_of_no_word⟩

/-- Settles O8. -/
theorem execIsExecUnderTheConfiguration : Obligations.ExecIsExecUnderTheConfiguration :=
  ⟨exec_eq_execUnder, execAll_eq_execAllUnder⟩

end Sys2Proof.Machine
end

section
/-! SUPPORT. The host accesses: the register at an address, and what a register write and a read of
any kind can do (R200, R201, R220, R221). -/

namespace Sys2Proof.Machine

/-! ## Addresses (R32) -/

/-- The register map names each register at its own address. -/
theorem hostReg_addr (r : HostReg) : hostReg r.addr = some r := by cases r <;> rfl

/-- One row of the register map: the address it tests is that of the register it names. -/
theorem addr_of_row {ra a : RegAddr} {row r : HostReg} {others : Option HostReg}
    (ha : row.addr = a) (rest : others = some r → ra = r.addr) :
    (if ra = a then some row else others) = some r → ra = r.addr := by
  split
  case isTrue hra => rintro ⟨⟩; exact hra.trans ha.symm
  case isFalse => exact rest

/-- An address names no register but the one whose address it is. -/
theorem addr_of_hostReg {ra : RegAddr} {r : HostReg} : hostReg ra = some r → ra = r.addr := by
  unfold hostReg
  iterate 17 refine addr_of_row rfl ?_
  exact nofun
theorem registerWrite_addr (c : Cfg Q) (r : HostReg) (data : Word) (s : State) :
    registerWrite c r.addr data s = writeReg c r data s := by
  rw [registerWrite, hostReg_addr]

theorem registerRead_addr (c : Cfg Q) (r : HostReg) (s : State) :
    registerRead c r.addr s = (readEffect r s).respond (regValue c r s) := by
  rw [registerRead, hostReg_addr]

/-- Only a read of RD_FREQ writes anything (R40). -/
theorem readEffect_of_ne {r : HostReg} (h : r ≠ .rdFreq) (s : State) : readEffect r s = s := if_neg h

theorem exec_regw_addr (r : HostReg) (data : Word) (s : State) :
    exec (.regw r.addr data) s = .next (writeReg Config.cfg r data s) :=
  congrArg Host.Outcome.next (registerWrite_addr Config.cfg r data s)

/-- A read of a register other than RD_FREQ answers what it holds and leaves the rest alone. -/
theorem exec_regr_addr {r : HostReg} (h : r ≠ .rdFreq) (s : State) :
    exec (.regr r.addr) s = .next { s with resp := some (regValue Config.cfg r s) } := by
  have hr : exec (.regr r.addr) s = .next (registerRead Config.cfg r.addr s) := rfl
  rw [hr, registerRead_addr, readEffect_of_ne h]
  rfl

/-! ## Register writes -/

/-- Everything a register write can do, by the address it names. -/
inductive WriteEffect (c : Cfg Q) (data : Word) (s : State) : RegAddr → State → Prop where
  | configError (ra : RegAddr) : WriteEffect c data s ra (raise .config s)
  | busError (ra : RegAddr) : WriteEffect c data s ra (raise .bus s)
  | status : WriteEffect c data s 0x00#8 (acknowledge data s)
  | toneFreq : WriteEffect c data s 0x01#8 (s.withTone { s.tone with freq := c.num.dec32 data })
  | toneAmp : WriteEffect c data s 0x02#8 (s.withTone { s.tone with amp := c.num.dec32 data })
  | timebase (i : BitVec 4) (accepted : timebaseIndex data = some i) :
      WriteEffect c data s 0x05#8 (s.withReq { s.req with tb := i })
  | mode : WriteEffect c data s 0x06#8 (s.withReq { s.req with mode := data.extractLsb' 0 5 })
  | req : WriteEffect c data s 0x07#8
      (s.withReq { s.req with flags := s.req.flags ||| data.extractLsb' 0 3 })
  | yscale : WriteEffect c data s 0x08#8 (s.withYscale data)

theorem writeReg_effect (c : Cfg Q) (r : HostReg) (data : Word) (s : State) :
    WriteEffect c data s r.addr (writeReg c r data s) := by
  cases r with
  | status => exact .status
  | toneFreq =>
    show WriteEffect c data s _ (writeToneFreq c data s)
    unfold writeToneFreq
    split
    · exact .toneFreq
    · exact .configError _
  | toneAmp =>
    show WriteEffect c data s _ (writeToneAmp c data s)
    unfold writeToneAmp
    split
    · exact .toneAmp
    · exact .configError _
  | timebase =>
    show WriteEffect c data s _ (writeTimebase data s)
    unfold writeTimebase
    split
    case h_1 i hi => exact .timebase i hi
    case h_2 => exact .configError _
  | mode => exact .mode
  | req => exact .req
  | yscale => exact .yscale
  | toneCount | tonePhase | rdFreq | rdLevel | meter | capSeq | capLen | capXscale | capInfo
  | specSeq => exact .busError _

theorem registerWrite_effect (c : Cfg Q) (ra : RegAddr) (data : Word) (s : State) :
    WriteEffect c data s ra (registerWrite c ra data s) := by
  cases h : hostReg ra with
  | none => rw [registerWrite, h]; exact .busError ra
  | some r => rw [addr_of_hostReg h, registerWrite_addr]; exact writeReg_effect c r data s

/-! ## Reads -/

/-- The frame of a read: `t` differs from `s` at most in `pub.level_shadow`, in the response, and in
`st.buserr`, which is not cleared. -/
structure ReadFrame (s t : State) : Prop where
  run : t.run = s.run
  tone : t.tone = s.tone
  cap : t.cap = s.cap
  trig : t.trig = s.trig
  req : t.req = s.req
  yscale : t.yscale = s.yscale
  spec : t.spec = s.spec
  meter : t.meter = s.meter
  pub : t.pub = { s.pub with levelShadow := t.pub.levelShadow }
  cfgerr : t.st.cfgerr = s.st.cfgerr
  overrun : t.st.overrun = s.st.overrun
  buserr : s.st.buserr = true → t.st.buserr = true
  freerun : t.st.freerun = s.st.freerun
  ops : t.ops = s.ops

theorem respond_readFrame (v : Word) (s : State) : ReadFrame s (s.respond v) where
  run := rfl
  tone := rfl
  cap := rfl
  trig := rfl
  req := rfl
  yscale := rfl
  spec := rfl
  meter := rfl
  pub := rfl
  cfgerr := rfl
  overrun := rfl
  buserr h := h
  freerun := rfl
  ops := rfl

/-- A bad read answers and sets `st.buserr` (R64). -/
theorem busError_readFrame (v : Word) (s : State) : ReadFrame s ((raise .bus s).respond v) :=
  { respond_readFrame v s with buserr := fun _ => rfl }

theorem readEffect_readFrame (r : HostReg) (v : Word) (s : State) :
    ReadFrame s ((readEffect r s).respond v) := by
  unfold readEffect
  split
  · exact { respond_readFrame v s with pub := rfl }
  · exact respond_readFrame v s

theorem registerRead_frame (c : Cfg Q) (ra : RegAddr) (s : State) :
    ReadFrame s (registerRead c ra s) := by
  unfold registerRead
  split
  · exact readEffect_readFrame ..
  · exact busError_readFrame ..

theorem readCapture_frame (c : Cfg Q) (addr : Word) (s : State) :
    ReadFrame s (readCapture c addr s) := by
  unfold readCapture
  split
  · exact respond_readFrame ..
  · exact busError_readFrame ..

theorem readSpectrum_frame (c : Cfg Q) (addr : Word) (s : State) :
    ReadFrame s (readSpectrum c addr s) := by
  unfold readSpectrum
  split
  · exact respond_readFrame ..
  · exact busError_readFrame ..

end Sys2Proof.Machine
end

section
/-! SUPPORT. What `INCB` and `INF` leave alone beyond the frames of their parts, and what any
operation can do: one inversion lemma for the whole machine. -/

namespace Sys2Proof.Machine

variable (c : Cfg Q) (x : Q) (s : State)

/-! ## OVERRUN -/

/-- Only a failed verification touches `OVERRUN`, and it sets it (R231). -/
theorem settle_keeps_overrun (h : s.st.overrun = true) : (settle c s).st.overrun = true := by
  by_cases check : s.cap.index = s.cap.start ∧ s.cap.count.toNat = length c s
  · rw [settle_of_check c s check]; exact h
  · rw [settle_of_not_check c s check]; rfl

theorem settleIfFull_keeps_overrun (h : s.st.overrun = true) :
    (settleIfFull c s).st.overrun = true := by
  unfold settleIfFull
  split
  · exact settle_keeps_overrun c s h
  · exact h

theorem initScan_overrun : (initScan c x s).st.overrun = s.st.overrun := by
  unfold initScan
  dsimp only
  split <;> rfl

theorem captureStep_keeps_overrun (h : s.st.overrun = true) :
    (captureStep c x s).st.overrun = true := by
  rcases captureStep_cases c x s with ⟨_, _, e⟩ | ⟨_, _, e⟩ | ⟨_, e⟩ | ⟨_, e⟩ | ⟨_, e⟩ <;> rw [e]
  · exact settleIfFull_keeps_overrun c _ h
  · exact (initScan_overrun c x s).trans h
  · exact settleIfFull_keeps_overrun c _ h
  · exact settle_keeps_overrun c s h
  · exact h

theorem inputFrame_keeps_overrun (h : s.st.overrun = true) :
    (inputFrame c x s).st.overrun = true := by
  cases hr : s.run with
  | false => rw [inputFrame_stopped c x s hr]; exact h
  | true => rw [inputFrame_st c x s hr]; exact captureStep_keeps_overrun c x s h

theorem adoptModeAndTimebase_overrun : (adoptModeAndTimebase s).st.overrun = s.st.overrun := by
  by_cases h : s.req.tb = s.cap.tb
  · rw [adoptModeAndTimebase_same s h]; rfl
  · rw [adoptModeAndTimebase_change s h]; rfl

theorem serveClear_overrun : (serveClear c s).st.overrun = s.st.overrun := by
  unfold serveClear
  split <;> rfl

theorem serveRearm_overrun : (serveRearm s).st.overrun = s.st.overrun := by
  unfold serveRearm
  split
  · rcases rearm_cases s with e | ⟨_, _, e⟩ <;> rw [e]; rfl
  · rfl

theorem serveConsume_overrun : (serveConsume s).st.overrun = s.st.overrun := by
  unfold serveConsume
  split
  · rcases consume_cases s with e | ⟨_, _, _, e⟩ <;> rw [e]; rfl
  · rfl

theorem serveRequests_overrun : (serveRequests c s).st.overrun = s.st.overrun := calc
  (serveRequests c s).st.overrun = (serveRearm (serveClear c s)).st.overrun :=
    serveConsume_overrun _
  _ = (serveClear c s).st.overrun := serveRearm_overrun _
  _ = s.st.overrun := serveClear_overrun c s

/-! ## INCB -/

/-- The frame of `INCB` while running (R131): `t` differs from `s` at most in the capture group, the
trigger state, the request flags, the published window and `st.freerun`. -/
structure CallbackFrame (s t : State) : Prop where
  run : t.run = s.run
  tone : t.tone = s.tone
  prev : t.trig.prev = s.trig.prev
  req : t.req = { s.req with flags := 0 }
  yscale : t.yscale = s.yscale
  spec : t.spec = s.spec
  meter : t.meter = s.meter
  pubSpec : t.pub.spec = s.pub.spec
  cfgerr : t.st.cfgerr = s.st.cfgerr
  overrun : t.st.overrun = s.st.overrun
  buserr : t.st.buserr = s.st.buserr

theorem adoptModeAndTimebase_frame :
    CallbackFrame s (dropFlags (adoptModeAndTimebase s)) := by
  by_cases h : s.req.tb = s.cap.tb
  · rw [adoptModeAndTimebase_same s h]; constructor <;> rfl
  · rw [adoptModeAndTimebase_change s h]; constructor <;> rfl

theorem callbackBoundary_frame (h : s.run = true) : CallbackFrame s (callbackBoundary c s) := by
  rw [callbackBoundary_running c s h]
  have f := adoptModeAndTimebase_frame s
  have g := serveRequests_frame c (adoptModeAndTimebase s)
  exact
    { run := g.run.trans f.run
      tone := g.tone.trans f.tone
      prev := g.prev.trans f.prev
      req := g.req.trans f.req
      yscale := g.yscale.trans f.yscale
      spec := g.spec.trans f.spec
      meter := g.meter.trans f.meter
      pubSpec := g.pubSpec.trans f.pubSpec
      cfgerr := g.cfgerr.trans f.cfgerr
      overrun := (serveRequests_overrun c _).trans (adoptModeAndTimebase_overrun s)
      buserr := g.buserr.trans f.buserr }

/-- An effective `INCB` adopts the requested timebase and mode (R131). -/
theorem callbackBoundary_adopts (h : s.run = true) :
    (callbackBoundary c s).cap.tb = s.req.tb ∧ (callbackBoundary c s).cap.mode = s.req.mode := by
  obtain ⟨tb, mode, -⟩ := adoptModeAndTimebase_adopts s
  have f := serveRequests_frame c (adoptModeAndTimebase s)
  rw [callbackBoundary_running c s h]
  exact ⟨f.tb.trans tb, f.mode.trans mode⟩

/-! ## Any operation -/

/-- Everything an operation can do. `idle` stands for `NOP`, for `START` while running, and for
`INCB` and `INF` while stopped; `read` for the reads and for `OUTF` while stopped. -/
inductive OpEffect : Instr → State → Prop where
  | idle (i : Instr) : OpEffect i s
  | reset : OpEffect .reset (resetEngine c s)
  | start (stopped : s.run = false) : OpEffect .start (startEngine c s)
  | stop : OpEffect .stop (s.withRun false)
  | incb (running : s.run = true) : OpEffect .incb (callbackBoundary c s)
  | inf (d : Word) (running : s.run = true) : OpEffect (.inf d) (inputFrame c (c.num.dec32 d) s)
  | outf (v : Word) : OpEffect .outf ((s.withTone { s.tone with
      phase := tonePhaseNext c.num s.tone.freq s.tone.phase
      count := s.tone.count + 1 }).respond v)
  | regw (ra : RegAddr) (data : Word) (t : State) (effect : WriteEffect c data s ra t) :
      OpEffect (.regw ra data) t
  | read (i : Instr) (t : State) (frame : ReadFrame s t) : OpEffect i t

theorem start_effect : OpEffect c s .start (start c s) := by
  unfold start
  cases h : s.run with
  | true => exact .idle _
  | false => exact .start h

theorem callbackBoundary_effect : OpEffect c s .incb (callbackBoundary c s) := by
  cases h : s.run with
  | true => exact .incb h
  | false => rw [callbackBoundary_stopped c s h]; exact .idle _

theorem inputFrame_effect (d : Word) :
    OpEffect c s (.inf d) (inputFrame c (c.num.dec32 d) s) := by
  cases h : s.run with
  | true => exact .inf d h
  | false => rw [inputFrame_stopped c _ s h]; exact .idle _

theorem outputFrame_effect : OpEffect c s .outf (outputFrame c s) := by
  cases h : s.run with
  | true => rw [outputFrame_running c s h]; exact .outf _
  | false => rw [outputFrame_stopped c s h]; exact .read _ _ (respond_readFrame 0 s)

/-- Every operation that completes does one of these things. -/
theorem execUnder_effect {c : Cfg Q} {i : Instr} {s t : State} (h : execUnder c i s = .next t) :
    OpEffect c s i t := by
  cases i with
  | nop => cases h; exact .idle _
  | reset => cases h; exact .reset
  | start => cases h; exact start_effect c s
  | stop => cases h; exact .stop
  | incb => cases h; exact callbackBoundary_effect c s
  | inf d =>
    obtain ⟨-, rfl⟩ := inputSample_next h
    exact inputFrame_effect c s d
  | outf => cases h; exact outputFrame_effect c s
  | regw ra data => cases h; exact .regw ra data _ (registerWrite_effect c ra data s)
  | regr ra => cases h; exact .read _ _ (registerRead_frame c ra s)
  | rdcap addr => cases h; exact .read _ _ (readCapture_frame c addr s)
  | rdspec addr => cases h; exact .read _ _ (readSpectrum_frame c addr s)

theorem exec_effect {i : Instr} {s t : State} (h : exec i s = .next t) :
    OpEffect Config.cfg s i t := execUnder_effect ((exec_eq_execUnder i s).symm.trans h)

end Sys2Proof.Machine
end

section
/-! SUPPORT. The invariant of the state, unit by unit: what the capture unit keeps of its cursors and
its window, what the analyzer keeps of its counters and arrays, and so what every operation keeps. -/

namespace Sys2Proof.Machine

/-! ## The parts of the invariant -/

/-- The storage of the capture unit: the ring, the published window and its length (R30, R60). -/
structure WindowInv (s : State) : Prop where
  ring_wf : s.cap.ring.wf = true
  ring_below : s.cap.ring.below capacity = true
  pubCap_wf : s.pub.cap.wf = true
  pubCap_below : s.pub.cap.below capacity = true
  capLen_pos : 1 ≤ s.pub.capLen.toNat
  capLen_le : s.pub.capLen.toNat ≤ capacity

/-- The counters and the storage of the analyzer (R28, R60). -/
structure SpectrumInv (s : State) : Prop where
  fill_lt : s.spec.fill.toNat < kStep
  slot_lt : s.spec.slot.toNat < kOversample
  hist_wf : s.spec.hist.wf = true
  hist_below : s.spec.hist.below kSamples = true
  acc_wf : s.spec.acc.wf = true
  acc_below : s.spec.acc.below kRange = true
  pubSpec_wf : s.pub.spec.wf = true
  pubSpec_below : s.pub.spec.below kRange = true

/-- The invariant is that of the two units and the ranges of the two timebase indices. -/
theorem invUnder_iff (c : Cfg Q) (s : State) : InvUnder c s ↔
    CaptureInv c s ∧ WindowInv s ∧ SpectrumInv s ∧
      s.cap.tb.toNat < tbEntries ∧ s.req.tb.toNat < tbEntries := by
  constructor
  · rintro ⟨capture, r, m⟩
    exact ⟨capture,
      ⟨m.ring_wf, m.ring_below, m.pubCap_wf, m.pubCap_below, r.capLen_pos, r.capLen_le⟩,
      ⟨r.fill_lt, r.slot_lt, m.hist_wf, m.hist_below, m.acc_wf, m.acc_below, m.pubSpec_wf,
        m.pubSpec_below⟩, r.tb_lt, r.reqTb_lt⟩
  · rintro ⟨capture, w, a, tb_lt, reqTb_lt⟩
    exact ⟨capture, ⟨tb_lt, reqTb_lt, a.fill_lt, a.slot_lt, w.capLen_pos, w.capLen_le⟩,
      ⟨w.ring_wf, w.ring_below, w.pubCap_wf, w.pubCap_below, a.hist_wf, a.hist_below, a.acc_wf,
        a.acc_below, a.pubSpec_wf, a.pubSpec_below⟩⟩

theorem WindowInv.congr {s t : State} (inv : WindowInv s) (ring : t.cap.ring = s.cap.ring)
    (pubCap : t.pub.cap = s.pub.cap) (capLen : t.pub.capLen = s.pub.capLen) : WindowInv t := by
  constructor <;> simp only [ring, pubCap, capLen]
  exacts [inv.ring_wf, inv.ring_below, inv.pubCap_wf, inv.pubCap_below, inv.capLen_pos,
    inv.capLen_le]

theorem SpectrumInv.congr {s t : State} (inv : SpectrumInv s) (spec : t.spec = s.spec)
    (pubSpec : t.pub.spec = s.pub.spec) : SpectrumInv t := by
  constructor <;> simp only [spec, pubSpec]
  exacts [inv.fill_lt, inv.slot_lt, inv.hist_wf, inv.hist_below, inv.acc_wf, inv.acc_below,
    inv.pubSpec_wf, inv.pubSpec_below]

/-- A counter below a limit that its width can hold does not wrap. -/
theorem toNat_succ_of_lt {w n : Nat} {k : BitVec w} (hn : n < 2 ^ w) (h : k.toNat < n) :
    (k + 1).toNat = k.toNat + 1 := by
  have one : (1 : BitVec w).toNat = 1 :=
    (BitVec.toNat_ofNat 1 w).trans (Nat.mod_eq_of_lt (by omega))
  rw [BitVec.toNat_add, one, Nat.mod_eq_of_lt (by omega)]

/-- Such a counter stays below the limit unless it has just reached it. -/
theorem toNat_succ_lt {w n : Nat} {k : BitVec w} (hn : n < 2 ^ w) (h : k.toNat < n)
    (ne : (k + 1).toNat ≠ n) : (k + 1).toNat < n :=
  lt_of_le_of_ne ((toNat_succ_of_lt hn h).symm ▸ h) ne

/-! ## The building blocks of the capture unit -/

section
variable (c : Cfg Q) (x : Q) {s : State}

/-- In `INIT` it says that the two addresses and the scan counter are in the window and that
nothing is captured. -/
theorem CaptureInv.of_init {s : State} (init : s.trig.state = .init) (overrun : s.st.overrun = false)
    (index : s.cap.index.toNat < length c s) (start : s.cap.start.toNat < length c s)
    (count : s.cap.count.toNat = 0) (scan : s.cap.scan.toNat < length c s) : CaptureInv c s where
  index_lt := index
  start_lt := start
  count_le := count ▸ Nat.zero_le _
  scan_lt := scan
  not_next := by simp [init]
  init_count _ := count
  first_count := by simp [init]
  last_full := by simp [init]
  no_overrun := overrun
  freerun_init _ := init

theorem CaptureInv.enterInit (inv : CaptureInv c s) : CaptureInv c (enterInit s) :=
  .of_init c rfl inv.no_overrun inv.index_lt inv.start_lt rfl (length_pos s c)

theorem CaptureInv.publishCapture (inv : CaptureInv c s) (base : Nat) (fr : Bool) :
    CaptureInv c (publishCapture c base fr s) := inv.congr rfl rfl rfl rfl

theorem WindowInv.enterInit (inv : WindowInv s) : WindowInv (enterInit s) := inv.congr rfl rfl rfl

theorem WindowInv.publishCapture (inv : WindowInv s) (base : Nat) (fr : Bool) :
    WindowInv (publishCapture c base fr s) where
  ring_wf := inv.ring_wf
  ring_below := inv.ring_below
  pubCap_wf := Memory.setPrefix_wf _ _ inv.pubCap_wf
  pubCap_below := Memory.setPrefix_below _ inv.pubCap_below (length_le_capacity s c)
  capLen_pos := (publishCapture_capLen c s base fr).symm ▸ length_pos s c
  capLen_le := (publishCapture_capLen c s base fr).symm ▸ length_le_capacity s c

theorem WindowInv.ringWrite (inv : WindowInv s) (index : s.cap.index.toNat < length c s) :
    WindowInv (ringWrite c x s) where
  ring_wf := Memory.write_wf _ _ inv.ring_wf
  ring_below := Memory.write_below _ inv.ring_below (index.trans_le (length_le_capacity s c))
  pubCap_wf := inv.pubCap_wf
  pubCap_below := inv.pubCap_below
  capLen_pos := inv.capLen_pos
  capLen_le := inv.capLen_le

theorem WindowInv.settle (inv : WindowInv s) : WindowInv (settle c s) := by
  by_cases check : s.cap.index = s.cap.start ∧ s.cap.count.toNat = length c s
  · rw [settle_of_check c s check]
    refine WindowInv.publishCapture c ?_ _ _
    exact inv.congr rfl rfl rfl
  · rw [settle_of_not_check c s check]
    exact inv.congr rfl rfl rfl

theorem WindowInv.settleIfFull (inv : WindowInv s) : WindowInv (settleIfFull c s) := by
  unfold Machine.settleIfFull
  split
  · exact inv.settle c
  · exact inv

theorem WindowInv.freeRun (inv : WindowInv s) : WindowInv (freeRun c s) := by
  have flagged : WindowInv (s.withSt { s.st with freerun := true }) := inv.congr rfl rfl rfl
  exact (flagged.publishCapture c s.cap.index.toNat true).congr rfl rfl rfl

theorem WindowInv.initScan (inv : WindowInv s) (index : s.cap.index.toNat < length c s) :
    WindowInv (initScan c x s) := by
  have written := inv.ringWrite c x index
  unfold Machine.initScan
  dsimp only
  split
  · refine WindowInv.freeRun c ?_
    exact written.congr rfl rfl rfl
  · exact written.congr rfl rfl rfl

/-! ## Filling the window (R147, R151, R152, R161) -/

/-- The state of a detector in `FIRST` just after a sample was stored, when the window may be
complete: the write index stands `count` places after the trigger point. -/
structure Filling (c : Cfg Q) (s : State) : Prop where
  first : s.trig.state = .first
  overrun : s.st.overrun = false
  freerun : s.st.freerun = false
  start : s.cap.start.toNat < length c s
  scan : s.cap.scan.toNat < length c s
  count_pos : 0 < s.cap.count.toNat
  count_le : s.cap.count.toNat ≤ length c s
  index : s.cap.index.toNat = (s.cap.start.toNat + s.cap.count.toNat) % length c s

/-- After `length` samples the write index is back at the trigger point. -/
theorem Filling.index_eq_start (h : Filling c s) (full : s.cap.count.toNat = length c s) :
    s.cap.index = s.cap.start :=
  BitVec.eq_of_toNat_eq <| by
    rw [h.index, full, Nat.add_mod_right, Nat.mod_eq_of_lt h.start]

/-- R161: the verification of a complete window holds, so `LAST` is entered, never `OVERRUN`. -/
theorem Filling.settleIfFull (h : Filling c s) : CaptureInv c (settleIfFull c s) := by
  unfold Machine.settleIfFull
  split
  case isTrue full =>
    have back := h.index_eq_start c full
    rw [settle_of_check c s ⟨back, full⟩]
    refine CaptureInv.publishCapture c ?_ _ _
    exact
      { index_lt := back ▸ h.start
        start_lt := h.start
        count_le := h.count_le
        scan_lt := h.scan
        not_next := nofun
        init_count := nofun
        first_count := nofun
        last_full := fun _ => ⟨full, back⟩
        no_overrun := h.overrun
        freerun_init := fun fr => absurd (h.freerun.symm.trans fr) nofun }
  case isFalse notFull =>
    exact .of_first h.first h.overrun h.freerun h.start h.scan
      ⟨h.count_pos, h.count_le.lt_of_ne notFull, h.index⟩

/-- A 19-bit counter below the window's length does not wrap. -/
theorem toNat_succ_of_lt_length {n : BitVec 19} (h : n.toNat < length c s) :
    (n + 1).toNat = n.toNat + 1 :=
  toNat_succ_of_lt (n := capacity) (by decide) (h.trans_le (length_le_capacity s c))

theorem CaptureInv.initEdge (inv : CaptureInv c s) : CaptureInv c (initEdge c x s) := by
  refine Filling.settleIfFull c ?_
  exact
    { first := rfl
      overrun := inv.no_overrun
      freerun := rfl
      start := inv.index_lt
      scan := inv.scan_lt
      count_pos := (by decide : 0 < (1 : BitVec 19).toNat)
      count_le := (length_pos s c : 1 ≤ length c s)
      index := ringWrite_index c x (s.withCap { s.cap with start := s.cap.index }) }

theorem CaptureInv.firstFill (inv : CaptureInv c s) (first : s.trig.state = .first) :
    CaptureInv c (firstFill c x s) := by
  obtain ⟨count_pos, count_lt, index⟩ := inv.first_count first
  have count := toNat_succ_of_lt_length c count_lt
  refine Filling.settleIfFull c ?_
  exact
    { first := first
      overrun := inv.no_overrun
      freerun := Bool.eq_false_iff.mpr fun fr => nomatch first.symm.trans (inv.freerun_init fr)
      start := inv.start_lt
      scan := inv.scan_lt
      count_pos := by
        show 0 < (s.cap.count + 1).toNat
        omega
      count_le := by
        show (s.cap.count + 1).toNat ≤ length c s
        omega
      index := by
        refine (ringWrite_index c x s).trans ?_
        show _ = (s.cap.start.toNat + (s.cap.count + 1).toNat) % length c s
        rw [index, count, Nat.mod_add_mod, Nat.add_assoc] }

/-- R148, R150: the scan counter is back at 0 when it reaches the length. -/
theorem CaptureInv.initScan (inv : CaptureInv c s) (init : s.trig.state = .init) :
    CaptureInv c (initScan c x s) := by
  have scan := toNat_succ_of_lt_length c inv.scan_lt
  have index : (Machine.ringWrite c x s).cap.index.toNat < length c s :=
    (ringWrite_index c x s).symm ▸ Nat.mod_lt _ (length_pos s c)
  have count := inv.init_count init
  unfold Machine.initScan
  dsimp only
  split
  case isTrue => exact .of_init c init inv.no_overrun index inv.start_lt count (length_pos s c)
  case isFalse notFull =>
    have below : (s.cap.scan + 1).toNat < length c s :=
      lt_of_le_of_ne (scan.trans_le inv.scan_lt) notFull
    exact .of_init c init inv.no_overrun index inv.start_lt count below

theorem captureStep_captureInv (inv : CaptureInv c s) : CaptureInv c (captureStep c x s) := by
  rcases captureStep_cases c x s with
    ⟨-, -, e⟩ | ⟨init, -, e⟩ | ⟨first, e⟩ | ⟨next, -⟩ | ⟨-, e⟩
  · exact e ▸ inv.initEdge c x
  · exact e ▸ inv.initScan c x init
  · exact e ▸ inv.firstFill c x first
  · exact absurd next inv.not_next
  · exact e.symm ▸ inv

theorem captureStep_windowInv (inv : WindowInv s) (index : s.cap.index.toNat < length c s) :
    WindowInv (captureStep c x s) := by
  have edge : WindowInv (initEdge c x s) :=
    WindowInv.settleIfFull c <| WindowInv.congr
      (WindowInv.ringWrite c x (s := s.withCap { s.cap with start := s.cap.index })
        (inv.congr rfl rfl rfl) index) rfl rfl rfl
  have fill : WindowInv (firstFill c x s) :=
    WindowInv.settleIfFull c <| WindowInv.congr (inv.ringWrite c x index) rfl rfl rfl
  rcases captureStep_cases c x s with ⟨-, -, e⟩ | ⟨-, -, e⟩ | ⟨-, e⟩ | ⟨-, e⟩ | ⟨-, e⟩
  · exact e ▸ edge
  · exact e ▸ inv.initScan c x index
  · exact e ▸ fill
  · exact e ▸ inv.settle c
  · exact e.symm ▸ inv

/-! ## The callback boundary (R131) -/

theorem adoptModeAndTimebase_captureInv (inv : CaptureInv c s) :
    CaptureInv c (adoptModeAndTimebase s) := by
  by_cases same : s.req.tb = s.cap.tb
  · rw [adoptModeAndTimebase_same s same]
    exact { inv with }
  · rw [adoptModeAndTimebase_change s same]
    exact .of_init c rfl inv.no_overrun (count_pos c _) (count_pos c _) rfl (count_pos c _)

theorem adoptModeAndTimebase_windowInv (inv : WindowInv s) : WindowInv (adoptModeAndTimebase s) := by
  by_cases same : s.req.tb = s.cap.tb
  · rw [adoptModeAndTimebase_same s same]
    exact inv.congr rfl rfl rfl
  · rw [adoptModeAndTimebase_change s same]
    exact inv.congr rfl rfl rfl

theorem serveClear_captureInv (inv : CaptureInv c s) : CaptureInv c (serveClear c s) := by
  unfold serveClear
  split
  · exact .of_init c rfl inv.no_overrun (length_pos s c) (length_pos s c) rfl (length_pos s c)
  · exact inv

theorem clearCapture_windowInv (inv : WindowInv s) : WindowInv (clearCapture c s) := by
  refine WindowInv.publishCapture c ?_ 0 false
  exact
    { ring_wf := Memory.setPrefix_wf _ _ inv.ring_wf
      ring_below := Memory.setPrefix_below _ inv.ring_below (length_le_capacity s c)
      pubCap_wf := inv.pubCap_wf
      pubCap_below := inv.pubCap_below
      capLen_pos := inv.capLen_pos
      capLen_le := inv.capLen_le }

theorem serveClear_windowInv (inv : WindowInv s) : WindowInv (serveClear c s) := by
  unfold serveClear
  split
  · exact clearCapture_windowInv c inv
  · exact inv

/-- REARM and CONSUME do no more than enter `INIT` (R154, R155). -/
theorem serveRearm_cases (s : State) : serveRearm s = s ∨ serveRearm s = enterInit s := by
  unfold serveRearm
  split
  · exact (rearm_cases s).imp_right fun ⟨_, _, e⟩ => e
  · exact .inl rfl

theorem serveConsume_cases (s : State) : serveConsume s = s ∨ serveConsume s = enterInit s := by
  unfold serveConsume
  split
  · exact (consume_cases s).imp_right fun ⟨_, _, _, e⟩ => e
  · exact .inl rfl

/-- What holds whenever `INIT` is entered survives REARM and CONSUME. -/
theorem serveConsume_serveRearm_keeps {P : State → Prop} (enter : ∀ s, P s → P (enterInit s))
    {s : State} (h : P s) : P (serveConsume (serveRearm s)) := by
  have rearmed : P (serveRearm s) := by
    rcases serveRearm_cases s with e | e <;> rw [e]
    exacts [h, enter s h]
  rcases serveConsume_cases (serveRearm s) with e | e <;> rw [e]
  exacts [rearmed, enter _ rearmed]

theorem callbackBoundary_captureInv (inv : CaptureInv c s) :
    CaptureInv c (callbackBoundary c s) := by
  cases h : s.run with
  | false => rwa [callbackBoundary_stopped c s h]
  | true =>
    rw [callbackBoundary_running c s h]
    have cleared := serveClear_captureInv c (adoptModeAndTimebase_captureInv c inv)
    have served := serveConsume_serveRearm_keeps (fun _ inv => inv.enterInit c) cleared
    exact served.congr rfl rfl rfl rfl

theorem callbackBoundary_windowInv (inv : WindowInv s) : WindowInv (callbackBoundary c s) := by
  cases h : s.run with
  | false => rwa [callbackBoundary_stopped c s h]
  | true =>
    rw [callbackBoundary_running c s h]
    have cleared := serveClear_windowInv c (adoptModeAndTimebase_windowInv inv)
    have served := serveConsume_serveRearm_keeps (fun _ inv => inv.enterInit) cleared
    exact served.congr rfl rfl rfl

/-! ## The analyzer (R171, R173, R174) -/

/-! ## The analyzer (R171, R173, R174) -/

theorem SpectrumInv.subWindow (inv : SpectrumInv s) : SpectrumInv (subWindow c s) := by
  rw [subWindow_eq]
  split
  case isTrue =>
    exact
      { fill_lt := inv.fill_lt
        slot_lt := (by decide : 0 < kOversample)
        hist_wf := inv.hist_wf
        hist_below := inv.hist_below
        acc_wf := Memory.setPrefix_wf _ _ (Memory.setPrefix_wf _ _ inv.acc_wf)
        acc_below := Memory.setPrefix_below _ (Memory.setPrefix_below _ inv.acc_below le_rfl) le_rfl
        pubSpec_wf := Memory.setPrefix_wf _ _ inv.pubSpec_wf
        pubSpec_below := Memory.setPrefix_below _ inv.pubSpec_below le_rfl }
  case isFalse notLast =>
    exact
      { fill_lt := inv.fill_lt
        slot_lt := toNat_succ_lt (by decide) inv.slot_lt notLast
        hist_wf := inv.hist_wf
        hist_below := inv.hist_below
        acc_wf := Memory.setPrefix_wf _ _ inv.acc_wf
        acc_below := Memory.setPrefix_below _ inv.acc_below le_rfl
        pubSpec_wf := inv.pubSpec_wf
        pubSpec_below := inv.pubSpec_below }

/-- The store of a sample keeps all but the range of the counter it advances; `fill` is what the
counter is set to. -/
theorem SpectrumInv.stored (inv : SpectrumInv s) {fill : BitVec 11} (h : fill.toNat < kStep) :
    SpectrumInv ((stored x s).withSpec { (stored x s).spec with fill := fill }) where
  fill_lt := h
  slot_lt := inv.slot_lt
  hist_wf := Memory.write_wf _ _ inv.hist_wf
  hist_below := Memory.write_below _ inv.hist_below s.spec.hpos.isLt
  acc_wf := inv.acc_wf
  acc_below := inv.acc_below
  pubSpec_wf := inv.pubSpec_wf
  pubSpec_below := inv.pubSpec_below

theorem SpectrumInv.spectrumStep (inv : SpectrumInv s) : SpectrumInv (spectrumStep c x s) := by
  rw [spectrumStep_eq]
  split
  case isTrue => exact (inv.stored x (by decide)).subWindow c
  case isFalse notFull => exact inv.stored x (toNat_succ_lt (by decide) inv.fill_lt notFull)

end

/-! ## Every operation -/

section
variable {c : Cfg Q} {s t : State}

/-- A state that differs in nothing the invariant reads, but for a requested timebase in range. -/
theorem InvUnder.congr (inv : InvUnder c s) (cap : t.cap = s.cap) (trig : t.trig = s.trig)
    (spec : t.spec = s.spec) (pub : t.pub = { s.pub with levelShadow := t.pub.levelShadow })
    (overrun : t.st.overrun = s.st.overrun) (freerun : t.st.freerun = s.st.freerun)
    (reqTb : t.req.tb.toNat < tbEntries) : InvUnder c t := by
  obtain ⟨capture, window, spectrum, tb, -⟩ := (invUnder_iff c s).mp inv
  refine (invUnder_iff c t).mpr
    ⟨capture.congr cap (congrArg Trig.state trig) overrun freerun,
      window.congr (congrArg Cap.ring cap) ?_ ?_, spectrum.congr spec ?_, cap ▸ tb, reqTb⟩ <;>
  · rw [pub]

/-- The published length at `START` and `RESET` (R111, R112). -/
theorem toNat_ofNat_count (c : Cfg Q) (i : BitVec 4) :
    (BitVec.ofNat 19 (c.count i)).toNat = c.count i := by
  have h := count_le_capacity c i
  unfold capacity at h
  rw [BitVec.toNat_ofNat, Nat.mod_eq_of_lt (by omega)]

theorem WindowInv.of_empty (i : BitVec 4) (ring : s.cap.ring = []) (pubCap : s.pub.cap = [])
    (capLen : s.pub.capLen = BitVec.ofNat 19 (c.count i)) : WindowInv s := by
  have len : s.pub.capLen.toNat = c.count i := by rw [capLen, toNat_ofNat_count]
  constructor <;> simp only [ring, pubCap, len]
  exacts [rfl, rfl, rfl, rfl, count_pos c i, count_le_capacity c i]

theorem SpectrumInv.of_empty (spec : s.spec = ⟨[], 0, 0, [], 0⟩) (pubSpec : s.pub.spec = []) :
    SpectrumInv s := by
  constructor <;> simp only [spec, pubSpec] <;> decide

theorem resetEngine_inv (c : Cfg Q) (s : State) : InvUnder c (resetEngine c s) :=
  (invUnder_iff c _).mpr
    ⟨.of_init c rfl rfl (count_pos c 0) (count_pos c 0) rfl (count_pos c 0),
      .of_empty 0 rfl rfl rfl, .of_empty rfl rfl, (by decide : 0 < tbEntries),
      (by decide : 0 < tbEntries)⟩

theorem startEngine_inv (reqTb : s.req.tb.toNat < tbEntries) : InvUnder c (startEngine c s) :=
  (invUnder_iff c _).mpr
    ⟨.of_init c rfl rfl (count_pos c _) (count_pos c _) rfl (count_pos c _),
      .of_empty s.req.tb rfl rfl rfl, .of_empty rfl rfl, reqTb, reqTb⟩

theorem inputFrame_inv (x : Q) (inv : InvUnder c s) : InvUnder c (inputFrame c x s) := by
  cases run : s.run with
  | false => rwa [inputFrame_stopped c x s run]
  | true =>
    obtain ⟨capture, window, spectrum, tb, reqTb⟩ := (invUnder_iff c s).mp inv
    have frame := inputFrame_frame c x s
    have cap := inputFrame_cap c x s run
    have st := inputFrame_st c x s run
    obtain ⟨pubCap, capLen, -⟩ := inputFrame_pubCap c x s run
    obtain ⟨spec, pubSpec, -⟩ := inputFrame_spec c x s run
    refine (invUnder_iff c _).mpr ⟨?capture, ?window, ?spectrum, frame.tb ▸ tb, frame.req ▸ reqTb⟩
    case capture =>
      exact (captureStep_captureInv c x capture).congr cap
        (by rw [inputFrame_trig c x s run]) (congrArg Status.overrun st)
        (congrArg Status.freerun st)
    case window =>
      exact (captureStep_windowInv c x window capture.index_lt).congr (congrArg Cap.ring cap) pubCap
        capLen
    case spectrum => exact (spectrum.spectrumStep c x).congr spec pubSpec

theorem callbackBoundary_inv (run : s.run = true) (inv : InvUnder c s) :
    InvUnder c (callbackBoundary c s) := by
  obtain ⟨capture, window, spectrum, -, reqTb⟩ := (invUnder_iff c s).mp inv
  have frame := callbackBoundary_frame c s run
  obtain ⟨tb, -⟩ := callbackBoundary_adopts c s run
  exact (invUnder_iff c _).mpr
    ⟨callbackBoundary_captureInv c capture, callbackBoundary_windowInv c window,
      spectrum.congr frame.spec frame.pubSpec, tb ▸ reqTb, frame.req ▸ reqTb⟩

/-- Of the register writes only that of TIMEBASE touches what the invariant reads, and it takes an
index below 12; `OVERRUN`, which a STATUS write may clear, is 0 already. -/
theorem WriteEffect.inv {data : Word} {ra : RegAddr} (effect : WriteEffect c data s ra t)
    (inv : InvUnder c s) : InvUnder c t := by
  have reqTb := inv.range.reqTb_lt
  cases effect with
  | status =>
    have stays : (clearSticky data s.st).overrun = s.st.overrun := by
      obtain ⟨-, overrun, -, -⟩ := clearSticky_effect data s.st
      rw [overrun, inv.capture.no_overrun, Bool.false_and]
    exact inv.congr rfl rfl rfl rfl stays rfl reqTb
  | timebase i accepted =>
    obtain ⟨-, -, below⟩ := timebaseIndex_some accepted
    exact inv.congr rfl rfl rfl rfl rfl rfl below
  | configError | busError | toneFreq | toneAmp | mode | req | yscale =>
    exact inv.congr rfl rfl rfl rfl rfl rfl reqTb

theorem OpEffect.inv {i : Instr} (effect : OpEffect c s i t) (inv : InvUnder c s) :
    InvUnder c t := by
  have reqTb := inv.range.reqTb_lt
  cases effect with
  | idle => exact inv
  | reset => exact resetEngine_inv c s
  | start => exact startEngine_inv reqTb
  | stop | outf => exact inv.congr rfl rfl rfl rfl rfl rfl reqTb
  | incb running => exact callbackBoundary_inv running inv
  | inf d => exact inputFrame_inv _ inv
  | regw ra data _ effect => exact effect.inv inv
  | read _ _ frame =>
    exact inv.congr frame.cap frame.trig frame.spec frame.pub frame.overrun frame.freerun
      (frame.req ▸ reqTb)

/-- Every operation keeps the invariant, under every configuration. -/
theorem execUnder_inv {i : Instr} (h : execUnder c i s = .next t) (inv : InvUnder c s) :
    InvUnder c t := (execUnder_effect h).inv inv

end

theorem exec_inv {i : Instr} {s t : State} (h : exec i s = .next t) (inv : Inv s) : Inv t :=
  (exec_effect h).inv inv

/-- The invariant does not read the port. -/
theorem Inv.withPort {s : State} (inv : Inv s) (resp : Option Word) (ops : List OpWord) :
    Inv { s with resp := resp, ops := ops } :=
  InvUnder.congr inv rfl rfl rfl rfl rfl rfl inv.range.reqTb_lt

/-- Settles O37, by what stands at the port and then by the unit the operation works on. -/
theorem everyStepKeepsTheInvariant : Obligations.EveryStepKeepsTheInvariant := by
  intro s t inv h
  cases ops : s.ops with
  | nil =>
    rw [step_of_no_word ops] at h
    cases h
    exact inv
  | cons w rest =>
    cases decoded : decodeWord w with
    | error e => rw [step_of_illegal_word ops decoded] at h; cases h
    | ok i =>
      rw [step_of_legal_word ops decoded] at h
      exact exec_inv h (inv.withPort none rest)

/-- Settles O36: the state after `RESET` has all cursors 0 and all arrays empty. -/
theorem invariantHoldsAtReset : Obligations.InvariantHoldsAtReset := by
  refine ⟨resetEngine_inv Config.cfg State.reset, fun s t h => ?_⟩
  cases h
  exact resetEngine_inv Config.cfg s

end Sys2Proof.Machine
end

section
/-! SUPPORT. Who writes what: the sticky flags, `run`, the tone generator's state, the request bits
and the meter level. -/

namespace Sys2Proof.Machine

section
variable {c : Cfg Q} {i : Instr} {s t : State}

/-! ## The sticky flags (R31, R233) -/

/-- What may clear the sticky flag whose STATUS bit is `bit`. -/
def ClearsFlag (i : Instr) (s : State) (bit : Nat) : Prop :=
  i = .reset ∨ (i = .start ∧ s.run = false) ∨
    ∃ data : Word, i = .regw 0x00#8 data ∧ data.getLsbD bit = true

/-- A flag that a STATUS write clears has its bit written as 1 (R202). -/
theorem clearsFlag_of_status {flag : Bool} {data : Word} {bit : Nat} (set : flag = true)
    (cleared : (flag && !data.getLsbD bit) = false) : ClearsFlag (.regw 0x00#8 data) s bit :=
  .inr (.inr ⟨data, rfl, by simpa [set] using cleared⟩)

/-- A set sticky flag stays set unless its STATUS write, an effective `START` or `RESET` comes. -/
theorem OpEffect.sticky (effect : OpEffect c s i t) :
    (s.st.cfgerr = true → t.st.cfgerr = false → ClearsFlag i s 1) ∧
    (s.st.overrun = true → t.st.overrun = false → ClearsFlag i s 2) ∧
    (s.st.buserr = true → t.st.buserr = false → ClearsFlag i s 3) := by
  have contra {p : Prop} {b : Bool} (set : b = true) (clear : b = false) : p :=
    nomatch set.symm.trans clear
  cases effect with
  | reset => exact ⟨fun _ _ => .inl rfl, fun _ _ => .inl rfl, fun _ _ => .inl rfl⟩
  | start stopped =>
    have h : ∀ bit, ClearsFlag .start s bit := fun _ => .inr (.inl ⟨rfl, stopped⟩)
    exact ⟨fun _ _ => h 1, fun _ _ => h 2, fun _ _ => h 3⟩
  | idle | stop | outf => exact ⟨contra, contra, contra⟩
  | incb running =>
    have f := callbackBoundary_frame c s running
    exact ⟨fun h => contra (f.cfgerr.trans h), fun h => contra (f.overrun.trans h),
      fun h => contra (f.buserr.trans h)⟩
  | inf d =>
    have f := inputFrame_frame c (c.num.dec32 d) s
    exact ⟨fun h => contra (f.cfgerr.trans h), fun h => contra (inputFrame_keeps_overrun c _ s h),
      fun h => contra (f.buserr.trans h)⟩
  | read _ _ f =>
    exact ⟨fun h => contra (f.cfgerr.trans h), fun h => contra (f.overrun.trans h),
      fun h => contra (f.buserr h)⟩
  | regw ra data _ write =>
    cases write with
    | status => exact ⟨clearsFlag_of_status, clearsFlag_of_status, clearsFlag_of_status⟩
    | configError => exact ⟨fun _ => contra rfl, contra, contra⟩
    | busError => exact ⟨contra, contra, fun _ => contra rfl⟩
    | toneFreq | toneAmp | timebase | mode | req | yscale => exact ⟨contra, contra, contra⟩

/-! ## `run` and the tone generator (R22, R23) -/

theorem OpEffect.run_writers (effect : OpEffect c s i t) :
    t.run = s.run ∨ i = .start ∨ i = .stop ∨ i = .reset := by
  cases effect with
  | start | stop | reset => simp
  | idle | outf => exact .inl rfl
  | incb running => exact .inl (callbackBoundary_frame c s running).run
  | inf d => exact .inl (inputFrame_frame c _ s).run
  | read _ _ f => exact .inl f.run
  | regw ra data _ write => cases write <;> exact .inl rfl

/-- Each field of the tone generator is kept, or the operation is one of its writers. -/
def ToneKeptOrWritten (i : Instr) (s t : State) : Prop :=
  (t.tone.freq = s.tone.freq ∨ i = .reset ∨ ∃ data : Word, i = .regw 0x01#8 data) ∧
  (t.tone.amp = s.tone.amp ∨ i = .reset ∨ ∃ data : Word, i = .regw 0x02#8 data) ∧
  (t.tone.phase = s.tone.phase ∨ i = .outf ∨ i = .start ∨ i = .reset) ∧
  (t.tone.count = s.tone.count ∨ i = .outf ∨ i = .start ∨ i = .reset)

theorem toneKeptOrWritten_of_eq (h : t.tone = s.tone) : ToneKeptOrWritten i s t := by
  rw [ToneKeptOrWritten, h]
  exact ⟨.inl rfl, .inl rfl, .inl rfl, .inl rfl⟩

theorem OpEffect.toneKeptOrWritten (effect : OpEffect c s i t) : ToneKeptOrWritten i s t := by
  cases effect with
  | reset => exact ⟨.inr (.inl rfl), .inr (.inl rfl), by simp, by simp⟩
  | start | outf => exact ⟨.inl rfl, .inl rfl, by simp, by simp⟩
  | idle | stop => exact toneKeptOrWritten_of_eq rfl
  | incb running => exact toneKeptOrWritten_of_eq (callbackBoundary_frame c s running).tone
  | inf d => exact toneKeptOrWritten_of_eq (inputFrame_frame c _ s).tone
  | read _ _ f => exact toneKeptOrWritten_of_eq f.tone
  | regw ra data _ write =>
    cases write with
    | toneFreq => exact ⟨.inr (.inr ⟨data, rfl⟩), .inl rfl, .inl rfl, .inl rfl⟩
    | toneAmp => exact ⟨.inl rfl, .inr (.inr ⟨data, rfl⟩), .inl rfl, .inl rfl⟩
    | configError | busError | status | timebase | mode | req | yscale =>
      exact toneKeptOrWritten_of_eq rfl

/-! ## The request bits (R38, R207) -/

theorem OpEffect.request_bit_kept (effect : OpEffect c s i t) {bit : Nat}
    (set : s.req.flags.getLsbD bit = true) : t.req.flags.getLsbD bit = true ∨
      (i = .incb ∧ s.run = true) ∨ (i = .start ∧ s.run = false) ∨ i = .reset := by
  cases effect with
  | reset => simp
  | start stopped => simp [stopped]
  | incb running => simp [running]
  | idle | stop | outf => exact .inl set
  | inf d => exact .inl ((inputFrame_frame c _ s).req ▸ set)
  | read _ _ f => exact .inl (f.req ▸ set)
  | regw ra data _ write =>
    cases write with
    | req => exact .inl (by simp [set])
    | configError | busError | status | toneFreq | toneAmp | timebase | mode | yscale =>
      exact .inl set

/-! ## The meter level (R29, R191, R194) -/

/-- The level is in its range. -/
def MeterInRange (c : Cfg Q) (s : State) : Prop :=
  c.num.le c.kMeterMin s.meter.level = true ∧ c.num.le s.meter.level c.kMeterMax = true

theorem MeterInRange.congr (h : MeterInRange c s) (meter : t.meter = s.meter) :
    MeterInRange c t := by rwa [MeterInRange, meter]

end

/-- L3 with every value finite: `le` holds wherever `lt` the other way fails. -/
theorem lawOrder_le_of_not_lt {n : Numeric Q} (law : n.LawOrder) (finite : ∀ x, n.finite x = true)
    {x y : Q} (h : n.lt x y = false) : n.le y x = true := by
  by_contra hle
  obtain ⟨-, -, strict⟩ := law
  have lt : n.lt x y = true := (strict x y (finite x) (finite y)).mpr (Bool.eq_false_iff.mpr hle)
  exact nomatch h.symm.trans lt

section
variable {c : Cfg Q} {i : Instr} {s t : State} (law : c.num.LawOrder)
  (finite : ∀ x, c.num.finite x = true)
include law finite

theorem lawOrder_le_of_lt {x y : Q} (h : c.num.lt x y = true) : c.num.le x y = true := by
  obtain ⟨total, -, strict⟩ := law
  have notGe := (strict x y (finite x) (finite y)).mp h
  exact (total x y (finite x) (finite y)).resolve_right (Bool.eq_false_iff.mp notGe)

theorem lawOrder_le_refl (x : Q) : c.num.le x x = true :=
  (law.1 x x (finite x) (finite x)).elim id id

/-- The lower bound of the level, where `RESET` and `START` put it, is in the range (R7). -/
theorem meterMin_inRange (h : s.meter.level = c.kMeterMin) : MeterInRange c s := by
  rw [MeterInRange, h]
  exact ⟨lawOrder_le_refl law finite _, lawOrder_le_of_lt law finite c.meter_ok.2⟩

/-- R191: `Clamp` answers a value of the range. -/
theorem clampLevel_inRange (l : Q) :
    c.num.le c.kMeterMin (clampLevel c l) = true ∧
    c.num.le (clampLevel c l) c.kMeterMax = true := by
  have bounds : c.num.le c.kMeterMin c.kMeterMax = true := lawOrder_le_of_lt law finite c.meter_ok.2
  rcases clampLevel_cases c l with e | e | ⟨e, above, below⟩ <;> rw [e]
  · exact ⟨lawOrder_le_refl law finite _, bounds⟩
  · exact ⟨bounds, lawOrder_le_refl law finite _⟩
  · exact ⟨lawOrder_le_of_not_lt law finite above, lawOrder_le_of_not_lt law finite below⟩

/-- Only an input frame, `START` and `RESET` write the level: one clamps it, the others put it at
the lower bound. -/
theorem OpEffect.meter_inRange (effect : OpEffect c s i t) (h : MeterInRange c s) :
    MeterInRange c t := by
  cases effect with
  | reset => exact meterMin_inRange law finite rfl
  | start => exact meterMin_inRange law finite rfl
  | idle | stop | outf => exact h
  | incb running => exact h.congr (callbackBoundary_frame c s running).meter
  | inf d running =>
    rw [MeterInRange, inputFrame_meter c _ s running]
    exact clampLevel_inRange law finite _
  | read _ _ f => exact h.congr f.meter
  | regw ra data _ write => cases write <;> exact h

end

end Sys2Proof.Machine
end

section
/-! SUPPORT. YSCALE (R39): every operation but RESET and YSCALE's own accesses does the same whatever
its value, unit by unit. -/

namespace Sys2Proof.Machine

section
variable (c : Cfg Q) (x : Q) (s : State) (v : Word)

/-- A choice between two states, with another YSCALE in each. -/
theorem withYscale_ite (p : Prop) [Decidable p] (a b : State) :
    (if p then a else b).withYscale v = if p then a.withYscale v else b.withYscale v :=
  apply_ite (fun t : State => t.withYscale v) p a b

/-! ## INF -/

theorem settle_withYscale : settle c (s.withYscale v) = (settle c s).withYscale v := by
  simp only [settle, withYscale_ite]
  rfl

theorem settleIfFull_withYscale :
    settleIfFull c (s.withYscale v) = (settleIfFull c s).withYscale v := by
  simp only [settleIfFull, withYscale_ite, settle_withYscale]
  rfl

theorem initEdge_withYscale : initEdge c x (s.withYscale v) = (initEdge c x s).withYscale v := by
  simp only [initEdge, ← settleIfFull_withYscale]
  rfl

theorem firstFill_withYscale : firstFill c x (s.withYscale v) = (firstFill c x s).withYscale v := by
  simp only [firstFill, ← settleIfFull_withYscale]
  rfl

theorem initScan_withYscale : initScan c x (s.withYscale v) = (initScan c x s).withYscale v := by
  simp only [initScan, withYscale_ite]
  rfl

theorem captureStep_withYscale :
    captureStep c x (s.withYscale v) = (captureStep c x s).withYscale v := by
  rcases captureStep_cases c x s with ⟨h, q, e⟩ | ⟨h, q, e⟩ | ⟨h, e⟩ | ⟨h, e⟩ | ⟨h, e⟩ <;> rw [e]
  · rw [captureStep_init_edge c x (s.withYscale v) h q]
    exact initEdge_withYscale c x s v
  · rw [captureStep_init_scan c x (s.withYscale v) h q]
    exact initScan_withYscale c x s v
  · rw [captureStep_first c x (s.withYscale v) h]
    exact firstFill_withYscale c x s v
  · rw [captureStep_next c x (s.withYscale v) h]
    exact settle_withYscale c s v
  · exact captureStep_last c x (s.withYscale v) h

theorem subWindow_withYscale : subWindow c (s.withYscale v) = (subWindow c s).withYscale v := by
  rw [subWindow_eq, subWindow_eq, withYscale_ite]
  rfl

theorem spectrumStep_withYscale :
    spectrumStep c x (s.withYscale v) = (spectrumStep c x s).withYscale v := by
  rw [spectrumStep_eq, spectrumStep_eq, withYscale_ite, ← subWindow_withYscale]
  rfl

theorem inputFrame_withYscale :
    inputFrame c x (s.withYscale v) = (inputFrame c x s).withYscale v := by
  cases run : s.run with
  | false => rw [inputFrame_stopped c x s run, inputFrame_stopped c x (s.withYscale v) run]
  | true =>
    rw [inputFrame_running c x s run, inputFrame_running c x (s.withYscale v) run,
      captureStep_withYscale, spectrumStep_withYscale]
    rfl

/-! ## INCB -/

theorem adoptModeAndTimebase_withYscale :
    adoptModeAndTimebase (s.withYscale v) = (adoptModeAndTimebase s).withYscale v := by
  simp only [adoptModeAndTimebase, withYscale_ite]
  rfl

theorem serveClear_withYscale : serveClear c (s.withYscale v) = (serveClear c s).withYscale v := by
  simp only [serveClear, withYscale_ite]
  rfl

theorem rearm_withYscale : rearm (s.withYscale v) = (rearm s).withYscale v := by
  simp only [rearm, withYscale_ite]
  rfl

theorem serveRearm_withYscale : serveRearm (s.withYscale v) = (serveRearm s).withYscale v := by
  simp only [serveRearm, withYscale_ite, rearm_withYscale]
  rfl

theorem consume_withYscale : consume (s.withYscale v) = (consume s).withYscale v := by
  simp only [consume, withYscale_ite]
  rfl

theorem serveConsume_withYscale :
    serveConsume (s.withYscale v) = (serveConsume s).withYscale v := by
  simp only [serveConsume, withYscale_ite, consume_withYscale]
  rfl

theorem callbackBoundary_withYscale :
    callbackBoundary c (s.withYscale v) = (callbackBoundary c s).withYscale v := by
  cases run : s.run with
  | false =>
    rw [callbackBoundary_stopped c s run, callbackBoundary_stopped c (s.withYscale v) run]
  | true =>
    rw [callbackBoundary_running c s run, callbackBoundary_running c (s.withYscale v) run,
      adoptModeAndTimebase_withYscale, serveRequests, serveClear_withYscale, serveRearm_withYscale,
      serveConsume_withYscale]
    rfl

/-! ## Host access, START, OUTF -/

theorem writeReg_withYscale {r : HostReg} (other : r ≠ .yscale) (data : Word) :
    writeReg c r data (s.withYscale v) = (writeReg c r data s).withYscale v := by
  cases r with
  | yscale => exact absurd rfl other
  | toneFreq => simp only [writeReg, writeToneFreq, withYscale_ite]; rfl
  | toneAmp => simp only [writeReg, writeToneAmp, withYscale_ite]; rfl
  | timebase =>
    simp only [writeReg, writeTimebase]
    split <;> rfl
  | status | toneCount | tonePhase | mode | req | rdFreq | rdLevel | meter | capSeq | capLen
  | capXscale | capInfo | specSeq => rfl

theorem registerWrite_withYscale {ra : RegAddr} (other : ra ≠ 0x08#8) (data : Word) :
    registerWrite c ra data (s.withYscale v) = (registerWrite c ra data s).withYscale v := by
  cases h : hostReg ra with
  | none => simp only [registerWrite, h]; rfl
  | some r =>
    obtain rfl := addr_of_hostReg h
    rw [registerWrite_addr, registerWrite_addr]
    exact writeReg_withYscale c s v (fun e => other (congrArg HostReg.addr e)) data

theorem regValue_withYscale {r : HostReg} (other : r ≠ .yscale) :
    regValue c r (s.withYscale v) = regValue c r s := by
  cases r with
  | yscale => exact absurd rfl other
  | status | toneFreq | toneAmp | toneCount | tonePhase | timebase | mode | req | rdFreq | rdLevel
  | meter | capSeq | capLen | capXscale | capInfo | specSeq => rfl

theorem readEffect_withYscale (r : HostReg) :
    readEffect r (s.withYscale v) = (readEffect r s).withYscale v := by
  simp only [readEffect, withYscale_ite]
  rfl

theorem registerRead_withYscale {ra : RegAddr} (other : ra ≠ 0x08#8) :
    registerRead c ra (s.withYscale v) = (registerRead c ra s).withYscale v := by
  cases h : hostReg ra with
  | none => simp only [registerRead, h]; rfl
  | some r =>
    obtain rfl := addr_of_hostReg h
    rw [registerRead_addr, registerRead_addr, readEffect_withYscale,
      regValue_withYscale c s v (fun e => other (congrArg HostReg.addr e))]
    rfl

theorem readCapture_withYscale (addr : Word) :
    readCapture c addr (s.withYscale v) = (readCapture c addr s).withYscale v := by
  simp only [readCapture, withYscale_ite]
  rfl

theorem readSpectrum_withYscale (addr : Word) :
    readSpectrum c addr (s.withYscale v) = (readSpectrum c addr s).withYscale v := by
  simp only [readSpectrum, withYscale_ite]
  rfl

theorem start_withYscale : start c (s.withYscale v) = (start c s).withYscale v := by
  simp only [start, withYscale_ite]
  rfl

theorem outputFrame_withYscale :
    outputFrame c (s.withYscale v) = (outputFrame c s).withYscale v := by
  simp only [outputFrame, withYscale_ite]
  rfl

end

/-- With another YSCALE, an operation that neither sets nor reads it gives the same state with that
YSCALE. -/
theorem execUnder_withYscale {c : Cfg Q} {i : Instr} {s t : State} (notReset : i ≠ .reset)
    (notRead : i ≠ .regr 0x08#8) (notWrite : ∀ data, i ≠ .regw 0x08#8 data)
    (h : execUnder c i s = .next t) (v : Word) :
    execUnder c i (s.withYscale v) = .next (t.withYscale v) := by
  have next {a b : State} : a = b → Host.Outcome.next (φ := Fault) (ρ := Refusal) a = .next b :=
    congrArg _
  cases i with
  | nop | stop => cases h; rfl
  | reset => exact absurd rfl notReset
  | start => cases h; exact next (start_withYscale c s v)
  | incb => cases h; exact next (callbackBoundary_withYscale c s v)
  | inf d =>
    obtain ⟨finite, rfl⟩ := inputSample_next h
    exact (inputSample_finite c d _ finite).trans (next (inputFrame_withYscale c _ s v))
  | outf => cases h; exact next (outputFrame_withYscale c s v)
  | regw ra data =>
    cases h
    exact next (registerWrite_withYscale c s v (fun e => notWrite data (e ▸ rfl)) data)
  | regr ra => cases h; exact next (registerRead_withYscale c s v (fun e => notRead (e ▸ rfl)))
  | rdcap addr => cases h; exact next (readCapture_withYscale c s v addr)
  | rdspec addr => cases h; exact next (readSpectrum_withYscale c s v addr)

end Sys2Proof.Machine
end

section
/-! SUPPORT. The statements about the state's own fields: invariants, writers, and the host registers
TONE_FREQ to YSCALE and STATUS. -/

namespace Sys2Proof.Machine

/-- Settles O41, by what the operation did. -/
theorem stickyFlagsStaySet : Obligations.StickyFlagsStaySet :=
  fun _ _ _ h => (exec_effect h).sticky

/-- Settles O44, by what the operation did. -/
theorem runAndToneStateHaveTheirWriters : Obligations.RunAndToneStateHaveTheirWriters := by
  intro i s t h
  have effect := exec_effect h
  obtain ⟨freq, amp, phase, count⟩ := effect.toneKeptOrWritten
  exact ⟨effect.run_writers.resolve_left, freq.resolve_left, amp.resolve_left, phase.resolve_left,
    count.resolve_left⟩

/-! ## Host registers -/

theorem freqAccepted_iff (c : Cfg Q) (data : Word) : freqAccepted c data = true ↔
    finitePattern data = true ∧ c.num.le c.kToneFreqMin (c.num.dec32 data) = true ∧
      c.num.le (c.num.dec32 data) c.kToneFreqMax = true := by
  simp [freqAccepted, and_assoc]

theorem ampAccepted_iff (c : Cfg Q) (data : Word) : ampAccepted c data = true ↔
    finitePattern data = true ∧ c.num.le 0 (c.num.dec32 data) = true ∧
      c.num.le (c.num.dec32 data) c.kToneAmpMax = true := by
  simp [ampAccepted, and_assoc]

/-- Settles O46: the acceptance test is the one of R34. -/
theorem regwToneFreqIsChecked : Obligations.RegwToneFreqIsChecked := by
  refine ⟨fun data s => ?write, fun s => exec_regr_addr (r := .toneFreq) nofun s, ?reset⟩
  case write =>
    refine (exec_regw_addr .toneFreq data s).trans (congrArg _ ?_)
    exact if_congr (freqAccepted_iff _ data) rfl rfl
  case reset => exact Config.cfg.num.dec32_zero.symm

/-- Settles O47: the acceptance test is the one of R35. -/
theorem regwToneAmpIsChecked : Obligations.RegwToneAmpIsChecked := by
  refine ⟨fun data s => ?write, fun s => exec_regr_addr (r := .toneAmp) nofun s⟩
  case write =>
    refine (exec_regw_addr .toneAmp data s).trans (congrArg _ ?_)
    exact if_congr (ampAccepted_iff _ data) rfl rfl

theorem writeTimebase_accepted {data : Word} (h : data.toNat < tbEntries) (s : State) :
    writeTimebase data s = s.withReq { s.req with tb := data.extractLsb' 0 4 } := by
  rw [writeTimebase, timebaseIndex_of_lt h]

theorem writeTimebase_rejected {data : Word} (h : tbEntries ≤ data.toNat) (s : State) :
    writeTimebase data s = raise .config s := by
  rw [writeTimebase, timebaseIndex_of_ge h]

/-- Settles O48: the write by the index it selects, the adoption by `INCB`'s first steps. -/
theorem regwTimebaseIsChecked : Obligations.RegwTimebaseIsChecked := by
  refine ⟨fun data s h => ?accepted, fun data s h => ?rejected,
    fun s => exec_regr_addr (r := .timebase) nofun s, fun s t running h => ?adopted⟩
  case accepted =>
    exact (exec_regw_addr .timebase data s).trans (congrArg _ (writeTimebase_accepted h s))
  case rejected =>
    exact (exec_regw_addr .timebase data s).trans (congrArg _ (writeTimebase_rejected h s))
  case adopted =>
    cases h
    exact (callbackBoundary_adopts _ s running).1

/-- Settles O49. -/
theorem regwModeTakesFiveBits : Obligations.RegwModeTakesFiveBits :=
  ⟨exec_regw_addr .mode, exec_regr_addr (r := .mode) nofun⟩

/-- Settles O50: the last part by what the operation did. -/
theorem regwReqAccumulates : Obligations.RegwReqAccumulates := by
  refine ⟨exec_regw_addr .req, exec_regr_addr (r := .req) nofun, fun i s t bit h set clear => ?_⟩
  exact ((exec_effect h).request_bit_kept set).resolve_left (Bool.eq_false_iff.mp clear)

/-- Settles O51: the operation commutes with giving YSCALE another value, and giving it the value it
has changes nothing, so it is kept. -/
theorem yscaleIsStoredAndReadByNothing : Obligations.YscaleIsStoredAndReadByNothing := by
  refine ⟨exec_regw_addr .yscale, exec_regr_addr (r := .yscale) nofun, rfl,
    fun i s t v notReset notRead notWrite h => ?_⟩
  have commutes (v : Word) : exec i (s.withYscale v) = .next (t.withYscale v) := by
    rw [exec_eq_execUnder] at h ⊢
    exact execUnder_withYscale notReset notRead notWrite h v
  have same : t = t.withYscale s.yscale := Host.Outcome.next.inj (h.symm.trans (commutes s.yscale))
  have kept : t.yscale = (t.withYscale s.yscale).yscale := congrArg State.yscale same
  exact ⟨kept, commutes v⟩

/-! ## STATUS (R26, R33) -/

/-- The code of a trigger state, bit by bit. -/
theorem code_getLsbD (trig : TrigState) :
    trig.code.getLsbD 0 = decide (trig = .first ∨ trig = .last) ∧
    trig.code.getLsbD 1 = decide (trig = .next ∨ trig = .last) := by
  cases trig <;> decide

/-- Every bit of the `STATUS` word, by the field it stands in. -/
theorem statusWord_getLsbD (run : Bool) (st : Status) (trig : TrigState) (k : Nat) :
    (statusWord run st trig).getLsbD k =
      if k < 1 then (BitVec.ofBool run).getLsbD k
      else if k - 1 < 1 then (BitVec.ofBool st.cfgerr).getLsbD (k - 1)
      else if k - 2 < 1 then (BitVec.ofBool st.overrun).getLsbD (k - 2)
      else if k - 3 < 1 then (BitVec.ofBool st.buserr).getLsbD (k - 3)
      else if k - 4 < 1 then (BitVec.ofBool st.freerun).getLsbD (k - 4)
      else if k - 5 < 3 then false
      else if k - 8 < 2 then trig.code.getLsbD (k - 8)
      else false := by
  have fields : (statusWord run st trig).getLsbD k =
    (0#22 ++ trig.code ++ 0#3 ++ BitVec.ofBool st.freerun ++ BitVec.ofBool st.buserr ++
      BitVec.ofBool st.overrun ++ BitVec.ofBool st.cfgerr ++ BitVec.ofBool run :
      BitVec (22 + 2 + 3 + 1 + 1 + 1 + 1 + 1)).getLsbD k := rfl
  rw [fields]
  simp only [BitVec.getLsbD_append, BitVec.getLsbD_zero, Nat.sub_sub]

/-- Settles O54, by the field the bit stands in. -/
theorem statusWordHasItsBits : Obligations.StatusWordHasItsBits := by
  intro run st trig k
  obtain ⟨low, high⟩ := code_getLsbD trig
  rw [statusWord_getLsbD]
  match k with
  | 0 | 1 | 2 | 3 | 4 | 5 | 6 | 7 => simp
  | 8 => simpa using low
  | 9 => simpa using high
  | k + 10 => simp

/-! ## The level meter -/

/-- Settles O58: `Clamp` answers a value of the range, whatever the smoothing made. -/
theorem meterLevelStaysInRange : Obligations.MeterLevelStaysInRange :=
  fun _ law finite =>
    ⟨meterMin_inRange law finite rfl,
      fun _ _ _ h execd => (execUnder_effect execd).meter_inRange law finite h⟩

end Sys2Proof.Machine
end

section
/-! SUPPORT. Bytes: an operation word, and a frame, is its bytes put together again, the last one
highest (R62, R90, R2). -/

namespace Sys2Proof

/-! ## Decoding an encoding (R90, R92) -/

/-- The code of an operation selects its row of the decoder, whose operands are the encoded ones and
whose reserved fields are zero. -/
theorem decodeWord_encode (i : Instr) : decodeWord (encode i) = .ok i := by
  obtain ⟨op, ra, z, data⟩ := Laws.encode_fields i
  cases i with
  | nop | reset | start | stop | incb | outf | inf | regw | regr | rdcap | rdspec =>
    simp [decodeWord, op, ra, z, data, opcode, raOperand, dataOperand, checkReserved_ok]

/-! ## Operation words -/

/-- A field and the byte just below it in the word make up one field. -/
theorem extractLsb'_append_byte {w n start high : Nat} (v : BitVec w) (h : high = start + 8) :
    v.extractLsb' high n ++ v.extractLsb' start 8 = v.extractLsb' start (n + 8) :=
  BitVec.extractLsb'_append_extractLsb'_eq_extractLsb' h

theorem toBytes_getElem? (w : OpWord) {k : Nat} (h : k < 8) :
    (toBytes w)[k]? = some (w.extractLsb' (8 * k) 8) := by
  match k with
  | 0 | 1 | 2 | 3 | 4 | 5 | 6 | 7 => rfl

/-- The eight bytes, the last one highest, are the word. -/
theorem wordOfBytes_toBytes (w : OpWord) (rest : List Byte) :
    wordOfBytes (toBytes w ++ rest) = some (w, rest) := by
  have bytes : w.extractLsb' 56 8 ++ w.extractLsb' 48 8 ++ w.extractLsb' 40 8 ++
      w.extractLsb' 32 8 ++ w.extractLsb' 24 8 ++ w.extractLsb' 16 8 ++ w.extractLsb' 8 8 ++
      w.extractLsb' 0 8 = w := by
    simp [extractLsb'_append_byte]
  exact congrArg (fun v => some (v, rest)) bytes

theorem decodeBytes_toBytes_encode (i : Instr) (rest : List Byte) :
    decodeBytes (toBytes (encode i) ++ rest) = .ok (i, rest) := by
  rw [decodeBytes, wordOfBytes_toBytes]
  simp only [decodeWord_encode]

theorem wordOfBytes_eq_none {bs : List Byte} (h : bs.length < 8) : wordOfBytes bs = none := by
  unfold wordOfBytes
  split
  case h_1 => simp only [List.length_cons] at h; omega
  case h_2 => rfl

theorem decodeBytes_truncated {bs : List Byte} (h : bs.length < 8) :
    decodeBytes bs = .error .truncated := by
  rw [decodeBytes, wordOfBytes_eq_none h]

/-! ## Frames -/

theorem frameToBytes_getElem? (frame : Word) {k : Nat} (h : k < frameBytes) :
    (frameToBytes frame)[k]? = some (frame.extractLsb' (8 * k) 8) := by
  unfold frameBytes at h
  match k with
  | 0 | 1 | 2 | 3 => rfl

/-- The four bytes, the last one highest, are the frame. -/
theorem frameBytes_append (frame : Word) : frame.extractLsb' 24 8 ++ frame.extractLsb' 16 8 ++
    frame.extractLsb' 8 8 ++ frame.extractLsb' 0 8 = frame := by
  simp [extractLsb'_append_byte]

theorem frameOfBytes_frameToBytes (frame : Word) (rest : List Byte) :
    frameOfBytes (frameToBytes frame ++ rest) = some (frame, rest) :=
  congrArg (fun v => some (v, rest)) (frameBytes_append frame)

theorem framesToBytes_length (ds : List Word) :
    (framesToBytes ds).length = frameBytes * ds.length := by
  induction ds with
  | nil => rfl
  | cons d ds ih =>
    have head : (framesToBytes (d :: ds)).length = frameBytes + (framesToBytes ds).length := by
      rw [framesToBytes, List.flatMap_cons, List.length_append]; rfl
    rw [head, ih, List.length_cons, Nat.mul_add_one, Nat.add_comm]

theorem framesOfBytes_framesToBytes (ds : List Word) :
    framesOfBytes (framesToBytes ds) = some ds := by
  induction ds with
  | nil => rfl
  | cons d ds ih =>
    have head : framesOfBytes (framesToBytes (d :: ds)) =
        (framesOfBytes (framesToBytes ds)).map ((d.extractLsb' 24 8 ++ d.extractLsb' 16 8 ++
          d.extractLsb' 8 8 ++ d.extractLsb' 0 8) :: ·) := rfl
    rw [head, ih, frameBytes_append, Option.map_some]

/-- Settles O3: an operation word and a frame by their bytes, a stream frame by frame. -/
theorem wordsSerialiseLittleEndian : Obligations.WordsSerialiseLittleEndian :=
  ⟨fun w => ⟨rfl, fun _ => toBytes_getElem? w⟩, wordOfBytes_toBytes, decodeBytes_toBytes_encode,
    fun _ => decodeBytes_truncated, fun frame => ⟨rfl, fun _ => frameToBytes_getElem? frame⟩,
    frameOfBytes_frameToBytes,
    fun ds => ⟨framesToBytes_length ds, framesOfBytes_framesToBytes ds⟩⟩

end Sys2Proof
end

section
/-! SUPPORT. Publication (R70, R75): each unit keeps everything published or publishes once, and an
operation publishes only through the units it runs. -/

namespace Sys2Proof.Machine

section
variable (c : Cfg Q) (x : Q) (s : State)

/-! ## The capture unit -/

/-- The capture unit publishes nothing, or one window. -/
def CapturePublishes (s t : State) : Prop := t.pub = s.pub ∨ t.pub.capSeq = s.pub.capSeq + 1

theorem settle_publishes : CapturePublishes s (settle c s) := by
  by_cases check : s.cap.index = s.cap.start ∧ s.cap.count.toNat = length c s
  · rw [settle_of_check c s check]; exact .inr rfl
  · rw [settle_of_not_check c s check]; exact .inl rfl

theorem settleIfFull_publishes : CapturePublishes s (settleIfFull c s) := by
  unfold settleIfFull
  split
  · exact settle_publishes c s
  · exact .inl rfl

theorem initScan_publishes : CapturePublishes s (initScan c x s) := by
  unfold initScan
  dsimp only
  split
  · exact .inr rfl
  · exact .inl rfl

/-- The stores before the verification of a window publish nothing. -/
theorem captureStep_publishes : CapturePublishes s (captureStep c x s) := by
  rcases captureStep_cases c x s with ⟨-, -, e⟩ | ⟨-, -, e⟩ | ⟨-, e⟩ | ⟨-, e⟩ | ⟨-, e⟩ <;> rw [e]
  · exact settleIfFull_publishes c _
  · exact initScan_publishes c x s
  · exact settleIfFull_publishes c _
  · exact settle_publishes c s
  · exact .inl rfl

/-! ## INCB -/

theorem adoptModeAndTimebase_pub : (adoptModeAndTimebase s).pub = s.pub := by
  by_cases same : s.req.tb = s.cap.tb
  · rw [adoptModeAndTimebase_same s same]; rfl
  · rw [adoptModeAndTimebase_change s same]; rfl

theorem serveClear_publishes : CapturePublishes s (serveClear c s) := by
  unfold serveClear
  split
  · exact .inr rfl
  · exact .inl rfl

/-- Of the steps of `INCB` only CLEAR publishes. -/
theorem serveRequests_pub : (serveRequests c s).pub = (serveClear c s).pub :=
  serveConsume_serveRearm_keeps (P := fun t => t.pub = (serveClear c s).pub) (fun _ h => h) rfl

theorem callbackBoundary_publishes (running : s.run = true) :
    CapturePublishes s (callbackBoundary c s) := by
  rw [callbackBoundary_running c s running, CapturePublishes, serveRequests_pub,
    ← adoptModeAndTimebase_pub s]
  exact serveClear_publishes c _

/-! ## The analyzer -/

/-- The analyzer publishes nothing, or one spectrum. -/
def SpectrumPublishes (s t : State) : Prop := t.pub = s.pub ∨ t.pub.specSeq = s.pub.specSeq + 1

theorem subWindow_publishes : SpectrumPublishes s (subWindow c s) := by
  rw [subWindow_eq]
  split
  · exact .inr rfl
  · exact .inl rfl

theorem spectrumStep_publishes : SpectrumPublishes s (spectrumStep c x s) := by
  rw [spectrumStep_eq]
  split
  · exact subWindow_publishes c _
  · exact .inl rfl

end

/-! ## Any operation -/

section
variable {c : Cfg Q} {i : Instr} {s t : State}

/-- The published window and its description are kept, or `INF` or `INCB` published a window. -/
def WindowKeptOrPublished (i : Instr) (s t : State) : Prop :=
  (t.pub.cap = s.pub.cap ∧ t.pub.capLen = s.pub.capLen ∧ t.pub.capXscale = s.pub.capXscale ∧
    t.pub.capFreerun = s.pub.capFreerun ∧ t.pub.capSeq = s.pub.capSeq) ∨
  (t.pub.capSeq = s.pub.capSeq + 1 ∧ ((∃ d, i = .inf d) ∨ i = .incb))

/-- The published spectrum and readout are kept, or `INF` published a spectrum. -/
def SpectrumKeptOrPublished (i : Instr) (s t : State) : Prop :=
  (t.pub.spec = s.pub.spec ∧ t.pub.freq = s.pub.freq ∧ t.pub.level = s.pub.level ∧
    t.pub.specSeq = s.pub.specSeq) ∨
  (t.pub.specSeq = s.pub.specSeq + 1 ∧ ∃ d, i = .inf d)

/-- All that a publication writes is kept where at most the shadow of the level changes (R40). -/
theorem kept_of_pub {v : Q} (h : t.pub = { s.pub with levelShadow := v }) :
    WindowKeptOrPublished i s t ∧ SpectrumKeptOrPublished i s t := by
  rw [WindowKeptOrPublished, SpectrumKeptOrPublished, h]
  exact ⟨.inl ⟨rfl, rfl, rfl, rfl, rfl⟩, .inl ⟨rfl, rfl, rfl, rfl⟩⟩

theorem callbackBoundary_window (running : s.run = true) :
    WindowKeptOrPublished .incb s (callbackBoundary c s) := by
  rcases callbackBoundary_publishes c s running with kept | seq
  · exact (kept_of_pub kept).1
  · exact .inr ⟨seq, .inr rfl⟩

theorem callbackBoundary_spectrum (running : s.run = true) :
    SpectrumKeptOrPublished .incb s (callbackBoundary c s) := by
  rw [callbackBoundary_running c s running]
  have f := serveRequests_frame c (adoptModeAndTimebase s)
  have e := adoptModeAndTimebase_pub s
  exact .inl ⟨f.pubSpec.trans (congrArg Pub.spec e), f.freq.trans (congrArg Pub.freq e),
    f.level.trans (congrArg Pub.level e), f.specSeq.trans (congrArg Pub.specSeq e)⟩

theorem inputFrame_window (d : Word) (x : Q) (running : s.run = true) :
    WindowKeptOrPublished (.inf d) s (inputFrame c x s) := by
  obtain ⟨cap, len, xscale, freerun, capSeq⟩ := inputFrame_pubCap c x s running
  rw [WindowKeptOrPublished, cap, len, xscale, freerun, capSeq]
  rcases captureStep_publishes c x s with kept | seq
  · exact (kept_of_pub kept).1
  · exact .inr ⟨seq, .inl ⟨d, rfl⟩⟩

theorem inputFrame_spectrum (d : Word) (x : Q) (running : s.run = true) :
    SpectrumKeptOrPublished (.inf d) s (inputFrame c x s) := by
  obtain ⟨-, spec, specSeq, freq, level⟩ := inputFrame_spec c x s running
  rw [SpectrumKeptOrPublished, spec, specSeq, freq, level]
  rcases spectrumStep_publishes c x s with kept | seq
  · exact (kept_of_pub kept).2
  · exact .inr ⟨seq, d, rfl⟩

theorem OpEffect.published (effect : OpEffect c s i t) (notStart : i ≠ .start)
    (notReset : i ≠ .reset) : WindowKeptOrPublished i s t ∧ SpectrumKeptOrPublished i s t := by
  cases effect with
  | reset => exact absurd rfl notReset
  | start => exact absurd rfl notStart
  | idle | stop | outf => exact kept_of_pub rfl
  | incb running => exact ⟨callbackBoundary_window running, callbackBoundary_spectrum running⟩
  | inf d running => exact ⟨inputFrame_window d _ running, inputFrame_spectrum d _ running⟩
  | read _ _ f => exact kept_of_pub f.pub
  | regw ra data _ write => cases write <;> exact kept_of_pub rfl

end

/-- Settles O40, by what the operation did. -/
theorem publishedStateChangesOnlyByPublication :
    Obligations.PublishedStateChangesOnlyByPublication :=
  fun _ _ _ h => (exec_effect h).published

end Sys2Proof.Machine
end

section
/-! SUPPORT. The output path (R67): `OUTF` writes the tone generator and the response, which `INF`
and `INCB` keep and do not read, so it commutes with them. -/

namespace Sys2Proof.Machine

/-- `s` with another tone generator and another response: all that `OUTF` writes (R121). -/
def State.withOutput (s : State) (tone : Tone) (resp : Option Word) : State :=
  (s.withTone tone).withResp resp

section
variable (c : Cfg Q) (x : Q) (s : State) (tone : Tone) (resp : Option Word)

/-- A choice between two states, with another output in each. -/
theorem withOutput_ite (p : Prop) [Decidable p] (a b : State) :
    (if p then a else b).withOutput tone resp =
      if p then a.withOutput tone resp else b.withOutput tone resp :=
  apply_ite (fun t : State => t.withOutput tone resp) p a b

/-! ## INF -/

theorem settle_withOutput :
    settle c (s.withOutput tone resp) = (settle c s).withOutput tone resp := by
  simp only [settle, withOutput_ite]
  rfl

theorem settleIfFull_withOutput :
    settleIfFull c (s.withOutput tone resp) = (settleIfFull c s).withOutput tone resp := by
  simp only [settleIfFull, withOutput_ite, settle_withOutput]
  rfl

theorem captureStep_withOutput :
    captureStep c x (s.withOutput tone resp) = (captureStep c x s).withOutput tone resp := by
  have same : (s.withOutput tone resp).trig.state = s.trig.state := rfl
  unfold captureStep
  rw [same]
  cases s.trig.state with
  | init =>
    simp only [initEdge, initScan, withOutput_ite, ← settleIfFull_withOutput]
    rfl
  | first =>
    simp only [firstFill, ← settleIfFull_withOutput]
    rfl
  | next => exact settle_withOutput c s tone resp
  | last => rfl

theorem spectrumStep_withOutput :
    spectrumStep c x (s.withOutput tone resp) = (spectrumStep c x s).withOutput tone resp := by
  simp only [spectrumStep_eq, subWindow_eq, withOutput_ite]
  rfl

theorem inputFrame_withOutput :
    inputFrame c x (s.withOutput tone resp) = (inputFrame c x s).withOutput tone resp := by
  rw [inputFrame, inputFrame, captureStep_withOutput, spectrumStep_withOutput, withOutput_ite]
  rfl

/-! ## INCB -/

theorem adoptModeAndTimebase_withOutput : adoptModeAndTimebase (s.withOutput tone resp) =
    (adoptModeAndTimebase s).withOutput tone resp := by
  simp only [adoptModeAndTimebase, withOutput_ite]
  rfl

theorem serveClear_withOutput :
    serveClear c (s.withOutput tone resp) = (serveClear c s).withOutput tone resp := by
  simp only [serveClear, withOutput_ite]
  rfl

theorem serveRearm_withOutput :
    serveRearm (s.withOutput tone resp) = (serveRearm s).withOutput tone resp := by
  simp only [serveRearm, rearm, withOutput_ite]
  rfl

theorem serveConsume_withOutput :
    serveConsume (s.withOutput tone resp) = (serveConsume s).withOutput tone resp := by
  simp only [serveConsume, consume, withOutput_ite]
  rfl

theorem callbackBoundary_withOutput :
    callbackBoundary c (s.withOutput tone resp) = (callbackBoundary c s).withOutput tone resp := by
  rw [callbackBoundary, callbackBoundary, serveRequests, serveRequests,
    adoptModeAndTimebase_withOutput, serveClear_withOutput, serveRearm_withOutput,
    serveConsume_withOutput, withOutput_ite]
  rfl

/-! ## OUTF -/

/-- What `OUTF` writes depends on `run` and the tone generator alone (R121). -/
theorem outputFrame_eq_withOutput {s t : State} (run : t.run = s.run) (tone : t.tone = s.tone) :
    outputFrame c t = t.withOutput (outputFrame c s).tone (outputFrame c s).resp := by
  cases h : s.run with
  | true =>
    rw [outputFrame_running c s h, outputFrame_running c t (run.trans h), tone]
    rfl
  | false =>
    rw [outputFrame_stopped c s h, outputFrame_stopped c t (run.trans h), State.respond_tone, ← tone]
    rfl

/-- A part of the machine that keeps `run` and the tone generator, and does the same whatever the
output, commutes with `OUTF`. -/
theorem outputFrame_commutes {f : State → State} (run : (f s).run = s.run)
    (tone : (f s).tone = s.tone)
    (blind : ∀ tone resp, f (s.withOutput tone resp) = (f s).withOutput tone resp) :
    f (outputFrame c s) = outputFrame c (f s) := calc
  f (outputFrame c s) = f (s.withOutput (outputFrame c s).tone (outputFrame c s).resp) :=
    congrArg f (outputFrame_eq_withOutput c rfl rfl)
  _ = (f s).withOutput (outputFrame c s).tone (outputFrame c s).resp := blind _ _
  _ = outputFrame c (f s) := (outputFrame_eq_withOutput c run tone).symm

theorem inputFrame_outputFrame :
    inputFrame c x (outputFrame c s) = outputFrame c (inputFrame c x s) :=
  have f := inputFrame_frame c x s
  outputFrame_commutes c s (f := inputFrame c x) f.run f.tone (inputFrame_withOutput c x s)

theorem callbackBoundary_keeps_run_tone :
    (callbackBoundary c s).run = s.run ∧ (callbackBoundary c s).tone = s.tone := by
  cases h : s.run with
  | false => rw [callbackBoundary_stopped c s h]; exact ⟨h, rfl⟩
  | true =>
    have f := callbackBoundary_frame c s h
    exact ⟨f.run.trans h, f.tone⟩

theorem callbackBoundary_outputFrame :
    callbackBoundary c (outputFrame c s) = outputFrame c (callbackBoundary c s) :=
  have ⟨run, tone⟩ := callbackBoundary_keeps_run_tone c s
  outputFrame_commutes c s run tone (callbackBoundary_withOutput c s)

end

/-! ## The two orders -/

theorem exec_inf_of_finite {d : Word} (h : finitePattern d = true) (s : State) :
    exec (.inf d) s = .next (inputFrame Config.cfg (Config.cfg.num.dec32 d) s) :=
  inputSample_finite Config.cfg d s h

theorem exec_inf_of_nonFinite {d : Word} (h : finitePattern d = false) (s : State) :
    exec (.inf d) s = .refused (.nonFiniteSample d) :=
  inputSample_nonFinite Config.cfg d s h

theorem execAll_pair {i j : Instr} {s t u : State} (first : exec i s = .next t)
    (second : exec j t = .next u) : execAll [i, j] s = .next u := by
  rw [execAll, runWith_cons_next exec i _ first, runWith_cons_next exec j _ second, runWith_nil]

/-- A frame that is refused is refused in either order. -/
theorem execAll_outf_inf (d : Word) (s : State) :
    execAll [.outf, .inf d] s = execAll [.inf d, .outf] s := by
  cases finite : finitePattern d with
  | true =>
    have inf := exec_inf_of_finite finite
    rw [execAll_pair rfl (inf _), execAll_pair (inf s) rfl, inputFrame_outputFrame]
  | false =>
    have inf := exec_inf_of_nonFinite finite
    have outfFirst : execAll [.outf, .inf d] s = execAll [.inf d] (outputFrame Config.cfg s) :=
      runWith_cons_next exec .outf [.inf d] rfl
    rw [outfFirst]
    simp only [execAll, runWith, inf]

theorem execAll_outf_incb (s : State) : execAll [.outf, .incb] s = execAll [.incb, .outf] s := by
  rw [execAll_pair rfl rfl, execAll_pair rfl rfl, callbackBoundary_outputFrame]

/-- Settles O43: `INF` and `INCB` are blind to what `OUTF` writes, and keep what it reads. -/
theorem outfCommutesWithTheInputPath : Obligations.OutfCommutesWithTheInputPath :=
  fun s => ⟨fun d => execAll_outf_inf d s, execAll_outf_incb s⟩

end Sys2Proof.Machine
end

section
/-! SUPPORT. Legal and illegal words (R90, R92, R94): a word is read through its four fields, and each
of the eleven operations through its code and the operands its format has. -/

namespace Sys2Proof

/-! ## The fields of a word (R90) -/

/-- The four fields, the code highest, are the word. -/
theorem fields_append (w : OpWord) :
    opField w ++ raField w ++ zField w ++ dataField w = w := by
  unfold opField raField zField dataField
  rw [BitVec.extractLsb'_append_extractLsb'_eq_extractLsb' (by rfl),
    BitVec.extractLsb'_append_extractLsb'_eq_extractLsb' (by rfl),
    BitVec.extractLsb'_append_extractLsb'_eq_extractLsb' (by rfl)]
  exact BitVec.extractLsb'_eq_self

/-- No bit stands outside the four fields. -/
theorem word_eq_iff {v w : OpWord} :
    v = w ↔ opField v = opField w ∧ zField v = zField w ∧ raField v = raField w ∧
      dataField v = dataField w := by
  constructor
  · rintro rfl; exact ⟨rfl, rfl, rfl, rfl⟩
  · rintro ⟨op, z, ra, data⟩
    rw [← fields_append v, op, ra, z, data, fields_append]

theorem opField_and (v w : OpWord) : opField (v &&& w) = opField v &&& opField w :=
  BitVec.extractLsb'_and
theorem raField_and (v w : OpWord) : raField (v &&& w) = raField v &&& raField w :=
  BitVec.extractLsb'_and
theorem zField_and (v w : OpWord) : zField (v &&& w) = zField v &&& zField w :=
  BitVec.extractLsb'_and
theorem dataField_and (v w : OpWord) : dataField (v &&& w) = dataField v &&& dataField w :=
  BitVec.extractLsb'_and

/-! ## The format of an operation: which operands it has (R92) -/

/-- The operation has an `ra` operand. -/
def usesRa : Instr → Bool
  | .regw _ _ | .regr _ => true
  | _ => false

/-- The operation has a `data` operand. -/
def usesData : Instr → Bool
  | .inf _ | .regw _ _ | .rdcap _ | .rdspec _ => true
  | _ => false

/-- The operation with the operands of its format replaced. -/
def Instr.withOperands (ra : RegAddr) (data : Word) : Instr → Instr
  | .inf _ => .inf data
  | .regw _ _ => .regw ra data
  | .regr _ => .regr ra
  | .rdcap _ => .rdcap data
  | .rdspec _ => .rdspec data
  | i => i

section
variable (ra : RegAddr) (data : Word) (i : Instr)

@[simp] theorem opcode_withOperands : opcode (i.withOperands ra data) = opcode i := by
  cases i <;> rfl

@[simp] theorem mnemonic_withOperands : mnemonic (i.withOperands ra data) = mnemonic i := by
  cases i <;> rfl

@[simp] theorem raOperand_withOperands :
    raOperand (i.withOperands ra data) = if usesRa i then ra else 0#8 := by cases i <;> rfl

@[simp] theorem dataOperand_withOperands :
    dataOperand (i.withOperands ra data) = if usesData i then data else 0#32 := by cases i <;> rfl

/-- The format in terms of the codes, as R94 lists them. -/
theorem usesRa_eq_false_iff : usesRa i = false ↔ opcode i ∉ [0x30#8, 0x31#8] := by
  cases i <;> simp [usesRa, opcode]

theorem usesData_eq_false_iff : usesData i = false ↔
    opcode i ∈ [0x00#8, 0x01#8, 0x02#8, 0x03#8, 0x10#8, 0x20#8, 0x31#8] := by
  cases i <;> simp [usesData, opcode]

end

/-- The eleven operations of R92, each with zero operands. -/
def operations : List Instr :=
  [.nop, .reset, .start, .stop, .incb, .inf 0#32, .outf, .regw 0#8 0#32, .regr 0#8, .rdcap 0#32,
    .rdspec 0#32]

/-- Every operation is one of the eleven, but for its operands. -/
theorem withOperands_zero_mem_operations (i : Instr) : i.withOperands 0#8 0#32 ∈ operations := by
  cases i <;> simp [operations, Instr.withOperands]

/-- The eleven codes of R92. -/
def opcodes : List (BitVec 8) :=
  [0x00#8, 0x01#8, 0x02#8, 0x03#8, 0x10#8, 0x11#8, 0x20#8, 0x30#8, 0x31#8, 0x40#8, 0x41#8]

theorem opcodes_eq : opcodes = operations.map opcode := rfl

theorem mem_opcodes_iff {op : BitVec 8} : op ∈ opcodes ↔ ∃ i, opcode i = op := by
  rw [opcodes_eq, List.mem_map]
  constructor
  · rintro ⟨i, -, h⟩; exact ⟨i, h⟩
  · rintro ⟨i, h⟩
    exact ⟨_, withOperands_zero_mem_operations i, (opcode_withOperands _ _ i).trans h⟩

/-! ## The decoder, by the code of the word (R92, R94) -/

theorem checkReserved_error_iff {w : OpWord} {ra data : Bool} {i : Instr} :
    (∃ e, checkReserved w ra data i = .error e) ↔
      zField w ≠ 0#16 ∨ (ra = false ∧ raField w ≠ 0#8) ∨ (data = false ∧ dataField w ≠ 0#32) := by
  unfold checkReserved
  split_ifs with z r d
  · simp [z]
  · simp [r]
  · simp [d]
  · simp [z, r, d]

/-- A word with the code of `i` is `i` with the word's own operands, its reserved fields being
checked. -/
theorem decodeWord_of_opcode {w : OpWord} {i : Instr} (h : opField w = opcode i) :
    decodeWord w =
      checkReserved w (usesRa i) (usesData i) (i.withOperands (raField w) (dataField w)) := by
  cases i with
  | nop | reset | start | stop | incb | inf | outf | regw | regr | rdcap | rdspec =>
    simp [decodeWord, h, opcode, usesRa, usesData, Instr.withOperands]

theorem decodeWord_of_unknown_opcode {w : OpWord} (h : opField w ∉ opcodes) :
    decodeWord w = .error (.illegalOp (opField w)) := by
  simp only [opcodes, List.mem_cons, not_or] at h
  simp [decodeWord, h]

/-- A word encodes an operation of the format of `i` (R90, R92). -/
def FitsFormat (i : Instr) (w : OpWord) : Prop :=
  opField w = opcode i ∧ zField w = 0#16 ∧ (usesRa i = false → raField w = 0#8) ∧
    (usesData i = false → dataField w = 0#32)

/-- The operation a word decodes to is read from the fields of its format. -/
theorem decodeWord_eq_ok_iff {w : OpWord} {j : Instr} :
    decodeWord w = .ok j ↔
      ∃ i, FitsFormat i w ∧ j = i.withOperands (raField w) (dataField w) := by
  constructor
  · intro h
    by_cases known : opField w ∈ opcodes
    · obtain ⟨i, op⟩ := mem_opcodes_iff.mp known
      rw [decodeWord_of_opcode op.symm, checkReserved_ok] at h
      obtain ⟨rfl, reserved⟩ := h
      exact ⟨i, ⟨op.symm, reserved⟩, rfl⟩
    · rw [decodeWord_of_unknown_opcode known] at h; cases h
  · rintro ⟨i, ⟨op, reserved⟩, rfl⟩
    rw [decodeWord_of_opcode op]
    exact checkReserved_ok.mpr ⟨rfl, reserved⟩

/-- The operands read from a word that fits a format are the word's own fields. -/
theorem encode_withOperands_of_fitsFormat {w : OpWord} {i : Instr} (h : FitsFormat i w) :
    encode (i.withOperands (raField w) (dataField w)) = w := by
  obtain ⟨op, z, ra, data⟩ := h
  obtain ⟨op', ra', z', data'⟩ := Laws.encode_fields (i.withOperands (raField w) (dataField w))
  refine word_eq_iff.mpr ⟨?_, z'.trans z.symm, ?_, ?_⟩
  · rw [op', opcode_withOperands, op]
  · rw [ra', raOperand_withOperands]
    cases h : usesRa i with
    | true => rfl
    | false => exact (ra h).symm
  · rw [data', dataOperand_withOperands]
    cases h : usesData i with
    | true => rfl
    | false => exact (data h).symm

theorem encode_of_decodeWord {w : OpWord} {i : Instr} (h : decodeWord w = .ok i) :
    encode i = w := by
  obtain ⟨j, fits, rfl⟩ := decodeWord_eq_ok_iff.mp h
  exact encode_withOperands_of_fitsFormat fits

/-- Settles O1, by the code of the operation. -/
theorem decodeOfEncode : Obligations.DecodeOfEncode := decodeWord_encode

/-- Settles O2: the fields of the word are those of the encoding. -/
theorem encodeOfDecode : Obligations.EncodeOfDecode := fun _ _ => encode_of_decodeWord

/-! ## The match and mask table (R92) -/

/-- The mask of a format: every bit but those of the operands it has. -/
def formatMask (ra data : Bool) : OpWord :=
  BitVec.allOnes 8 ++ (if ra then 0#8 else BitVec.allOnes 8) ++ BitVec.allOnes 16 ++
    (if data then 0#32 else BitVec.allOnes 32)

theorem formatMask_fields (ra data : Bool) :
    opField (formatMask ra data) = BitVec.allOnes 8 ∧
    zField (formatMask ra data) = BitVec.allOnes 16 ∧
    raField (formatMask ra data) = (if ra then 0#8 else BitVec.allOnes 8) ∧
    dataField (formatMask ra data) = (if data then 0#32 else BitVec.allOnes 32) := by
  cases ra <;> cases data <;> decide

/-- An operand of the format is free under the mask, and a field that is none must be zero. -/
theorem and_operandMask_eq_zero_iff {n : Nat} {field : BitVec n} {operand : Bool} :
    field &&& (if operand then 0#n else BitVec.allOnes n) = 0#n ↔
      (operand = false → field = 0#n) := by
  cases operand <;> simp

/-- The row of R92 with an operation's mnemonic, code and format. -/
def rowOf (i : Instr) : OpRow where
  mnemonic := mnemonic i
  pattern := assemble (opcode i) 0#8 0#32
  mask := formatMask (usesRa i) (usesData i)

theorem opcodeRows_eq : opcodeRows = operations.map rowOf := by decide

theorem rowOf_withOperands (ra : RegAddr) (data : Word) (i : Instr) :
    rowOf (i.withOperands ra data) = rowOf i := by cases i <;> rfl

theorem mem_opcodeRows_iff {r : OpRow} : r ∈ opcodeRows ↔ ∃ i, rowOf i = r := by
  rw [opcodeRows_eq, List.mem_map]
  constructor
  · rintro ⟨i, -, h⟩; exact ⟨i, h⟩
  · rintro ⟨i, h⟩
    exact ⟨_, withOperands_zero_mem_operations i, (rowOf_withOperands _ _ i).trans h⟩

/-- A word matches the row of an operation under its mask iff it fits the operation's format. -/
theorem rowOf_matches_iff {i : Instr} {w : OpWord} :
    (rowOf i).matches w = true ↔ FitsFormat i w := by
  obtain ⟨op, z, ra, data⟩ := formatMask_fields (usesRa i) (usesData i)
  rw [OpRow.matches, beq_iff_eq, rowOf, word_eq_iff, opField_and, zField_and, raField_and,
    dataField_and, op, z, ra, data, BitVec.and_allOnes, BitVec.and_allOnes, opField_assemble,
    zField_assemble, raField_assemble, dataField_assemble, and_operandMask_eq_zero_iff,
    and_operandMask_eq_zero_iff, FitsFormat]

/-- Settles O4: to match a row, and to decode to its operation, is to fit the operation's format. -/
theorem decodeAgreesWithOpcodeMap : Obligations.DecodeAgreesWithOpcodeMap := by
  intro w
  constructor
  · intro j h
    obtain ⟨i, fits, rfl⟩ := decodeWord_eq_ok_iff.mp h
    exact ⟨rowOf i, mem_opcodeRows_iff.mpr ⟨i, rfl⟩, (mnemonic_withOperands _ _ i).symm,
      rowOf_matches_iff.mpr fits⟩
  · intro r row matched
    obtain ⟨i, rfl⟩ := mem_opcodeRows_iff.mp row
    exact ⟨_, decodeWord_eq_ok_iff.mpr ⟨i, rowOf_matches_iff.mp matched, rfl⟩,
      mnemonic_withOperands _ _ i⟩

/-! ## Illegal words (R94) -/

/-- The illegal words, as R94 lists them. -/
def IllegalWord (w : OpWord) : Prop :=
  opField w ∉ opcodes ∨ zField w ≠ 0#16 ∨
  (opField w ∉ [0x30#8, 0x31#8] ∧ raField w ≠ 0#8) ∨
  (opField w ∈ [0x00#8, 0x01#8, 0x02#8, 0x03#8, 0x10#8, 0x20#8, 0x31#8] ∧ dataField w ≠ 0#32)

theorem decodeWord_error_iff {w : OpWord} : (∃ e, decodeWord w = .error e) ↔ IllegalWord w := by
  by_cases known : opField w ∈ opcodes
  · obtain ⟨i, op⟩ := mem_opcodes_iff.mp known
    rw [decodeWord_of_opcode op.symm, checkReserved_error_iff, usesRa_eq_false_iff,
      usesData_eq_false_iff, op]
    exact ⟨.inr, fun h => h.resolve_left (absurd known)⟩
  · exact ⟨fun _ => .inl known, fun _ => ⟨_, decodeWord_of_unknown_opcode known⟩⟩

/-- Settles O6: the words are closed terms, which the decoder evaluates. -/
theorem specWordsDecode : Obligations.SpecWordsDecode := by
  unfold Obligations.SpecWordsDecode
  decide

end Sys2Proof

namespace Sys2Proof.Machine

/-! ## Unmapped addresses (R64, R209) -/

/-- The last register of the map stands at `0x10` (R32). -/
theorem hostReg_unmapped {ra : RegAddr} (h : 0x11 ≤ ra.toNat) : hostReg ra = none := by
  cases reg : hostReg ra with
  | none => rfl
  | some r =>
    have mapped : r.addr.toNat < 0x11 := by cases r <;> decide
    rw [addr_of_hostReg reg] at h
    omega

theorem exec_regw_unmapped {ra : RegAddr} (h : 0x11 ≤ ra.toNat) (data : Word) (s : State) :
    exec (.regw ra data) s = .next { s with st := { s.st with buserr := true } } := by
  have regw : exec (.regw ra data) s = .next (registerWrite Config.cfg ra data s) := rfl
  rw [regw, registerWrite, hostReg_unmapped h]
  rfl

theorem exec_regr_unmapped {ra : RegAddr} (h : 0x11 ≤ ra.toNat) (s : State) :
    exec (.regr ra) s =
      .next { s with st := { s.st with buserr := true }, resp := some 0x00000000#32 } := by
  have regr : exec (.regr ra) s = .next (registerRead Config.cfg ra s) := rfl
  rw [regr, registerRead, hostReg_unmapped h]
  rfl

/-- Settles O5: the decoder rejects by code and reserved fields alone, and an unmapped address is an
operand like any other. -/
theorem illegalWordsAreRefused : Obligations.IllegalWordsAreRefused := by
  refine ⟨fun w => ⟨decodeWord_error_iff, fun illegal s rest arrives => ?_⟩, ?_⟩
  · obtain ⟨e, rejected⟩ := decodeWord_error_iff.mpr illegal
    exact step_of_illegal_word arrives rejected
  · intro ra data s unmapped
    exact ⟨decodeWord_encode (.regw ra data), decodeWord_encode (.regr ra),
      exec_regw_unmapped unmapped data s, exec_regr_unmapped unmapped s⟩

end Sys2Proof.Machine
end

section
/-! SUPPORT. Engine control (R110 to R114): the effect of `NOP`, `RESET`, `START` and `STOP`, and what
an input frame, a callback boundary and an output frame do while the engine is stopped. -/

namespace Sys2Proof.Machine

/-- The statements write NUM's zero as `dec32(0)`; the model's reset values hold its code (log 2). -/
theorem cfg_dec32_zero : Config.cfg.num.dec32 0 = 0 := Config.cfg.num.dec32_zero

/-! ## NOP, STOP, RESET -/

/-- Settles O9. -/
theorem nopHasNoEffect : Obligations.NopHasNoEffect := fun _ => rfl

theorem exec_stop (s : State) : exec .stop s = .next (s.withRun false) := rfl

/-- Settles O12. -/
theorem stopClearsRunOnly : Obligations.StopClearsRunOnly := exec_stop

theorem exec_reset (s : State) : exec .reset s = .next (resetEngine Config.cfg s) := rfl

/-- Settles O10: the reset state takes nothing but `resp` and `ops` from the state before. -/
theorem resetReachesTheResetState : Obligations.ResetReachesTheResetState := by
  intro s
  rw [exec_reset, cfg_dec32_zero]
  rfl

/-! ## START -/

section
variable (c : Cfg Q) (s : State)

theorem start_running (h : s.run = true) : start c s = s := if_pos h

theorem start_stopped (h : s.run = false) : start c s = startEngine c s := by simp [start, h]

/-- An effective `START` does not read `run`: it only asks it to be 0 (R112). -/
theorem startEngine_withRun (run : Bool) : startEngine c (s.withRun run) = startEngine c s := rfl

/-- An effective `START` reads the configuration registers and the model's own fields alone (R252). -/
theorem startEngine_congr {s t : State} (freq : s.tone.freq = t.tone.freq)
    (amp : s.tone.amp = t.tone.amp) (tb : s.req.tb = t.req.tb) (mode : s.req.mode = t.req.mode)
    (yscale : s.yscale = t.yscale) (resp : s.resp = t.resp) (ops : s.ops = t.ops) :
    startEngine c s = startEngine c t := by
  simp only [startEngine, freq, amp, tb, mode, yscale, resp, ops]

end

theorem exec_start_running {s : State} (h : s.run = true) : exec .start s = .next s :=
  congrArg Host.Outcome.next (start_running Config.cfg s h)

theorem exec_start_stopped {s : State} (h : s.run = false) :
    exec .start s = .next (startEngine Config.cfg s) :=
  congrArg Host.Outcome.next (start_stopped Config.cfg s h)

/-- After `STOP` a `START` is effective, whether or not the engine was running. -/
theorem execAll_stop_start (s : State) :
    execAll [.stop, .start] s = .next (startEngine Config.cfg s) := by
  rw [execAll_pair (exec_stop s) (exec_start_stopped (State.withRun_run s false)),
    startEngine_withRun]

/-- Settles O11: the last part by what an effective `START` reads. -/
theorem startInitialisesAllButConfiguration : Obligations.StartInitialisesAllButConfiguration := by
  refine ⟨fun _ running => exec_start_running running, fun s stopped => ?effective,
    fun s t freq amp tb mode yscale resp ops => ?same⟩
  case effective =>
    rw [exec_start_stopped stopped, cfg_dec32_zero]
    rfl
  case same =>
    rw [execAll_stop_start, execAll_stop_start,
      startEngine_congr Config.cfg freq amp tb mode yscale resp ops]

/-! ## The stopped engine -/

/-- Settles O13: each of the three tests `run` first. -/
theorem stoppedEngineIgnoresRealTimeOperations :
    Obligations.StoppedEngineIgnoresRealTimeOperations := by
  refine fun s stopped => ⟨?incb, fun d finite => ?inf, ?outf⟩
  case incb => exact congrArg Host.Outcome.next (callbackBoundary_stopped Config.cfg s stopped)
  case inf => rw [exec_inf_of_finite finite, inputFrame_stopped _ _ s stopped]
  case outf => exact congrArg Host.Outcome.next (outputFrame_stopped Config.cfg s stopped)

end Sys2Proof.Machine
end

section
/-! SUPPORT. The tone generator (R121 to R123): the effect of `OUTF`, and the operations that keep the
phase it leaves. -/

namespace Sys2Proof.Machine

theorem exec_outf_running {s : State} (h : s.run = true) : exec .outf s = .next
    ((s.withTone { s.tone with
      phase := tonePhaseNext Config.cfg.num s.tone.freq s.tone.phase
      count := s.tone.count + 1 }).respond
      (Config.cfg.num.enc32 (toneSample Config.cfg.num s.tone.amp s.tone.phase))) :=
  congrArg Host.Outcome.next (outputFrame_running Config.cfg s h)

theorem exec_outf_stopped {s : State} (h : s.run = false) : exec .outf s = .next (s.respond 0) :=
  congrArg Host.Outcome.next (outputFrame_stopped Config.cfg s h)

/-- Settles O14: the statement writes out `tonePhaseNext` and `toneSample`. -/
theorem outfGivesSampleAndAdvancesPhase : Obligations.OutfGivesSampleAndAdvancesPhase :=
  ⟨fun _ running => exec_outf_running running, fun _ stopped => exec_outf_stopped stopped⟩

/-- The phase has no writer but `OUTF`, `START` and `RESET` (R23, R122). -/
theorem exec_keeps_phase {i : Instr} {s t : State} (h : exec i s = .next t)
    (other : i ≠ .outf ∧ i ≠ .start ∧ i ≠ .reset) : t.tone.phase = s.tone.phase := by
  obtain ⟨-, -, phase, -⟩ := (exec_effect h).toneKeptOrWritten
  obtain ⟨notOutf, notStart, notReset⟩ := other
  exact phase.resolve_right (by simp [notOutf, notStart, notReset])

theorem execAll_keeps_phase {is : List Instr} {s t : State}
    (others : ∀ i ∈ is, i ≠ .outf ∧ i ≠ .start ∧ i ≠ .reset) (h : execAll is s = .next t) :
    t.tone.phase = s.tone.phase :=
  runWith_keeps exec (P := fun u => u.tone.phase = s.tone.phase) is
    (fun i mem _ _ kept next => (exec_keeps_phase next (others i mem)).trans kept) rfl h

/-- Settles O15: the first `OUTF` advances the phase, and the operations after it keep it. -/
theorem phaseIsContinuous : Obligations.PhaseIsContinuous := by
  intro is s t others running h
  obtain ⟨u, outf, rest⟩ := runWith_cons_inv exec h
  cases (exec_outf_running running).symm.trans outf
  exact execAll_keeps_phase others rest

end Sys2Proof.Machine
end

section
/-! SUPPORT. The input path (R130 to R132): what `INF` and `INCB` leave alone, and when `INCB` has
nothing to do; between callbacks the active mode and timebase and the request bits are kept. -/

namespace Sys2Proof.Machine

/-! ## INF -/

/-- Settles O18, by whether the pattern is finite: the frame is that of the three steps, and the
sample is remembered last. -/
theorem infFrame : Obligations.InfFrame := by
  refine ⟨fun d s nonFinite => exec_inf_of_nonFinite nonFinite s,
    fun d s finite => ⟨_, exec_inf_of_finite finite s, ?_⟩⟩
  have f := inputFrame_frame Config.cfg (Config.cfg.num.dec32 d) s
  have prev (running : s.run = true) :=
    congrArg Trig.prev (inputFrame_trig Config.cfg (Config.cfg.num.dec32 d) s running)
  exact ⟨f.run, f.tone, f.tb, f.mode, f.req, f.yscale, f.shadow, f.cfgerr, f.buserr, f.resp, f.ops,
    prev⟩

/-! ## INCB: its frame -/

section
variable (c : Cfg Q) (s : State)

/-- `s` with the requested mode and timebase active and no request bit set: what `INCB` leaves
outside the capture unit (R131). -/
def withRequestsAdopted : State :=
  dropFlags (s.withCap { s.cap with mode := s.req.mode, tb := s.req.tb })

/-- Beyond adopting mode and timebase, steps 1 and 2 of `INCB` stay in the capture unit. -/
theorem adoptModeAndTimebase_captureFrame :
    CaptureFrame (withRequestsAdopted s) (dropFlags (adoptModeAndTimebase s)) := by
  by_cases same : s.req.tb = s.cap.tb
  · rw [adoptModeAndTimebase_same s same, withRequestsAdopted, same]
    constructor <;> rfl
  · rw [adoptModeAndTimebase_change s same]
    constructor <;> rfl

/-- Beyond adopting the requests, an effective `INCB` stays in the capture unit. -/
theorem callbackBoundary_captureFrame (running : s.run = true) :
    CaptureFrame (withRequestsAdopted s) (callbackBoundary c s) := by
  rw [callbackBoundary_running c s running]
  exact (adoptModeAndTimebase_captureFrame s).trans (serveRequests_frame c _)

end

theorem exec_incb (s : State) : exec .incb s = .next (callbackBoundary Config.cfg s) := rfl

/-- Settles O31: `INCB` adopts the requests and otherwise stays in the capture unit, whose one
sticky flag none of its steps raises. -/
theorem incbAdoptsAndConsumesRequests : Obligations.IncbAdoptsAndConsumesRequests := by
  refine fun s running => ⟨_, exec_incb s, ?_⟩
  have f := callbackBoundary_captureFrame Config.cfg s running
  have overrun := (callbackBoundary_frame Config.cfg s running).overrun
  exact ⟨f.mode, f.tb, f.req, f.run.trans running, f.tone, f.prev, f.yscale, f.spec, f.meter,
    f.pubSpec, f.specSeq, f.freq, f.level, f.shadow, f.cfgerr, overrun, f.buserr, f.resp, f.ops⟩

/-! ## INCB: nothing to do -/

section
variable {s : State}

/-- With the requested mode and timebase active already, there is nothing to adopt. -/
theorem adoptModeAndTimebase_idle (mode : s.req.mode = s.cap.mode) (tb : s.req.tb = s.cap.tb) :
    adoptModeAndTimebase s = s := by
  rw [adoptModeAndTimebase_same s tb, mode]
  rfl

/-- With no request bit set, there is nothing to serve and nothing to clear. -/
theorem serveRequests_idle (c : Cfg Q) (flags : s.req.flags = 0) : serveRequests c s = s := by
  have clear : serveClear c s = s := by rw [serveClear, flags]; rfl
  have rearm : serveRearm s = s := by rw [serveRearm, flags]; rfl
  have consume : serveConsume s = s := by rw [serveConsume, flags]; rfl
  rw [serveRequests, clear, rearm, consume, dropFlags, ← flags]
  rfl

/-- R131(a): `INCB` with nothing pending. -/
theorem callbackBoundary_idle (c : Cfg Q) (flags : s.req.flags = 0)
    (mode : s.req.mode = s.cap.mode) (tb : s.req.tb = s.cap.tb) : callbackBoundary c s = s := by
  cases run : s.run with
  | false => exact callbackBoundary_stopped c s run
  | true =>
    rw [callbackBoundary_running c s run, adoptModeAndTimebase_idle mode tb,
      serveRequests_idle c flags]

/-- R131(e): an effective `INCB` leaves nothing pending. -/
theorem callbackBoundary_callbackBoundary (c : Cfg Q) (running : s.run = true) :
    callbackBoundary c (callbackBoundary c s) = callbackBoundary c s := by
  have f := callbackBoundary_captureFrame c s running
  exact callbackBoundary_idle c (congrArg Req.flags f.req)
    ((congrArg Req.mode f.req).trans f.mode.symm) ((congrArg Req.tb f.req).trans f.tb.symm)

end

/-- Settles O32: after an effective `INCB` nothing is pending, and then `INCB` is idle. -/
theorem incbWithNothingPendingIsIdle : Obligations.IncbWithNothingPendingIsIdle := by
  refine ⟨fun s flags mode tb => ?nothingPending, fun s t running h => ?second⟩
  case nothingPending => rw [exec_incb, callbackBoundary_idle Config.cfg flags mode tb]
  case second =>
    cases h
    rw [exec_incb, callbackBoundary_callbackBoundary Config.cfg running]

/-! ## Between callbacks (R132, R68) -/

/-- From `s` to `t` the active mode and timebase are kept, and no request bit is lost. -/
structure RequestsUntouched (s t : State) : Prop where
  mode : t.cap.mode = s.cap.mode
  tb : t.cap.tb = s.cap.tb
  pending : ∀ bit, s.req.flags.getLsbD bit = true → t.req.flags.getLsbD bit = true

theorem RequestsUntouched.refl (s : State) : RequestsUntouched s s := ⟨rfl, rfl, fun _ set => set⟩

theorem RequestsUntouched.trans {s t u : State} (h : RequestsUntouched s t)
    (k : RequestsUntouched t u) : RequestsUntouched s u where
  mode := k.mode.trans h.mode
  tb := k.tb.trans h.tb
  pending bit set := k.pending bit (h.pending bit set)

/-- A vector whose bits all stand in another is their conjunction. -/
theorem and_eq_left_of_bits {n : Nat} {a b : BitVec n}
    (h : ∀ bit, a.getLsbD bit = true → b.getLsbD bit = true) : a &&& b = a := by
  refine BitVec.eq_of_getLsbD_eq fun bit _ => ?_
  rw [BitVec.getLsbD_and]
  exact Bool.and_eq_left_iff_imp.mpr (h bit)

/-- The active mode and timebase have no writer but `INCB`, `START` and `RESET` (R24). -/
theorem OpEffect.mode_tb_writers {c : Cfg Q} {i : Instr} {s t : State} (effect : OpEffect c s i t) :
    (t.cap.mode = s.cap.mode ∧ t.cap.tb = s.cap.tb) ∨ i = .incb ∨ i = .start ∨ i = .reset := by
  cases effect with
  | reset | start | incb => simp
  | idle | stop | outf => exact .inl ⟨rfl, rfl⟩
  | inf d =>
    have f := inputFrame_frame c (c.num.dec32 d) s
    exact .inl ⟨f.mode, f.tb⟩
  | read _ _ f => exact .inl ⟨congrArg Cap.mode f.cap, congrArg Cap.tb f.cap⟩
  | regw ra data _ write => cases write <;> exact .inl ⟨rfl, rfl⟩

theorem exec_requestsUntouched {i : Instr} {s t : State} (h : exec i s = .next t)
    (other : i ≠ .incb ∧ i ≠ .start ∧ i ≠ .reset) : RequestsUntouched s t := by
  have effect := exec_effect h
  obtain ⟨notIncb, notStart, notReset⟩ := other
  obtain ⟨mode, tb⟩ := effect.mode_tb_writers.resolve_right (by simp [notIncb, notStart, notReset])
  exact ⟨mode, tb, fun bit set =>
    (effect.request_bit_kept set).resolve_right (by simp [notIncb, notStart, notReset])⟩

theorem execAll_requestsUntouched {is : List Instr} {s t : State}
    (others : ∀ i ∈ is, i ≠ .incb ∧ i ≠ .start ∧ i ≠ .reset) (h : execAll is s = .next t) :
    RequestsUntouched s t :=
  runWith_keeps exec (P := RequestsUntouched s) is
    (fun i mem _ _ kept next => kept.trans (exec_requestsUntouched next (others i mem)))
    (RequestsUntouched.refl s) h

/-- Settles O39: each of the operations leaves the requests and what they ask for untouched. -/
theorem modeAndTimebaseConstantBetweenCallbacks :
    Obligations.ModeAndTimebaseConstantBetweenCallbacks := by
  intro is s t others h
  have kept := execAll_requestsUntouched others h
  exact ⟨kept.mode, kept.tb, and_eq_left_of_bits kept.pending⟩

end Sys2Proof.Machine
end

section
/-! SUPPORT. The request procedures of `INCB` as the trigger detector sees them (R131, R154 to
R159): which requests are served, and the whole state after a callback boundary of each kind. -/

namespace Sys2Proof.Machine

section
variable (c : Cfg Q) {s : State}

/-! ## CLEAR, REARM and CONSUME one by one -/

theorem serveClear_of_clear (clear : flagClear s.req.flags = true) :
    serveClear c s = clearCapture c s := if_pos clear

theorem serveClear_of_noClear (noClear : flagClear s.req.flags = false) : serveClear c s = s := by
  simp [serveClear, noClear]

/-- REARM takes the detector out of `LAST` (R155). -/
def RearmDue (s : State) : Prop :=
  s.trig.state = .last ∧ modeStorage s.cap.mode = false ∧ flagRearm s.req.flags = true

/-- CONSUME takes the detector out of `LAST` (R154). -/
def ConsumeDue (s : State) : Prop :=
  s.trig.state = .last ∧ modeStorage s.cap.mode = false ∧ flagConsume s.req.flags = true ∧
    modeSingle s.cap.mode = false

theorem serveRearm_of_due (due : RearmDue s) : serveRearm s = enterInit s := by
  obtain ⟨last, storage, flag⟩ := due
  simp [serveRearm, rearm, last, storage, flag]

theorem serveRearm_of_not_due (notDue : ¬ RearmDue s) : serveRearm s = s := by
  unfold serveRearm
  split
  case isTrue flag => exact if_neg fun ⟨last, storage⟩ => notDue ⟨last, storage, flag⟩
  case isFalse => rfl

theorem serveConsume_of_due (due : ConsumeDue s) : serveConsume s = enterInit s := by
  obtain ⟨last, storage, flag, single⟩ := due
  simp [serveConsume, consume, last, storage, flag, single]

theorem serveConsume_of_not_due (notDue : ¬ ConsumeDue s) : serveConsume s = s := by
  unfold serveConsume
  split
  case isTrue flag =>
    exact if_neg fun ⟨last, single, storage⟩ => notDue ⟨last, storage, flag, single⟩
  case isFalse => rfl

/-- Once REARM has entered `INIT`, CONSUME finds nothing to do (R157). -/
theorem serveConsume_serveRearm_of_due (due : RearmDue s ∨ ConsumeDue s) :
    serveConsume (serveRearm s) = enterInit s := by
  by_cases rearm : RearmDue s
  · rw [serveRearm_of_due rearm]
    exact serveConsume_of_not_due fun ⟨last, _⟩ => nomatch last
  · rw [serveRearm_of_not_due rearm]
    exact serveConsume_of_due (due.resolve_left rearm)

theorem serveConsume_serveRearm_of_not_due (notDue : ¬ (RearmDue s ∨ ConsumeDue s)) :
    serveConsume (serveRearm s) = s := by
  rw [serveRearm_of_not_due (notDue ∘ .inl), serveConsume_of_not_due (notDue ∘ .inr)]

/-! ## Steps 3 to 5 together -/

theorem serveRequests_of_due (noClear : flagClear s.req.flags = false)
    (due : RearmDue s ∨ ConsumeDue s) : serveRequests c s = dropFlags (enterInit s) := by
  rw [serveRequests, serveClear_of_noClear c noClear, serveConsume_serveRearm_of_due due]

theorem serveRequests_of_not_due (noClear : flagClear s.req.flags = false)
    (notDue : ¬ (RearmDue s ∨ ConsumeDue s)) : serveRequests c s = dropFlags s := by
  rw [serveRequests, serveClear_of_noClear c noClear, serveConsume_serveRearm_of_not_due notDue]

/-- Outside `LAST` REARM and CONSUME are dropped (R141). -/
theorem not_due_of_not_last (notLast : s.trig.state ≠ .last) : ¬ (RearmDue s ∨ ConsumeDue s) :=
  fun due => due.elim (notLast ·.1) (notLast ·.1)

/-- A clear enters `INIT` and so leaves REARM and CONSUME nothing to do (R157). -/
theorem serveRequests_of_clear (clear : flagClear s.req.flags = true) :
    serveRequests c s = dropFlags (clearCapture c s) := by
  have cleared : (clearCapture c s).trig.state ≠ .last := by
    show TrigState.init ≠ .last
    decide
  rw [serveRequests, serveClear_of_clear c clear,
    serveConsume_serveRearm_of_not_due (not_due_of_not_last cleared)]

/-! ## The callback boundary, by what is requested -/

/-- R158: a timebase change without a clear. -/
theorem callbackBoundary_timebase (running : s.run = true) (tb : s.req.tb ≠ s.cap.tb)
    (noClear : flagClear s.req.flags = false) :
    callbackBoundary c s =
      { s with
        cap := { s.cap with tb := s.req.tb, mode := s.req.mode, index := 0, start := 0, count := 0,
                            scan := 0 }
        trig := { s.trig with state := .init }
        st := { s.st with freerun := false }
        req := { s.req with flags := 0 } } := by
  rw [callbackBoundary_running c s running, adoptModeAndTimebase_change s tb]
  exact serveRequests_of_not_due c noClear (not_due_of_not_last (by simp [timebaseChange_eq]))

/-- R159: a clear, in the timebase just adopted. -/
theorem callbackBoundary_clear (running : s.run = true) (clear : flagClear s.req.flags = true) :
    callbackBoundary c s = dropFlags (clearCapture c (adoptModeAndTimebase s)) := by
  have requested : flagClear (adoptModeAndTimebase s).req.flags = true := by
    obtain ⟨-, -, req⟩ := adoptModeAndTimebase_adopts s
    rwa [req]
  rw [callbackBoundary_running c s running, serveRequests_of_clear c requested]

/-- The mode just adopted and the requests take the detector out of `LAST` (R154, R155, R157). -/
def LeavesLast (s : State) : Prop :=
  s.trig.state = .last ∧ modeStorage s.req.mode = false ∧
    (flagRearm s.req.flags = true ∨
      (flagConsume s.req.flags = true ∧ modeSingle s.req.mode = false))

theorem due_iff_leavesLast :
    let adopted := s.withCap { s.cap with mode := s.req.mode }
    RearmDue adopted ∨ ConsumeDue adopted ↔ LeavesLast s := by
  simp only [RearmDue, ConsumeDue, LeavesLast, State.withCap_cap, State.withCap_trig,
    State.withCap_req]
  tauto

theorem callbackBoundary_leavesLast (running : s.run = true) (tb : s.req.tb = s.cap.tb)
    (noClear : flagClear s.req.flags = false) (leaves : LeavesLast s) :
    callbackBoundary c s =
      { s with
        cap := { s.cap with mode := s.req.mode, count := 0, scan := 0 }
        trig := { s.trig with state := .init }
        st := { s.st with freerun := false }
        req := { s.req with flags := 0 } } := by
  rw [callbackBoundary_running c s running, adoptModeAndTimebase_same s tb]
  exact serveRequests_of_due c noClear (due_iff_leavesLast.mpr leaves)

theorem callbackBoundary_adoptsModeOnly (running : s.run = true) (tb : s.req.tb = s.cap.tb)
    (noClear : flagClear s.req.flags = false) (stays : ¬ LeavesLast s) :
    callbackBoundary c s =
      { s with cap := { s.cap with mode := s.req.mode }, req := { s.req with flags := 0 } } := by
  rw [callbackBoundary_running c s running, adoptModeAndTimebase_same s tb]
  exact serveRequests_of_not_due c noClear (stays ∘ due_iff_leavesLast.mp)

/-! ## What a clear writes -/

theorem clearCapture_ring (a : Nat) : (clearCapture c s).cap.ring.read a =
    if a < length c s then 0 else s.cap.ring.read a :=
  Memory.read_setPrefix s.cap.ring (length c s) (fun _ => 0) a

/-- Every word of the window it publishes comes from the zeroed part of the ring. -/
theorem clearCapture_window (a : Nat) : (clearCapture c s).pub.cap.read a =
    if a < length c s then 0 else s.pub.cap.read a := by
  have published : (clearCapture c s).pub.cap.read a = if a < length c s then
      (clearCapture c s).cap.ring.read ((0 + a) % length c s) else s.pub.cap.read a :=
    publishCapture_read c _ 0 false a
  rw [published, clearCapture_ring, if_pos (Nat.mod_lt _ (length_pos s c))]

theorem clearCapture_capLen : (clearCapture c s).pub.capLen.toNat = length c s :=
  publishCapture_capLen c _ 0 false

theorem adoptModeAndTimebase_ring : (adoptModeAndTimebase s).cap.ring = s.cap.ring := by
  by_cases same : s.req.tb = s.cap.tb
  · rw [adoptModeAndTimebase_same s same]; rfl
  · rw [adoptModeAndTimebase_change s same]; rfl

end

/-- Settles O33: after the timebase change the detector is in `INIT`, so no other request is
served. -/
theorem timebaseChangeForcesInit : Obligations.TimebaseChangeForcesInit :=
  fun s running tb noClear => by
    rw [exec_incb, callbackBoundary_timebase Config.cfg running tb noClear]

/-- Settles O34: the clear works on the length of the timebase just adopted. -/
theorem clearZeroesAndPublishesTheWindow : Obligations.ClearZeroesAndPublishesTheWindow := by
  refine fun s running clear => ⟨_, exec_incb s, ?_⟩
  obtain ⟨tb, -, -⟩ := adoptModeAndTimebase_adopts s
  have ring := adoptModeAndTimebase_ring (s := s)
  have pub := adoptModeAndTimebase_pub s
  have len : length Config.cfg (adoptModeAndTimebase s) = Config.cfg.count s.req.tb := by
    rw [length_eq, tb]
  rw [callbackBoundary_clear Config.cfg running clear, cfg_dec32_zero, ← len, ← tb, ← ring, ← pub]
  exact ⟨clearCapture_ring Config.cfg, rfl, rfl, rfl, rfl, rfl, rfl, clearCapture_window Config.cfg,
    clearCapture_capLen Config.cfg, rfl, rfl, rfl⟩

/-- Settles O35, by whether a request takes the detector out of `LAST`. -/
theorem consumeAndRearmLeaveLast : Obligations.ConsumeAndRearmLeaveLast := by
  intro s running tb noClear
  rw [exec_incb]
  split
  case isTrue leaves => rw [callbackBoundary_leavesLast Config.cfg running tb noClear leaves]
  case isFalse stays => rw [callbackBoundary_adoptsModeOnly Config.cfg running tb noClear stays]

end Sys2Proof.Machine
end

section
/-! SUPPORT. One input frame as the trigger detector sees it (R146 to R153, R156): what is stored,
when the window is complete, and what `INF` passes on of it. -/

namespace Sys2Proof.Machine

section
variable (c : Cfg Q) (x : Q) (s : State)

/-! ## What `INF` passes on -/

/-- After a frame `x`, `t` has the capture group, the trigger state, the flags and the published
window that `CaptureStep` left in `u`; `x` is remembered (R130). -/
structure CaptureOutcome (x : Q) (u t : State) : Prop where
  run : t.run = u.run
  cap : t.cap = u.cap
  trig : t.trig = { state := u.trig.state, prev := x }
  st : t.st = u.st
  pubCap : t.pub.cap = u.pub.cap
  capLen : t.pub.capLen = u.pub.capLen
  capXscale : t.pub.capXscale = u.pub.capXscale
  capFreerun : t.pub.capFreerun = u.pub.capFreerun
  capSeq : t.pub.capSeq = u.pub.capSeq

theorem inputFrame_outcome (running : s.run = true) :
    CaptureOutcome x (captureStep c x s) (inputFrame c x s) := by
  obtain ⟨pubCap, capLen, capXscale, capFreerun, capSeq⟩ := inputFrame_pubCap c x s running
  exact ⟨(inputFrame_frame c x s).run.trans (captureStep_frame c x s).run.symm,
    inputFrame_cap c x s running, inputFrame_trig c x s running, inputFrame_st c x s running,
    pubCap, capLen, capXscale, capFreerun, capSeq⟩

variable {c s}

/-- `INF` of a finite pattern while running completes. -/
theorem execUnder_inf {d : Word} (running : s.run = true) (finite : finitePattern d = true) :
    ∃ t, execUnder c (.inf d) s = .next t ∧
      CaptureOutcome (c.num.dec32 d) (captureStep c (c.num.dec32 d) s) t :=
  ⟨_, inputSample_finite c d s finite, inputFrame_outcome c _ s running⟩

/-- An `INF` that completed did so, while running. -/
theorem outcome_of_execUnder_inf {d : Word} {t : State} (running : s.run = true)
    (h : execUnder c (.inf d) s = .next t) :
    CaptureOutcome (c.num.dec32 d) (captureStep c (c.num.dec32 d) s) t := by
  obtain ⟨-, rfl⟩ := inputSample_next h
  exact inputFrame_outcome c _ s running

/-! ## The state just after the sample is stored -/

variable (c s)

/-- The trigger point stored, before the length of the window is looked at (R147). -/
def edgeStored : State :=
  { ringWrite c x s with
    cap := { (ringWrite c x s).cap with start := s.cap.index, count := 1 }
    trig := { s.trig with state := .first }
    st := { s.st with freerun := false } }

/-- A sample of the window stored and counted, before its length is looked at (R151). -/
def fillStored : State :=
  { ringWrite c x s with cap := { (ringWrite c x s).cap with count := s.cap.count + 1 } }

/-- A sample of the scan stored and counted, before the scan counter is looked at (R148). -/
def scanStored : State :=
  { ringWrite c x s with cap := { (ringWrite c x s).cap with scan := s.cap.scan + 1 } }

theorem initEdge_eq : initEdge c x s = settleIfFull c (edgeStored c x s) := rfl

theorem firstFill_eq : firstFill c x s = settleIfFull c (fillStored c x s) := rfl

variable {c x s}

theorem initScan_of_not_full (notFull : (s.cap.scan + 1).toNat ≠ length c s) :
    initScan c x s = scanStored c x s := if_neg notFull

/-- R150: the scan that has gone once round is published from its oldest sample on. -/
theorem initScan_of_full (full : (s.cap.scan + 1).toNat = length c s) :
    initScan c x s = freeRun c (scanStored c x s) := if_pos full

theorem initScan_trig : (initScan c x s).trig = s.trig := by
  by_cases full : (s.cap.scan + 1).toNat = length c s
  · rw [initScan_of_full full]; rfl
  · rw [initScan_of_not_full full]; rfl

/-! ## The verification of a complete window (R152, R153, R161) -/

theorem settleIfFull_of_not_full (notFull : s.cap.count.toNat ≠ length c s) :
    settleIfFull c s = s := if_neg notFull

/-- Where the invariant holds afterwards, `OVERRUN` was not raised, so the check held and `LAST` is
entered. -/
theorem settleIfFull_of_full (inv : CaptureInv c (settleIfFull c s))
    (full : s.cap.count.toNat = length c s) :
    settleIfFull c s = publishCapture c s.cap.start.toNat false
      (s.withTrig { s.trig with state := .last }) := by
  have settles : settleIfFull c s = settle c s := if_pos full
  have overrun := inv.no_overrun
  rw [settles] at overrun ⊢
  refine settle_of_check c s (by_contra fun fails => ?_)
  rw [settle_of_not_check c s fails] at overrun
  cases overrun

theorem initEdge_of_not_full (notOne : length c s ≠ 1) : initEdge c x s = edgeStored c x s :=
  (initEdge_eq c x s).trans (settleIfFull_of_not_full notOne.symm)

theorem firstFill_of_not_full (notFull : (s.cap.count + 1).toNat ≠ length c s) :
    firstFill c x s = fillStored c x s :=
  (firstFill_eq c x s).trans (settleIfFull_of_not_full notFull)

theorem firstFill_of_full (inv : CaptureInv c s) (first : s.trig.state = .first)
    (full : (s.cap.count + 1).toNat = length c s) :
    firstFill c x s = publishCapture c s.cap.start.toNat false
      ((fillStored c x s).withTrig { s.trig with state := .last }) :=
  (firstFill_eq c x s).trans (settleIfFull_of_full (inv.firstFill c x first) full)

end

/-! ## The four states of the detector -/

/-- Settles O23, by whether the scan has gone once round. -/
theorem initScanWritesAndFreeRuns : Obligations.InitScanWritesAndFreeRuns := by
  intro c d s running finite init noEdge
  have stored := ringWrite_read c (c.num.dec32 d) s
  have index := ringWrite_index c (c.num.dec32 d) s
  obtain ⟨t, done, out⟩ := execUnder_inf (c := c) running finite
  refine ⟨t, done, ?_⟩
  rw [out.cap, out.trig, out.st, out.pubCap, out.capLen, out.capXscale, out.capFreerun, out.capSeq,
    captureStep_init_scan c _ s init noEdge]
  by_cases full : (s.cap.scan + 1).toNat = length c s
  · rw [initScan_of_full full]
    exact ⟨init, stored, index, rfl, rfl, rfl, (absurd full ·),
      fun _ => ⟨rfl, rfl, publishCapture_read c _ _ true, publishCapture_capLen c _ _ true,
        rfl, rfl, rfl⟩⟩
  · rw [initScan_of_not_full full]
    exact ⟨init, stored, index, rfl, rfl, rfl,
      fun _ => ⟨rfl, rfl, rfl, rfl, rfl, rfl, rfl⟩, (absurd · full)⟩

/-- Settles O24: a window longer than one sample is not complete with the trigger point. -/
theorem initEdgeStartsTheWindow : Obligations.InitEdgeStartsTheWindow := by
  intro c d s running finite init isEdge notOne
  have stored := ringWrite_read c (c.num.dec32 d) s
  have index := ringWrite_index c (c.num.dec32 d) s
  obtain ⟨t, done, out⟩ := execUnder_inf (c := c) running finite
  refine ⟨t, done, ?_⟩
  rw [out.cap, out.trig, out.st, out.pubCap, out.capLen, out.capXscale, out.capFreerun, out.capSeq,
    captureStep_init_edge c _ s init isEdge, initEdge_of_not_full notOne]
  exact ⟨rfl, stored, index, rfl, rfl, rfl, rfl, rfl, rfl, rfl, rfl,
    rfl, rfl⟩

/-- Settles O25, by whether the sample completes the window. -/
theorem firstFillCompletesTheWindow : Obligations.FirstFillCompletesTheWindow := by
  intro c d s inv running finite first
  obtain ⟨-, count_lt, -⟩ := inv.first_count first
  have count := toNat_succ_of_lt_length c count_lt
  have stored := ringWrite_read c (c.num.dec32 d) s
  have index := ringWrite_index c (c.num.dec32 d) s
  obtain ⟨t, done, out⟩ := execUnder_inf (c := c) running finite
  refine ⟨t, done, ?_⟩
  rw [out.cap, out.trig, out.st, out.pubCap, out.capLen, out.capXscale, out.capFreerun, out.capSeq,
    captureStep_first c _ s first, ← count]
  by_cases full : (s.cap.count + 1).toNat = length c s
  · rw [firstFill_of_full inv first full]
    exact ⟨stored, index, rfl, rfl, rfl, rfl, rfl, (absurd full ·),
      fun _ => ⟨rfl, publishCapture_read c _ _ false, publishCapture_capLen c _ _ false, rfl, rfl,
        rfl⟩⟩
  · rw [firstFill_of_not_full full]
    exact ⟨stored, index, rfl, rfl, rfl, rfl, rfl,
      fun _ => ⟨first, rfl, rfl, rfl, rfl, rfl⟩, (absurd · full)⟩

/-- Settles O26: `CaptureStep` does nothing in `LAST`. -/
theorem lastFreezesTheCapture : Obligations.LastFreezesTheCapture := by
  intro d s running finite last
  obtain ⟨t, done, out⟩ := execUnder_inf (c := Config.cfg) running finite
  rw [captureStep_last Config.cfg _ s last] at out
  exact ⟨t, (exec_eq_execUnder _ s).trans done, out.cap, last ▸ out.trig, out.st, out.pubCap,
    out.capLen, out.capXscale, out.capFreerun, out.capSeq⟩

end Sys2Proof.Machine
end

section
/-! SUPPORT. One revolution of the ring under every interleaving (R14, R150, R160): what the
operations between the frames keep of a window, and what the frames make of it. -/

namespace Sys2Proof.Machine

section
variable {c : Cfg Q} {s t : State} {i : Instr}

/-! ## Between the frames -/

/-- From `s` to `t` all that belongs to a window being captured is kept: the capture group but for
the mode, the trigger state, the published window, `FREERUN`, and `OVERRUN` where it is 0. -/
structure WindowKept (s t : State) : Prop where
  run : t.run = s.run
  cap : t.cap = { s.cap with mode := t.cap.mode }
  trig : t.trig.state = s.trig.state
  pubCap : t.pub.cap = s.pub.cap
  capLen : t.pub.capLen = s.pub.capLen
  capXscale : t.pub.capXscale = s.pub.capXscale
  capFreerun : t.pub.capFreerun = s.pub.capFreerun
  capSeq : t.pub.capSeq = s.pub.capSeq
  freerun : t.st.freerun = s.st.freerun
  overrun : s.st.overrun = false → t.st.overrun = false

theorem ReadFrame.windowKept (f : ReadFrame s t) : WindowKept s t where
  run := f.run
  cap := by rw [f.cap]
  trig := by rw [f.trig]
  pubCap := by rw [f.pub]
  capLen := by rw [f.pub]
  capXscale := by rw [f.pub]
  capFreerun := by rw [f.pub]
  capSeq := by rw [f.pub]
  freerun := f.freerun
  overrun := f.overrun.trans

theorem CaptureOutcome.windowKept {x : Q} (out : CaptureOutcome x s t) : WindowKept s t where
  run := out.run
  cap := by rw [out.cap]
  trig := by rw [out.trig]
  pubCap := out.pubCap
  capLen := out.capLen
  capXscale := out.capXscale
  capFreerun := out.capFreerun
  capSeq := out.capSeq
  freerun := by rw [out.st]
  overrun := by rw [out.st]; exact id

theorem WriteEffect.windowKept {data : Word} {ra : RegAddr} (effect : WriteEffect c data s ra t) :
    WindowKept s t := by
  cases effect with
  | status => exact ⟨rfl, rfl, rfl, rfl, rfl, rfl, rfl, rfl, rfl, fun h => by simp [clearSticky, h]⟩
  | configError | busError | toneFreq | toneAmp | timebase | mode | req | yscale =>
    exact ⟨rfl, rfl, rfl, rfl, rfl, rfl, rfl, rfl, rfl, id⟩

/-- Outside `LAST` an `INCB` without timebase change and clear only adopts the mode (R160). -/
theorem callbackBoundary_windowKept (running : s.run = true) (keeps : keepsWindow .incb s = true)
    (notLast : s.trig.state ≠ .last) : WindowKept s (callbackBoundary c s) := by
  obtain ⟨tb, noClear⟩ : s.req.tb = s.cap.tb ∧ flagClear s.req.flags = false := by
    simpa [keepsWindow] using keeps
  rw [callbackBoundary_adoptsModeOnly c running tb noClear (notLast ·.1)]
  exact ⟨rfl, rfl, rfl, rfl, rfl, rfl, rfl, rfl, rfl, id⟩

theorem OpEffect.windowKept (effect : OpEffect c s i t) (running : s.run = true)
    (keeps : keepsWindow i s = true) (notLast : s.trig.state ≠ .last) (notFrame : ∀ d, i ≠ .inf d)
    (notStop : i ≠ .stop) (notReset : i ≠ .reset) : WindowKept s t := by
  cases effect with
  | reset => exact absurd rfl notReset
  | stop => exact absurd rfl notStop
  | inf d => exact absurd rfl (notFrame d)
  | start stopped => exact absurd (running.symm.trans stopped) nofun
  | idle | outf => exact ⟨rfl, rfl, rfl, rfl, rfl, rfl, rfl, rfl, rfl, id⟩
  | incb => exact callbackBoundary_windowKept running keeps notLast
  | regw _ _ _ write => exact write.windowKept
  | read _ _ f => exact f.windowKept

theorem CaptureInv.windowKept (inv : CaptureInv c s) (kept : WindowKept s t) : CaptureInv c t := by
  have adopted : CaptureInv c (s.withCap { s.cap with mode := t.cap.mode }) := { inv with }
  exact adopted.congr kept.cap kept.trig ((kept.overrun inv.no_overrun).trans inv.no_overrun.symm)
    kept.freerun

/-! ## The samples of a sequence -/

theorem inputs_concat_inf (is : List Instr) (e : Word) :
    inputs (is ++ [.inf e]) = inputs is ++ [e] := inputs_append is [.inf e]

theorem keepsRunning_append {is js : List Instr} :
    keepsRunning (is ++ js) = true ↔ keepsRunning is = true ∧ keepsRunning js = true := by
  simp [keepsRunning]

/-- A condition along a sequence holds along its beginning. -/
theorem along_of_append {p : Instr → State → Bool} {is js : List Instr} {s : State}
    (h : along c p (is ++ js) s = true) : along c p is s = true := by
  induction is generalizing s with
  | nil => rfl
  | cons i is ih =>
    rw [List.cons_append, along, Bool.and_eq_true] at h
    obtain ⟨here, rest⟩ := h
    rw [along, here, Bool.true_and]
    cases done : execUnder c i s with
    | next u => rw [done] at rest; exact ih rest
    | fault => rfl
    | refused => rfl

/-- The induction over an interleaving, once: `P` speaks of the samples delivered so far. It is kept
by each of the first `n` frames, which adds its sample, and by every other operation that lets the
engine run and meets the condition `ok`. -/
theorem execAllUnder_samples {P : List Q → State → Prop} {ok : Instr → State → Bool} {n : Nat}
    (frame : ∀ {xs d s t}, P xs s → xs.length < n → ok (.inf d) s = true →
      execUnder c (.inf d) s = .next t → P (xs ++ [c.num.dec32 d]) t)
    (other : ∀ {xs i s t}, P xs s → (∀ d, i ≠ .inf d) → i ≠ .stop → i ≠ .reset → ok i s = true →
      execUnder c i s = .next t → P xs t)
    {is : List Instr} {xs : List Q} {s : State} (start : P xs s) (runs : keepsRunning is = true)
    (oks : along c ok is s = true) (room : xs.length + (inputs is).length ≤ n) :
    ∃ t, execAllUnder c is s = .next t ∧ P (xs ++ samples c (inputs is)) t := by
  induction is generalizing xs s with
  | nil => exact ⟨s, rfl, by simpa [samples] using start⟩
  | cons i is ih =>
    obtain ⟨wellFormed, notStop, notReset, runsOn⟩ := keepsRunning_cons runs
    obtain ⟨u, hu⟩ := execUnder_completes c i s wellFormed
    obtain ⟨here, oksOn⟩ := along_cons oks hu
    have tail : execAllUnder c (i :: is) s = execAllUnder c is u := runWith_cons_next _ i is hu
    rw [tail]
    by_cases isFrame : ∃ d, i = .inf d
    · obtain ⟨d, rfl⟩ := isFrame
      rw [inputs_cons_inf, List.length_cons] at room
      obtain ⟨t, ht, done⟩ := ih (frame start (by omega) here hu) runsOn oksOn
        (by rw [List.length_append, List.length_singleton]; omega)
      exact ⟨t, ht, by simpa [samples] using done⟩
    · have notFrame : ∀ d, i ≠ .inf d := fun d e => isFrame ⟨d, e⟩
      rw [inputs_cons_other i is notFrame] at room ⊢
      exact ih (other start notFrame notStop notReset here hu) runsOn oksOn room

/-! ## Samples in the ring -/

/-- From the address `base` on, round a ring of `len` words, stand the samples `xs`. -/
def RingHolds (ring : Memory) (len base : Nat) (xs : List Q) : Prop :=
  ∀ k, k < xs.length → some (ring.read ((base + k) % len)) = xs[k]?

theorem RingHolds.nil (ring : Memory) (len base : Nat) : RingHolds ring len base [] := nofun

/-- The word after the last sample is none of theirs while there are fewer than `len`. -/
theorem RingHolds.write {ring : Memory} {len base : Nat} {xs : List Q}
    (h : RingHolds ring len base xs) (room : xs.length < len) (x : Q) :
    RingHolds (ring.write ((base + xs.length) % len) x) len base (xs ++ [x]) := by
  intro k below
  rw [List.length_append, List.length_singleton] at below
  rw [Memory.read_write]
  by_cases last : k = xs.length
  · simp [last]
  · have apart : (base + k) % len ≠ (base + xs.length) % len := fun same =>
      last ((Nat.ModEq.add_left_cancel' base same).eq_of_lt_of_lt (by omega) room)
    rw [if_neg apart, h k (by omega), List.getElem?_append_left (by omega)]

/-- Once round the ring is where it began. -/
theorem RingHolds.turn {ring : Memory} {len base : Nat} {xs : List Q}
    (h : RingHolds ring len base xs) : RingHolds ring len ((base + len) % len) xs := by
  intro k below
  rw [Nat.mod_add_mod, Nat.add_right_comm, Nat.add_mod_right]
  exact h k below

/-- The published window is the samples `xs` in order, with the length and scale of the timebase
entry `tb`, in the publication after the `seq`-th. -/
structure Published (c : Cfg Q) (tb : BitVec 4) (seq : BitVec 32) (freerun : Bool) (xs : List Q)
    (s : State) : Prop where
  window : ∀ k, k < c.count tb → some (s.pub.cap.read k) = xs[k]?
  capLen : s.pub.capLen.toNat = c.count tb
  capXscale : s.pub.capXscale = c.scale tb
  capFreerun : s.pub.capFreerun = freerun
  capSeq : s.pub.capSeq = seq + 1

variable {tb : BitVec 4} {seq : BitVec 32} {xs : List Q} {base : Nat}

theorem Published.windowKept {freerun : Bool} (h : Published c tb seq freerun xs s)
    (kept : WindowKept s t) : Published c tb seq freerun xs t where
  window := kept.pubCap ▸ h.window
  capLen := kept.capLen ▸ h.capLen
  capXscale := kept.capXscale ▸ h.capXscale
  capFreerun := kept.capFreerun ▸ h.capFreerun
  capSeq := kept.capSeq ▸ h.capSeq

/-- A full ring is published from the first of its samples on (R71). -/
theorem RingHolds.published (h : RingHolds s.cap.ring (length c s) base xs)
    (full : xs.length = length c s) (freerun : Bool) :
    Published c s.cap.tb s.pub.capSeq freerun xs (publishCapture c base freerun s) where
  window k below := by
    rw [publishCapture_read, if_pos (by exact below)]
    exact h k (full ▸ below)
  capLen := publishCapture_capLen c s base freerun
  capXscale := rfl
  capFreerun := rfl
  capSeq := rfl

/-! ## From the trigger point to `LAST` (R160) -/

/-- `s` is in `FIRST` and the window so far is `xs`, from `cap.start` on. -/
structure Filled (c : Cfg Q) (tb : BitVec 4) (seq : BitVec 32) (xs : List Q) (s : State) :
    Prop where
  first : s.trig.state = .first
  entry : s.cap.tb = tb
  before : s.pub.capSeq = seq
  count : s.cap.count.toNat = xs.length
  ring : RingHolds s.cap.ring (c.count tb) s.cap.start.toNat xs

theorem Filled.windowKept (h : Filled c tb seq xs s) (kept : WindowKept s t) :
    Filled c tb seq xs t := by
  obtain ⟨first, rfl, rfl, count, ring⟩ := h
  constructor
  · rw [kept.trig, first]
  · rw [kept.cap]
  · rw [kept.capSeq]
  · rw [kept.cap]; exact count
  · rw [kept.cap]; exact ring

theorem edgeStored_filled (c : Cfg Q) (x : Q) (index : s.cap.index.toNat < length c s) :
    Filled c s.cap.tb s.pub.capSeq [x] (edgeStored c x s) where
  first := rfl
  entry := rfl
  before := rfl
  count := rfl
  ring := by
    have empty := RingHolds.nil s.cap.ring (length c s) s.cap.index.toNat
    have stored := empty.write (length_pos s c) x
    rwa [List.length_nil, Nat.add_zero, Nat.mod_eq_of_lt index] at stored

theorem fillStored_filled (inv : CaptureInv c s) (h : Filled c tb seq xs s) (x : Q) :
    Filled c tb seq (xs ++ [x]) (fillStored c x s) := by
  obtain ⟨first, rfl, rfl, count, ring⟩ := h
  obtain ⟨-, below, index⟩ := inv.first_count first
  constructor
  · exact first
  · rfl
  · rfl
  · show (s.cap.count + 1).toNat = _
    rw [toNat_succ_of_lt_length c below, count, List.length_append, List.length_singleton]
  · show RingHolds (s.cap.ring.write s.cap.index.toNat x) _ s.cap.start.toNat _
    rw [index, count]
    exact ring.write (count ▸ below) x

/-- A window that is complete is published, and `LAST` entered. -/
theorem Filled.settleIfFull (h : Filled c tb seq xs s) (full : xs.length = c.count tb)
    (inv : CaptureInv c (settleIfFull c s)) :
    (settleIfFull c s).trig.state = .last ∧ Published c tb seq false xs (settleIfFull c s) := by
  obtain ⟨-, rfl, rfl, count, ring⟩ := h
  rw [settleIfFull_of_full inv (count.trans full)]
  exact ⟨rfl, RingHolds.published (s := s.withTrig { s.trig with state := .last }) ring full false⟩

/-- While the window is incomplete the detector stays in `FIRST`. -/
theorem Filled.settleIfFull_eq (h : Filled c tb seq xs s) (notFull : xs.length ≠ c.count tb) :
    Machine.settleIfFull c s = s := by
  obtain ⟨-, rfl, -, count, -⟩ := h
  exact settleIfFull_of_not_full (count.trans_ne notFull)

/-- Between two operations on the way to `LAST`. -/
structure Collecting (c : Cfg Q) (tb : BitVec 4) (seq : BitVec 32) (xs : List Q) (s : State) :
    Prop where
  inv : CaptureInv c s
  running : s.run = true
  filled : Filled c tb seq xs s

/-- The window `xs` has been captured and published. -/
structure Captured (c : Cfg Q) (tb : BitVec 4) (seq : BitVec 32) (xs : List Q) (s : State) :
    Prop where
  inv : CaptureInv c s
  last : s.trig.state = .last
  published : Published c tb seq false xs s

/-- A frame whose sample was stored as the last of `xs` completes the window or leaves it filling;
`u` is the state after the store. -/
theorem outcome_collects {x : Q} {u : State} (inv : CaptureInv c s) (running : s.run = true)
    (step : captureStep c x s = settleIfFull c u) (filled : Filled c tb seq xs u)
    (out : CaptureOutcome x (captureStep c x s) t) :
    (xs.length ≠ c.count tb → Collecting c tb seq xs t) ∧
    (xs.length = c.count tb → Captured c tb seq xs t) := by
  have run := (captureStep_frame c x s).run.trans running
  have inv := captureStep_captureInv c x inv
  have kept := out.windowKept
  rw [step] at run inv kept
  constructor
  · intro notFull
    rw [filled.settleIfFull_eq notFull] at run inv kept
    exact ⟨inv.windowKept kept, kept.run.trans run, filled.windowKept kept⟩
  · intro full
    obtain ⟨last, published⟩ := filled.settleIfFull full inv
    exact ⟨inv.windowKept kept, kept.trig.trans last, published.windowKept kept⟩

/-- The frame at the trigger point (R147). -/
theorem edge_collects {d : Word} (inv : CaptureInv c s) (running : s.run = true)
    (init : s.trig.state = .init) (isEdge : qualifies c (c.num.dec32 d) s = true)
    (h : execUnder c (.inf d) s = .next t) :
    (1 ≠ c.count s.cap.tb → Collecting c s.cap.tb s.pub.capSeq [c.num.dec32 d] t) ∧
    (1 = c.count s.cap.tb → Captured c s.cap.tb s.pub.capSeq [c.num.dec32 d] t) :=
  outcome_collects inv running ((captureStep_init_edge c _ s init isEdge).trans (initEdge_eq ..))
    (edgeStored_filled c _ inv.index_lt) (outcome_of_execUnder_inf running h)

/-- Every frame after it (R151). -/
theorem Collecting.frame {d : Word} (h : Collecting c tb seq xs s)
    (done : execUnder c (.inf d) s = .next t) :
    ((xs ++ [c.num.dec32 d]).length ≠ c.count tb →
      Collecting c tb seq (xs ++ [c.num.dec32 d]) t) ∧
    ((xs ++ [c.num.dec32 d]).length = c.count tb →
      Captured c tb seq (xs ++ [c.num.dec32 d]) t) :=
  outcome_collects h.inv h.running
    ((captureStep_first c _ s h.filled.first).trans (firstFill_eq ..))
    (fillStored_filled h.inv h.filled _) (outcome_of_execUnder_inf h.running done)

theorem Collecting.other (h : Collecting c tb seq xs s) (notFrame : ∀ d, i ≠ .inf d)
    (notStop : i ≠ .stop) (notReset : i ≠ .reset) (keeps : keepsWindow i s = true)
    (done : execUnder c i s = .next t) : Collecting c tb seq xs t := by
  have kept := (execUnder_effect done).windowKept h.running keeps (by simp [h.filled.first])
    notFrame notStop notReset
  exact ⟨h.inv.windowKept kept, kept.run.trans h.running, h.filled.windowKept kept⟩

/-- From the trigger point on: the rest of the window, of which the last operation is a frame. -/
theorem Collecting.completes {is : List Instr} {e : Word} (h : Collecting c tb seq xs s)
    (runs : keepsRunning (is ++ [.inf e]) = true)
    (keeps : along c keepsWindow (is ++ [.inf e]) s = true)
    (full : xs.length + (inputs (is ++ [.inf e])).length = c.count tb) :
    ∃ t, execAllUnder c (is ++ [.inf e]) s = .next t ∧
      Captured c tb seq (xs ++ samples c (inputs (is ++ [.inf e]))) t := by
  obtain ⟨runsBefore, runsLast⟩ := keepsRunning_append.mp runs
  obtain ⟨finite, -⟩ := keepsRunning_cons runsLast
  rw [inputs_concat_inf, List.length_append, List.length_singleton] at full
  obtain ⟨u, hu, collecting⟩ := execAllUnder_samples (P := Collecting c tb seq) (ok := keepsWindow)
    (n := c.count tb - 1)
    (frame := fun h below _ done => (h.frame done).1 (by simp; omega))
    (other := fun h notFrame notStop notReset keeps done =>
      h.other notFrame notStop notReset keeps done)
    h runsBefore (along_of_append keeps) (by omega)
  obtain ⟨t, ht⟩ := execUnder_completes c (.inf e) u finite
  have both : execAllUnder c (is ++ [.inf e]) s = .next t :=
    (runWith_append _ is _ hu).trans (runWith_cons_next _ _ [] ht)
  have captured := (collecting.frame ht).2 (by simp [samples]; omega)
  exact ⟨t, both, by simpa [inputs_concat_inf, samples] using captured⟩

theorem Captured.freerun (h : Captured c tb seq xs s) : s.st.freerun = false :=
  Bool.eq_false_iff.mpr fun set => nomatch h.last.symm.trans (h.inv.freerun_init set)

end

/-- Settles O27: the first frame stores the trigger point, and the last one completes the window,
which they are at once where the window is one sample long. -/
theorem edgeReachesLastInOneRevolution : Obligations.EdgeReachesLastInOneRevolution := by
  intro c d rest s is inv running init isEdge runs keeps full ⟨e, endsInFrame⟩
  obtain ⟨finite, -, -, runsOn⟩ := keepsRunning_cons runs
  obtain ⟨u, hu⟩ := execUnder_completes c (.inf d) s finite
  obtain ⟨-, keepsOn⟩ := along_cons keeps hu
  have tail : execAllUnder c is s = execAllUnder c rest u := runWith_cons_next _ _ rest hu
  obtain ⟨collecting, captured⟩ := edge_collects inv running init isEdge hu
  have captures : ∃ t, execAllUnder c is s = .next t ∧
      Captured c s.cap.tb s.pub.capSeq (samples c (inputs is)) t := by
    rw [tail]
    rcases List.eq_nil_or_concat' rest with rfl | ⟨before, last, rfl⟩
    · exact ⟨u, rfl, captured full⟩
    · obtain rfl : last = .inf e := by simpa [is, List.getLast?_cons] using endsInFrame
      have long : 1 ≠ c.count s.cap.tb := by
        rw [← full, inputs_cons_inf, inputs_concat_inf]
        simp
      refine (collecting long).completes runsOn keepsOn ?_
      rw [← full, inputs_cons_inf]
      exact Nat.add_comm 1 _
  obtain ⟨t, done, h⟩ := captures
  exact ⟨t, done, h.last, h.published.window, h.published.capLen, h.published.capXscale,
    h.published.capFreerun, h.published.capSeq, h.freerun, h.inv.no_overrun⟩

section
variable {c : Cfg Q} {s t : State} {i : Instr} {tb : BitVec 4} {seq : BitVec 32} {xs : List Q}
  {base : Nat}

/-! ## Once round the ring without an edge (R150) -/

/-- `s` is in `INIT` and the scan so far is `xs`, from the address `base` on. -/
structure Scanned (c : Cfg Q) (tb : BitVec 4) (seq : BitVec 32) (base : Nat) (xs : List Q)
    (s : State) : Prop where
  entry : s.cap.tb = tb
  before : s.pub.capSeq = seq
  scan : s.cap.scan.toNat = xs.length
  index : s.cap.index.toNat = (base + xs.length) % c.count tb
  ring : RingHolds s.cap.ring (c.count tb) base xs

/-- The scan `xs` has gone once round and is published; the next scan has not begun. -/
structure FreeRan (c : Cfg Q) (tb : BitVec 4) (seq : BitVec 32) (xs : List Q) (s : State) :
    Prop where
  full : xs.length = c.count tb
  scan : s.cap.scan = 0
  freerun : s.st.freerun = true
  published : Published c tb seq true xs s

theorem Scanned.windowKept (h : Scanned c tb seq base xs s) (kept : WindowKept s t) :
    Scanned c tb seq base xs t := by
  obtain ⟨rfl, rfl, scan, index, ring⟩ := h
  constructor
  · rw [kept.cap]
  · rw [kept.capSeq]
  · rw [kept.cap]; exact scan
  · rw [kept.cap]; exact index
  · rw [kept.cap]; exact ring

theorem FreeRan.windowKept (h : FreeRan c tb seq xs s) (kept : WindowKept s t) :
    FreeRan c tb seq xs t where
  full := h.full
  scan := by rw [kept.cap]; exact h.scan
  freerun := kept.freerun.trans h.freerun
  published := h.published.windowKept kept

theorem scanStored_scanned (inv : CaptureInv c s) (h : Scanned c tb seq base xs s) (x : Q) :
    Scanned c tb seq base (xs ++ [x]) (scanStored c x s) := by
  obtain ⟨rfl, rfl, scan, index, ring⟩ := h
  constructor
  · rfl
  · rfl
  · show (s.cap.scan + 1).toNat = _
    rw [toNat_succ_of_lt_length c inv.scan_lt, scan, List.length_append, List.length_singleton]
  · refine (ringWrite_index c x s).trans ?_
    rw [index, length_eq, Nat.mod_add_mod, List.length_append, List.length_singleton, Nat.add_assoc]
  · show RingHolds (s.cap.ring.write s.cap.index.toNat x) _ base _
    rw [index]
    exact ring.write (scan ▸ inv.scan_lt) x

/-- The scan that has gone once round is published from its first sample on. -/
theorem Scanned.freeRun (h : Scanned c tb seq base xs s) (full : xs.length = c.count tb) :
    FreeRan c tb seq xs (freeRun c s) := by
  obtain ⟨rfl, rfl, -, index, ring⟩ := h
  have oldest : RingHolds s.cap.ring (length c s) s.cap.index.toNat xs := by
    rw [index, full]
    exact ring.turn
  have published :=
    RingHolds.published (s := s.withSt { s.st with freerun := true }) oldest full true
  exact ⟨full, rfl, rfl, ⟨published.window, published.capLen, rfl, rfl, rfl⟩⟩

theorem Scanned.initScan (inv : CaptureInv c s) (h : Scanned c tb seq base xs s) (x : Q) :
    Scanned c tb seq base (xs ++ [x]) (initScan c x s) ∨
      FreeRan c tb seq (xs ++ [x]) (initScan c x s) := by
  have stored := scanStored_scanned inv h x
  have counted : (s.cap.scan + 1).toNat = (xs ++ [x]).length := stored.scan
  by_cases full : (s.cap.scan + 1).toNat = length c s
  · rw [initScan_of_full full]
    refine .inr (stored.freeRun ?_)
    rw [← counted, full, length_eq, h.entry]
  · rw [initScan_of_not_full full]
    exact .inl stored

/-- Between two operations of a revolution without an edge. -/
structure Revolving (c : Cfg Q) (tb : BitVec 4) (seq : BitVec 32) (base : Nat) (xs : List Q)
    (s : State) : Prop where
  inv : CaptureInv c s
  running : s.run = true
  init : s.trig.state = .init
  progress : Scanned c tb seq base xs s ∨ FreeRan c tb seq xs s

theorem Revolving.windowKept (h : Revolving c tb seq base xs s) (kept : WindowKept s t) :
    Revolving c tb seq base xs t where
  inv := h.inv.windowKept kept
  running := kept.run.trans h.running
  init := kept.trig.trans h.init
  progress := h.progress.imp (·.windowKept kept) (·.windowKept kept)

theorem Revolving.frame {d : Word} (h : Revolving c tb seq base xs s)
    (below : xs.length < c.count tb) (quiet : noEdge c (.inf d) s = true)
    (done : execUnder c (.inf d) s = .next t) :
    Revolving c tb seq base (xs ++ [c.num.dec32 d]) t := by
  have notEdge : qualifies c (c.num.dec32 d) s = false := by simpa [noEdge, inputOf] using quiet
  have kept := (outcome_of_execUnder_inf h.running done).windowKept
  rw [captureStep_init_scan c _ s h.init notEdge] at kept
  have scanned : Scanned c tb seq base xs s :=
    h.progress.resolve_right fun freeRan => below.ne freeRan.full
  refine Revolving.windowKept ?_ kept
  exact ⟨h.inv.initScan c _ h.init, (initScan_frame c _ s).run.trans h.running,
    by rw [initScan_trig, h.init], scanned.initScan h.inv _⟩

/-- The other operations of a revolution keep the scan, and its publication once it is complete. -/
theorem Revolving.other (h : Revolving c tb seq base xs s) (notFrame : ∀ d, i ≠ .inf d)
    (notStop : i ≠ .stop) (notReset : i ≠ .reset) (keeps : keepsWindow i s = true)
    (done : execUnder c i s = .next t) : Revolving c tb seq base xs t :=
  h.windowKept ((execUnder_effect done).windowKept h.running keeps (by simp [h.init]) notFrame
    notStop notReset)

/-! ## No edge among the samples alone (R149) -/

/-- What the test of the detector reads beside the sample is kept by every other operation that
adopts no other mode. -/
theorem OpEffect.keeps_mode_prev (effect : OpEffect c s i t) (running : s.run = true)
    (keeps : keepsMode i s = true) (notFrame : ∀ d, i ≠ .inf d) (notStop : i ≠ .stop)
    (notReset : i ≠ .reset) :
    t.run = true ∧ t.cap.mode = s.cap.mode ∧ t.trig.prev = s.trig.prev := by
  cases effect with
  | reset => exact absurd rfl notReset
  | stop => exact absurd rfl notStop
  | inf d => exact absurd rfl (notFrame d)
  | start stopped => exact absurd (running.symm.trans stopped) nofun
  | idle | outf => exact ⟨running, rfl, rfl⟩
  | incb =>
    have same : s.req.mode = s.cap.mode := by simpa [keepsMode] using keeps
    have f := callbackBoundary_frame c s running
    obtain ⟨-, mode⟩ := callbackBoundary_adopts c s running
    exact ⟨f.run.trans running, mode.trans same, f.prev⟩
  | regw _ _ _ write => cases write <;> exact ⟨running, rfl, rfl⟩
  | read _ _ f => exact ⟨f.run.trans running, congrArg Cap.mode f.cap, congrArg Trig.prev f.trig⟩

/-- Where the mode is kept, the samples alone decide that no frame is an edge. -/
theorem along_noEdge_of_among {is : List Instr} {s : State} (running : s.run = true)
    (runs : keepsRunning is = true) (keeps : along c keepsMode is s = true)
    (among : noEdgeAmong c s.cap.mode s.trig.prev (samples c (inputs is)) = true) :
    along c (noEdge c) is s = true := by
  induction is generalizing s with
  | nil => rfl
  | cons i is ih =>
    obtain ⟨wellFormed, notStop, notReset, runsOn⟩ := keepsRunning_cons runs
    obtain ⟨u, hu⟩ := execUnder_completes c i s wellFormed
    obtain ⟨here, keepsOn⟩ := along_cons keeps hu
    rw [along, hu, Bool.and_eq_true]
    by_cases isFrame : ∃ d, i = .inf d
    · obtain ⟨d, rfl⟩ := isFrame
      rw [inputs_cons_inf, samples, List.map_cons, noEdgeAmong, Bool.and_eq_true] at among
      obtain ⟨quiet, among⟩ := among
      have out := outcome_of_execUnder_inf running hu
      have f := captureStep_frame c (c.num.dec32 d) s
      have mode : u.cap.mode = s.cap.mode := by rw [out.cap, f.mode]
      have prev : u.trig.prev = c.num.dec32 d := by rw [out.trig]
      exact ⟨quiet, ih (out.run.trans (f.run.trans running)) runsOn keepsOn
        (by rw [mode, prev]; exact among)⟩
    · have notFrame : ∀ d, i ≠ .inf d := fun d e => isFrame ⟨d, e⟩
      obtain ⟨run, mode, prev⟩ :=
        (execUnder_effect hu).keeps_mode_prev running here notFrame notStop notReset
      rw [inputs_cons_other i is notFrame] at among
      refine ⟨?_, ih run runsOn keepsOn (by rw [mode, prev]; exact among)⟩
      cases i with
      | inf d => exact absurd rfl (notFrame d)
      | nop | reset | start | stop | incb | outf | regw | regr | rdcap | rdspec => rfl

/-- Two conditions along a sequence are one. -/
theorem along_and {p q : Instr → State → Bool} {is : List Instr} {s : State}
    (hp : along c p is s = true) (hq : along c q is s = true) :
    along c (fun i s => p i s && q i s) is s = true := by
  induction is generalizing s with
  | nil => rfl
  | cons i is ih =>
    rw [along, Bool.and_eq_true] at hp hq ⊢
    obtain ⟨pHere, hp⟩ := hp
    obtain ⟨qHere, hq⟩ := hq
    refine ⟨by rw [pHere, qHere]; rfl, ?_⟩
    cases done : execUnder c i s with
    | next u => rw [done] at hp hq; exact ih hp hq
    | fault => rfl
    | refused => rfl

end

/-- Settles O28: no frame is an edge, so the scan goes once round, and what is published then
stays. -/
theorem noEdgeFreeRunsInOneRevolution : Obligations.NoEdgeFreeRunsInOneRevolution := by
  intro c is s inv running init scan runs keeps quiet full
  have noEdges : along c (noEdge c) is s = true :=
    quiet.elim id fun ⟨keepsMode, among⟩ => along_noEdge_of_among running runs keepsMode among
  have start : Revolving c s.cap.tb s.pub.capSeq s.cap.index.toNat [] s :=
    ⟨inv, running, init, .inl ⟨rfl, rfl, by rw [scan]; rfl, (Nat.mod_eq_of_lt inv.index_lt).symm,
      RingHolds.nil _ _ _⟩⟩
  obtain ⟨t, done, h⟩ := execAllUnder_samples
    (P := Revolving c s.cap.tb s.pub.capSeq s.cap.index.toNat) (n := c.count s.cap.tb)
    (frame := fun h below ok done => h.frame below (Bool.and_eq_true_iff.mp ok).2 done)
    (other := fun h notFrame notStop notReset ok done =>
      h.other notFrame notStop notReset (Bool.and_eq_true_iff.mp ok).1 done)
    start runs (along_and keeps noEdges) (by simp [full])
  have freeRan : FreeRan c s.cap.tb s.pub.capSeq (samples c (inputs is)) t := by
    refine h.progress.resolve_left fun scanned => ?_
    have below := h.inv.scan_lt
    rw [scanned.scan, length_eq, scanned.entry, List.nil_append, samples, List.length_map, full]
      at below
    exact below.false
  have published := freeRan.published
  exact ⟨t, done, h.init, freeRan.scan, freeRan.freerun, published.window, published.capLen,
    published.capXscale, published.capFreerun, published.capSeq⟩

end Sys2Proof.Machine
end

section
/-! SUPPORT. The transition table of the trigger detector (R162): which unit changes the state, and
to what. -/

namespace Sys2Proof.Machine

section
variable {c : Cfg Q} {x : Q} {s : State}

theorem initEdge_state (inv : CaptureInv c s) : (initEdge c x s).trig.state =
    if c.count s.cap.tb = 1 then .last else .first := by
  split
  case isTrue one =>
    have entered : initEdge c x s = publishCapture c _ false _ :=
      settleIfFull_of_full (s := edgeStored c x s) (inv.initEdge c x) one.symm
    rw [entered]
    rfl
  case isFalse long => rw [initEdge_of_not_full long]; rfl

/-- A change of the trigger state in `CaptureStep` is one of two: an edge in `INIT`, or the sample
that completes the window in `FIRST`. -/
theorem captureStep_state_change (inv : CaptureInv c s)
    (change : (captureStep c x s).trig.state ≠ s.trig.state) :
    (s.trig.state = .init ∧ qualifies c x s = true ∧
      (captureStep c x s).trig.state = if c.count s.cap.tb = 1 then .last else .first) ∨
    (s.trig.state = .first ∧ s.cap.count.toNat + 1 = c.count s.cap.tb ∧
      (captureStep c x s).trig.state = .last) := by
  rcases captureStep_cases c x s with
    ⟨init, isEdge, e⟩ | ⟨-, -, e⟩ | ⟨first, e⟩ | ⟨next, -⟩ | ⟨-, e⟩
  · exact .inl ⟨init, isEdge, e ▸ initEdge_state inv⟩
  · exact absurd (by rw [e, initScan_trig]) change
  · rw [e] at change ⊢
    obtain ⟨-, count_lt, -⟩ := inv.first_count first
    by_cases full : (s.cap.count + 1).toNat = length c s
    · refine .inr ⟨first, (toNat_succ_of_lt_length c count_lt).symm.trans full, ?_⟩
      rw [firstFill_of_full inv first full]
      rfl
    · exact absurd (by rw [firstFill_of_not_full full]; rfl) change
  · exact absurd next inv.not_next
  · exact absurd (by rw [e]) change

/-- A change of the trigger state in `INCB` enters `INIT`, by the request that asks for it. -/
theorem callbackBoundary_state_change (running : s.run = true)
    (change : (callbackBoundary c s).trig.state ≠ s.trig.state) :
    (callbackBoundary c s).trig.state = .init ∧
      (s.req.tb ≠ s.cap.tb ∨ flagClear s.req.flags = true ∨ LeavesLast s) := by
  cases clear : flagClear s.req.flags with
  | true => exact ⟨by rw [callbackBoundary_clear c running clear]; rfl, .inr (.inl rfl)⟩
  | false =>
    by_cases tb : s.req.tb = s.cap.tb
    · by_cases leaves : LeavesLast s
      · rw [callbackBoundary_leavesLast c running tb clear leaves]
        exact ⟨rfl, .inr (.inr leaves)⟩
      · exact absurd (by rw [callbackBoundary_adoptsModeOnly c running tb clear leaves]) change
    · exact ⟨by rw [callbackBoundary_timebase c running tb clear], .inl tb⟩

end

/-- Settles O38, by what the operation did. -/
theorem triggerTransitionTable : Obligations.TriggerTransitionTable := by
  intro i s t inv h change
  cases exec_effect h with
  | idle | stop | outf => exact absurd rfl change
  | read _ _ f => exact absurd (congrArg Trig.state f.trig) change
  | regw _ _ _ write => cases write <;> exact absurd rfl change
  | inf d running =>
    rw [inputFrame_trig Config.cfg _ s running] at change ⊢
    rcases captureStep_state_change inv.capture change with ⟨init, isEdge, target⟩ | completes
    · exact .inl ⟨d, rfl, running, init, isEdge, target⟩
    · exact .inr (.inl ⟨d, rfl, running, completes⟩)
  | incb running =>
    obtain ⟨target, request⟩ := callbackBoundary_state_change running change
    exact .inr (.inr (.inl ⟨rfl, running, target, request⟩))
  | start stopped => exact .inr (.inr (.inr (.inl ⟨rfl, stopped, rfl⟩)))
  | reset => exact .inr (.inr (.inr (.inr ⟨rfl, rfl⟩)))

end Sys2Proof.Machine
end

section
/-! SUPPORT. The analyzer frame by frame (R171, R173, R174): the store of a sample, the fold of a
sub-window and the publication, each under its condition on the counters; the peak bin (R175). -/

namespace Sys2Proof.Machine

/-- A counter steps onto a limit its width can hold exactly from the number below it. -/
theorem toNat_succ_eq_iff {w n : Nat} {k : BitVec w} (pos : 0 < n) (hn : n < 2 ^ w) :
    (k + 1).toNat = n ↔ k.toNat + 1 = n := by
  by_cases below : k.toNat + 1 < 2 ^ w
  · rw [toNat_succ_of_lt below (Nat.lt_succ_self _)]
  · have last : k.toNat + 1 = 2 ^ w := by have := k.isLt; omega
    have wraps : k + 1 = 0#w := by
      apply BitVec.eq_of_toNat_eq
      rw [BitVec.toNat_add, BitVec.ofNat_eq_ofNat, BitVec.toNat_ofNat, Nat.add_mod_mod, last,
        Nat.mod_self, BitVec.toNat_zero]
    rw [wraps, BitVec.toNat_zero]
    omega

section
variable (c : Cfg Q) (x : Q) (s : State)

/-! ## The sub-window (R173, R174) -/

theorem subWindow_of_notLast (notLast : s.spec.slot.toNat + 1 ≠ kOversample) :
    subWindow c s = folded c s := by
  rw [subWindow_eq, if_neg (mt (toNat_succ_eq_iff (by decide) (by decide)).mp notLast)]

theorem subWindow_of_last (last : s.spec.slot.toNat + 1 = kOversample) :
    subWindow c s = publishAndRestart c (folded c s) := by
  rw [subWindow_eq, if_pos ((toNat_succ_eq_iff (by decide) (by decide)).mpr last)]

/-- A sub-window leaves the history and its counters alone. -/
theorem subWindow_history : (subWindow c s).spec.hist = s.spec.hist ∧
    (subWindow c s).spec.hpos = s.spec.hpos ∧ (subWindow c s).spec.fill = s.spec.fill := by
  rw [subWindow_eq]
  split <;> exact ⟨rfl, rfl, rfl⟩

/-- The fold adds the magnitude spectrum of the window, bin by bin. -/
theorem folded_acc_read (k : Fin kRange) : (folded c s).spec.acc.read k =
    c.num.add (s.spec.acc.read k) (c.num.dftmag (window s) k) := by
  simp [folded, Memory.read_setPrefix, foldBin]

/-- A publication clears the accumulator. -/
theorem publishAndRestart_acc_read (k : Fin kRange) :
    (publishAndRestart c s).spec.acc.read k = 0 := by
  simp [publishAndRestart_spec, Memory.read_setPrefix]

/-! ## The frame (R171) -/

/-- The cursor of the history is as wide as the history is long. -/
theorem stored_hpos : (stored x s).spec.hpos.toNat = (s.spec.hpos.toNat + 1) % kSamples :=
  (BitVec.toNat_ofNat _ 12).trans (Nat.mod_mod _ _)

/-- The state in which the sub-window of a 1024th frame is taken: the sample stored, `fill` back
at 0. -/
def storedFull : State := (stored x s).withSpec { (stored x s).spec with fill := 0 }

theorem spectrumStep_of_notFull (notFull : s.spec.fill.toNat + 1 ≠ kStep) :
    spectrumStep c x s = stored x s := by
  rw [spectrumStep_eq, if_neg (mt (toNat_succ_eq_iff (by decide) (by decide)).mp notFull)]

theorem spectrumStep_of_full (full : s.spec.fill.toNat + 1 = kStep) :
    spectrumStep c x s = subWindow c (storedFull x s) := by
  rw [spectrumStep_eq, if_pos ((toNat_succ_eq_iff (by decide) (by decide)).mpr full), storedFull]

/-- Every frame is stored at the cursor of the history, which moves on. -/
theorem spectrumStep_history :
    (spectrumStep c x s).spec.hist = s.spec.hist.write s.spec.hpos.toNat x ∧
    (spectrumStep c x s).spec.hpos.toNat = (s.spec.hpos.toNat + 1) % kSamples := by
  by_cases full : s.spec.fill.toNat + 1 = kStep
  · obtain ⟨hist, cursor, -⟩ := subWindow_history c (storedFull x s)
    rw [spectrumStep_of_full c x s full, hist, cursor]
    exact ⟨rfl, stored_hpos x s⟩
  · rw [spectrumStep_of_notFull c x s full]
    exact ⟨rfl, stored_hpos x s⟩

/-- The window of a sub-window is read from the history as the frame leaves it. -/
theorem window_storedFull : window (storedFull x s) = window (spectrumStep c x s) := by
  obtain ⟨hist, hpos⟩ := spectrumStep_history c x s
  have cursor : (storedFull x s).spec.hpos.toNat = (s.spec.hpos.toNat + 1) % kSamples :=
    stored_hpos x s
  unfold window
  rw [hist, hpos, cursor]
  rfl

/-- `inputFrame_spec` as one statement. -/
theorem inputFrame_spectrumEq (running : s.run = true) :
    SpectrumEq (inputFrame c x s) (spectrumStep c x s) := by
  obtain ⟨spec, pubSpec, specSeq, freq, level⟩ := inputFrame_spec c x s running
  exact ⟨spec, pubSpec, specSeq, freq, level⟩

end

/-- Settles O20, by whether the frame is the 1024th since the last sub-window. -/
theorem infStoresTheHistory : Obligations.InfStoresTheHistory := by
  intro d s running finite
  have frame := inputFrame_spectrumEq Config.cfg (Config.cfg.num.dec32 d) s running
  obtain ⟨hist, hpos⟩ := spectrumStep_history Config.cfg (Config.cfg.num.dec32 d) s
  refine ⟨_, exec_inf_of_finite finite s, fun a => ?_, ?_, fun full => ?_, fun notFull => ?_⟩
  · rw [frame.spec, hist, Memory.read_write]
  · rw [frame.spec, hpos, kSamples]
  · obtain ⟨-, -, fill⟩ := subWindow_history Config.cfg (storedFull (Config.cfg.num.dec32 d) s)
    rw [frame.spec, spectrumStep_of_full _ _ _ full, fill]
    rfl
  · rw [frame.spec, frame.pubSpec, frame.specSeq, frame.freq, frame.level,
      spectrumStep_of_notFull _ _ _ notFull]
    exact ⟨rfl, rfl, rfl, rfl, rfl, rfl, rfl⟩

/-- Settles O21, by whether the sub-window is the fourth since the last publication. -/
theorem subWindowFoldsAndPublishes : Obligations.SubWindowFoldsAndPublishes := by
  intro d s running finite full
  refine ⟨_, exec_inf_of_finite finite s, ?_⟩
  generalize Config.cfg.num.dec32 d = x
  have frame := inputFrame_spectrumEq Config.cfg x s running
  have sameWindow : window (storedFull x s) = window (inputFrame Config.cfg x s) := by
    rw [window_storedFull Config.cfg]
    unfold window
    rw [frame.spec]
  intro m
  have magnitudes : Config.cfg.num.dftmag (window (storedFull x s)) = m :=
    congrArg Config.cfg.num.dftmag sameWindow
  rw [← magnitudes, frame.spec, frame.pubSpec, frame.specSeq, frame.freq, frame.level,
    spectrumStep_of_full Config.cfg x s full]
  refine ⟨fun notLast => ?_, fun last => ?_⟩
  · rw [subWindow_of_notLast Config.cfg (storedFull x s) notLast]
    exact ⟨folded_acc_read Config.cfg (storedFull x s), rfl, rfl, rfl, rfl, rfl⟩
  · rw [subWindow_of_last Config.cfg (storedFull x s) last]
    obtain ⟨freq, level⟩ :=
      publishSpectrum_readout Config.cfg (folded Config.cfg (storedFull x s))
    refine ⟨fun k => ?_, fun k => ?_, rfl, rfl, freq, level⟩
    · rw [publishAndRestart_pub, publishSpectrum_read, if_pos k.isLt, folded_acc_read]
      rfl
    · rw [publishAndRestart_acc_read]
      exact cfg_dec32_zero.symm

/-! ## The peak bin (R175) -/

section
variable {α : Type} [Zero α] {n : Numeric α}

/-- L3: no finite value is less than itself. -/
theorem lawOrder_lt_irrefl (law : n.LawOrder) {x : α} (fx : n.finite x = true) :
    n.lt x x = false := by
  obtain ⟨total, -, strict⟩ := law
  refine Bool.eq_false_iff.mpr fun lt => ?_
  have notLe := (strict x x fx fx).mp lt
  exact absurd ((total x x fx fx).elim id id) (Bool.eq_false_iff.mp notLe)

theorem lawOrder_lt_trans (law : n.LawOrder) {x y z : α} (fx : n.finite x = true)
    (fy : n.finite y = true) (fz : n.finite z = true) (xy : n.lt x y = true)
    (yz : n.lt y z = true) : n.lt x z = true := by
  obtain ⟨total, trans, strict⟩ := law
  have notYx := Bool.eq_false_iff.mp ((strict x y fx fy).mp xy)
  have notZy := Bool.eq_false_iff.mp ((strict y z fy fz).mp yz)
  have leXy : n.le x y = true := (total x y fx fy).resolve_right notYx
  refine (strict x z fx fz).mpr (Bool.eq_false_iff.mpr fun zx => notZy ?_)
  exact trans z x y fz fx fy zx leXy

/-- L3: among finitely many finite values one is exceeded by none. -/
theorem lawOrder_exists_greatest {ι : Type} [Finite ι] (law : n.LawOrder) {m : ι → α}
    (finite : ∀ i, n.finite (m i) = true) {band : ι → Prop} (nonempty : ∃ i, band i) :
    ∃ p, band p ∧ ∀ j, band j → n.lt (m p) (m j) = false := by
  have trans : IsTrans ι (fun i j => n.lt (m j) (m i) = true) :=
    ⟨fun _ _ _ ij jk => lawOrder_lt_trans law (finite _) (finite _) (finite _) jk ij⟩
  have irrefl : Std.Irrefl (fun i j => n.lt (m j) (m i) = true) :=
    ⟨fun i => Bool.eq_false_iff.mp (lawOrder_lt_irrefl law (finite i))⟩
  obtain ⟨p, inBand, greatest⟩ :=
    (Finite.wellFounded_of_trans_of_irrefl (fun i j => n.lt (m j) (m i) = true)).has_min
      {i | band i} nonempty
  exact ⟨p, inBand, fun j hj => Bool.eq_false_iff.mpr (greatest j hj)⟩

variable {c : Cfg α} {m : Fin kRange → α}

theorem isPeak_iff {k : Fin kRange} : isPeak c m k = true ↔
    inBand c k = true ∧ ∀ j : Fin kRange, inBand c j = true → c.num.lt (m k) (m j) = false := by
  simp [isPeak, imp_iff_not_or]

/-- Where some bin has R175's condition, `PeakBin` is the lowest that has it. -/
theorem peakBin_lowest (exPeak : ∃ k, isPeak c m k = true) :
    isPeak c m (peakBin c m) = true ∧ ∀ k < peakBin c m, isPeak c m k = false := by
  unfold peakBin
  split
  case h_1 p found =>
    obtain ⟨peak, lowest⟩ :=
      (List.find?_ofFn_eq_some_of_injective Function.injective_id).mp found
    exact ⟨peak, fun k below => Bool.eq_false_iff.mpr (lowest k below)⟩
  case h_2 notFound =>
    obtain ⟨k, peak⟩ := exPeak
    exact absurd peak (List.find?_eq_none.mp notFound k (List.mem_finRange k))

theorem exists_isPeak (law : c.num.LawOrder) (finite : ∀ k, c.num.finite (m k) = true) :
    ∃ k, isPeak c m k = true := by
  obtain ⟨k, above, below⟩ := c.band_nonempty
  obtain ⟨p, peak⟩ := lawOrder_exists_greatest law finite
    (band := fun k => inBand c k = true) ⟨k, by rw [inBand, above, below]; rfl⟩
  exact ⟨p, isPeak_iff.mpr peak⟩

/-- A bin of the band below `PeakBin` is exceeded by a bin of the band. -/
theorem exceeded_of_lt_peakBin (exPeak : ∃ k, isPeak c m k = true) {k : Fin kRange}
    (band : inBand c k = true) (below : k < peakBin c m) :
    ∃ j : Fin kRange, inBand c j = true ∧ c.num.lt (m k) (m j) = true := by
  have notPeak := Bool.eq_false_iff.mp ((peakBin_lowest exPeak).2 k below)
  rw [Ne, isPeak_iff] at notPeak
  push Not at notPeak
  obtain ⟨j, hj, exceeds⟩ := notPeak band
  exact ⟨j, hj, by simpa using exceeds⟩

end

/-- Settles O22: L3 makes a greatest bin of the band exist, so `PeakBin` is the lowest of them. -/
theorem peakBinIsTheLowestGreatestBin : Obligations.PeakBinIsTheLowestGreatestBin := by
  intro α _ c m law finite band
  have band_iff (k : Fin kRange) : band k ↔ inBand c k = true := Bool.and_eq_true_iff.symm
  have exPeak := exists_isPeak law finite
  obtain ⟨inside, greatest⟩ := isPeak_iff.mp (peakBin_lowest exPeak).1
  have exceeded (k) (hk : band k) (below : k < peakBin c m) :
      ∃ j, band j ∧ c.num.lt (m k) (m j) = true := by
    obtain ⟨j, hj, exceeds⟩ := exceeded_of_lt_peakBin exPeak ((band_iff k).mp hk) below
    exact ⟨j, (band_iff j).mpr hj, exceeds⟩
  refine ⟨(band_iff _).mpr inside, fun j hj => greatest j ((band_iff j).mp hj), exceeded,
    fun silent k hk => le_of_not_gt fun below => ?_⟩
  obtain ⟨j, -, exceeds⟩ := exceeded k hk below
  rw [silent j, ← silent k, lawOrder_lt_irrefl law (finite k)] at exceeds
  exact nomatch exceeds

end Sys2Proof.Machine
end

section
/-! SUPPORT. The spectrum over a session under every interleaving (R14, R170, R171, R173, R174): what
the frames since `START` make of the counters and of the history, and that every other operation
keeps both. -/

namespace Sys2Proof.Machine

/-! ## Between the frames -/

/-- A running engine keeps running, and keeps the spectrum group and its publication count, over
every operation but `INF`, `STOP` and `RESET`. -/
theorem OpEffect.keeps_spectrum {c : Cfg Q} {i : Instr} {s t : State} (effect : OpEffect c s i t)
    (running : s.run = true) (notFrame : ∀ d, i ≠ .inf d) (notStop : i ≠ .stop)
    (notReset : i ≠ .reset) :
    t.run = true ∧ t.spec = s.spec ∧ t.pub.specSeq = s.pub.specSeq := by
  cases effect with
  | reset => exact absurd rfl notReset
  | stop => exact absurd rfl notStop
  | inf d => exact absurd rfl (notFrame d)
  | start stopped => exact absurd (running.symm.trans stopped) nofun
  | idle | outf => exact ⟨running, rfl, rfl⟩
  | incb =>
    have f := callbackBoundary_captureFrame c s running
    exact ⟨f.run.trans running, f.spec, f.specSeq⟩
  | regw _ _ _ write => cases write <;> exact ⟨running, rfl, rfl⟩
  | read _ _ f => exact ⟨f.run.trans running, f.spec, by rw [f.pub]⟩

/-! ## The counters (R171, R173, R174) -/

section
variable {c : Cfg Q} {x : Q} {s t : State} {n : Nat}

/-- The counters stand where `n` frames since `START` put them. -/
structure CountersAfter (n : Nat) (s : State) : Prop where
  hpos : s.spec.hpos.toNat = n % 4096
  fill : s.spec.fill.toNat = n % 1024
  slot : s.spec.slot.toNat = n / 1024 % 4
  specSeq : s.pub.specSeq = BitVec.ofNat 32 (n / 4096)

theorem CountersAfter.congr (h : CountersAfter n s) (spec : t.spec = s.spec)
    (specSeq : t.pub.specSeq = s.pub.specSeq) : CountersAfter n t := by
  obtain ⟨hpos, fill, slot, seq⟩ := h
  rw [← spec] at hpos fill slot
  exact ⟨hpos, fill, slot, specSeq.trans seq⟩

/-- One more frame, by whether it is the 1024th since the last sub-window and, if so, whether that
is the fourth since the last publication. -/
theorem CountersAfter.spectrumStep (h : CountersAfter n s) :
    CountersAfter (n + 1) (spectrumStep c x s) := by
  obtain ⟨hpos, fill, slot, specSeq⟩ := h
  have cursor : (Machine.spectrumStep c x s).spec.hpos.toNat = (n + 1) % 4096 := by
    rw [(spectrumStep_history c x s).2, hpos, kSamples, Nat.mod_add_mod]
  by_cases full : s.spec.fill.toNat + 1 = 1024
  · have fillZero : 0 = (n + 1) % 1024 := by omega
    rw [spectrumStep_of_full c x s full] at cursor ⊢
    by_cases last : s.spec.slot.toNat + 1 = 4
    · have published : (n + 1) / 4096 = n / 4096 + 1 := by omega
      have slotZero : 0 = (n + 1) / 1024 % 4 := by omega
      rw [subWindow_of_last c (storedFull x s) last] at cursor ⊢
      refine ⟨cursor, fillZero, slotZero, ?_⟩
      rw [published, BitVec.ofNat_add, ← specSeq]
      rfl
    · have kept : (n + 1) / 4096 = n / 4096 := by omega
      have slotNext : (s.spec.slot + 1).toNat = s.spec.slot.toNat + 1 :=
        toNat_succ_of_lt (n := 4) (by decide) (by omega)
      rw [subWindow_of_notLast c (storedFull x s) last] at cursor ⊢
      exact ⟨cursor, fillZero, slotNext.trans (by omega), kept ▸ specSeq⟩
  · have kept : (n + 1) / 4096 = n / 4096 := by omega
    have fillNext : (s.spec.fill + 1).toNat = s.spec.fill.toNat + 1 :=
      toNat_succ_of_lt (n := 1024) (by decide) (by omega)
    rw [spectrumStep_of_notFull c x s full] at cursor ⊢
    exact ⟨cursor, fillNext.trans (by omega), slot.trans (by omega), kept ▸ specSeq⟩

/-! ## The history (R170, R171) -/

/-- The last `kSamples` samples of a session, zeros standing for those before it. -/
def lastSamples (xs : List Q) : List Q := (List.replicate kSamples 0 ++ xs).drop xs.length

theorem lastSamples_length (xs : List Q) : (lastSamples xs).length = kSamples := by
  simp [lastSamples]

/-- A new sample drops the oldest. -/
theorem lastSamples_concat (xs : List Q) (x : Q) :
    lastSamples (xs ++ [x]) = (lastSamples xs).tail ++ [x] := by
  have room : xs.length + 1 ≤ (List.replicate kSamples (0 : Q) ++ xs).length := by
    rw [List.length_append, List.length_replicate]
    have : 0 < kSamples := by decide
    omega
  rw [lastSamples, lastSamples, List.length_append, List.length_singleton, ← List.append_assoc,
    List.drop_append_of_le_length room, List.tail_drop]

theorem lastSamples_getElem? (xs : List Q) (j : Nat) : (lastSamples xs)[j]? =
    if xs.length + j < kSamples then some 0 else xs[xs.length + j - kSamples]? := by
  rw [lastSamples, List.getElem?_drop]
  split
  case isTrue early =>
    rw [List.getElem?_append_left (by simpa using early), List.getElem?_replicate, if_pos early]
  case isFalse late =>
    rw [List.getElem?_append_right (by simpa using late), List.length_replicate]

/-- Without the first of the samples, the others begin one address further. -/
theorem RingHolds.tail {ring : Memory} {len base : Nat} {xs : List Q}
    (h : RingHolds ring len base xs) : RingHolds ring len (base + 1) xs.tail := by
  intro k below
  rw [List.length_tail] at below
  rw [List.getElem?_tail, ← h (k + 1) (by omega), Nat.add_right_comm, Nat.add_assoc]

/-- A ring of `kSamples` words that holds the last samples takes the next one over the oldest. -/
theorem RingHolds.shift {ring : Memory} {xs : List Q}
    (h : RingHolds ring kSamples xs.length (lastSamples xs)) (x : Q) :
    RingHolds (ring.write (xs.length % kSamples) x) kSamples (xs ++ [x]).length
      (lastSamples (xs ++ [x])) := by
  have others : (lastSamples xs).tail.length + 1 = kSamples := by
    rw [List.length_tail, lastSamples_length]; rfl
  have stored := h.tail.write (by omega) x
  have address : (xs.length + 1 + (lastSamples xs).tail.length) % kSamples =
      xs.length % kSamples := by
    rw [Nat.add_assoc, Nat.add_comm 1, others, Nat.add_mod_right]
  rwa [address, ← lastSamples_concat, ← List.length_singleton (a := x), ← List.length_append]
    at stored

/-! ## The session -/

/-- The engine runs and the analyzer has taken the samples `xs` since `START`. -/
structure SessionAfter (xs : List Q) (s : State) : Prop where
  running : s.run = true
  counters : CountersAfter xs.length s
  history : RingHolds s.spec.hist kSamples xs.length (lastSamples xs)

theorem SessionAfter.start (c : Cfg Q) (s : State) : SessionAfter [] (startEngine c s) where
  running := rfl
  counters := ⟨rfl, rfl, rfl, rfl⟩
  history := by
    intro k below
    rw [lastSamples_length] at below
    rw [lastSamples_getElem?, List.length_nil, Nat.zero_add, if_pos below]
    rfl

theorem SessionAfter.frame {xs : List Q} {d : Word} (h : SessionAfter xs s)
    (done : execUnder c (.inf d) s = .next t) : SessionAfter (xs ++ [c.num.dec32 d]) t := by
  obtain ⟨-, rfl⟩ := inputSample_next done
  have same := inputFrame_spectrumEq c (c.num.dec32 d) s h.running
  refine ⟨(inputFrame_frame c _ s).run.trans h.running, ?_, ?_⟩
  · rw [List.length_append, List.length_singleton]
    exact h.counters.spectrumStep.congr same.spec same.specSeq
  · rw [same.spec, (spectrumStep_history c _ s).1, h.counters.hpos]
    exact h.history.shift _

theorem SessionAfter.other {xs : List Q} {i : Instr} (h : SessionAfter xs s)
    (notFrame : ∀ d, i ≠ .inf d) (notStop : i ≠ .stop) (notReset : i ≠ .reset)
    (done : execUnder c i s = .next t) : SessionAfter xs t := by
  obtain ⟨running, spec, specSeq⟩ :=
    (execUnder_effect done).keeps_spectrum h.running notFrame notStop notReset
  exact ⟨running, h.counters.congr spec specSeq, spec ▸ h.history⟩

/-- No condition at all holds along every sequence. -/
theorem along_trivial (c : Cfg Q) (is : List Instr) (s : State) :
    along c (fun _ _ => true) is s = true := by
  induction is generalizing s with
  | nil => rfl
  | cons i is ih =>
    rw [along, Bool.true_and]
    cases execUnder c i s with
    | next u => exact ih u
    | fault => rfl
    | refused => rfl

end

/-- `START` and any operations that keep the engine running make a session of their samples. -/
theorem execAll_start_session {s : State} {is : List Instr} (stopped : s.run = false)
    (runs : keepsRunning is = true) : ∃ t, execAll (.start :: is) s = .next t ∧
      SessionAfter (samples Config.cfg (inputs is)) t := by
  have tail : execAll (.start :: is) s =
      execAllUnder Config.cfg is (startEngine Config.cfg s) :=
    (runWith_cons_next _ _ is (exec_start_stopped stopped)).trans (execAll_eq_execAllUnder is _)
  rw [tail]
  exact execAllUnder_samples (P := SessionAfter) (xs := [])
    (frame := fun h _ _ done => h.frame done)
    (other := fun h notFrame notStop notReset _ done => h.other notFrame notStop notReset done)
    (SessionAfter.start Config.cfg s) runs (along_trivial Config.cfg is _) le_rfl

/-- Settles O29: the counters of the session. -/
theorem spectrumIsPublishedOncePer4096Frames :
    Obligations.SpectrumIsPublishedOncePer4096Frames := by
  intro s is stopped runs
  obtain ⟨t, done, session⟩ := execAll_start_session stopped runs
  obtain ⟨hpos, fill, slot, specSeq⟩ := session.counters
  rw [samples, List.length_map] at hpos fill slot specSeq
  exact ⟨t, done, specSeq, slot, fill, hpos⟩

/-- Settles O30: the history of the session, whose oldest sample stands at the cursor. -/
theorem historyHoldsTheLastSamples : Obligations.HistoryHoldsTheLastSamples := by
  intro s is stopped runs
  obtain ⟨t, done, session⟩ := execAll_start_session stopped runs
  refine ⟨t, done, fun j below => ?_⟩
  have held := session.history j (by rw [lastSamples_length]; exact below)
  rw [lastSamples_getElem?] at held
  rw [session.counters.hpos, Nat.mod_add_mod, cfg_dec32_zero]
  split
  case isTrue early => exact Option.some.inj (held.trans (if_pos early))
  case isFalse late =>
    have recorded := held.trans (if_neg late)
    exact congrArg (Option.getD · 0) recorded

end Sys2Proof.Machine
end

section
/-! SUPPORT. The level meter (R190 to R193): the level `INF` leaves, and in `NUM_REAL` its approach
to a sustained input and its decay on silence. -/

namespace Sys2Proof.Machine

/-- Settles O19: `INF` leaves the level of `MeterStep`, which the statement writes out. -/
theorem infMovesTheMeterLevel : Obligations.InfMovesTheMeterLevel := by
  intro d s running finite
  have frame := inputFrame_meter Config.cfg (Config.cfg.num.dec32 d) s running
  exact ⟨_, exec_inf_of_finite finite s, congrArg Meter.level frame⟩

/-! ## The meter in `NUM_REAL` -/

section
variable {u : Word → ℝ} {c : Cfg ℝ} (num : c.num = numReal u)
include num

/-- R7's constraints on the meter's bounds, in `NUM_REAL`. -/
theorem numReal_meter_bounds : 0 ≤ c.kMeterMin ∧ c.kMeterMin < c.kMeterMax := by
  obtain ⟨nonneg, ordered⟩ := c.meter_ok
  rw [num] at nonneg ordered
  exact ⟨of_decide_eq_true nonneg, of_decide_eq_true ordered⟩

/-- R7's constraint on the two smoothing constants, in `NUM_REAL`. -/
theorem numReal_constant_mem {a : ℝ} (ok : c.num.lt 0 a = true ∧ c.num.le a c.num.one = true) :
    a ∈ Set.Ioc 0 1 := by
  obtain ⟨pos, le_one⟩ := ok
  rw [num] at pos le_one
  exact ⟨of_decide_eq_true pos, of_decide_eq_true le_one⟩

theorem numReal_smoothing (level v : ℝ) :
    smoothing c level v = if level < v then c.kMeterAttack else c.kMeterDecay := by
  simp [smoothing, num, numReal]

theorem numReal_smoothing_mem (level v : ℝ) : smoothing c level v ∈ Set.Ioc 0 1 := by
  rw [numReal_smoothing num]
  split
  · exact numReal_constant_mem num c.attack_ok
  · exact numReal_constant_mem num c.decay_ok

theorem numReal_meterNext (level x : ℝ) : meterNext c level x =
    clampLevel c (level + smoothing c level |x| * (|x| - level)) := by
  simp only [meterNext, num, numReal]

/-- `Clamp` of a level below the upper bound cuts from below alone. -/
theorem numReal_clampLevel {l : ℝ} (below : l ≤ c.kMeterMax) :
    clampLevel c l = max c.kMeterMin l := by
  rcases lt_or_ge l c.kMeterMin with low | inside
  · simp [clampLevel, num, numReal, low, low.le]
  · simp [clampLevel, num, numReal, inside, inside.not_gt, below.not_gt]

/-! ## The approach (R192) -/

/-- The smoothed level lies between the level and the input, so the range holds it and `Clamp` does
nothing. -/
theorem numReal_meterNext_of_mem {level x : ℝ} (input : |x| ∈ Set.Icc c.kMeterMin c.kMeterMax)
    (inRange : level ∈ Set.Icc c.kMeterMin c.kMeterMax) :
    meterNext c level x = level + smoothing c level |x| * (|x| - level) := by
  obtain ⟨above, below⟩ := (convex_Icc c.kMeterMin c.kMeterMax).add_smul_sub_mem inRange input
    (Set.Ioc_subset_Icc_self (numReal_smoothing_mem num level |x|))
  rw [numReal_meterNext num]
  exact (numReal_clampLevel num below).trans (max_eq_right above)

/-! ## The decay (R193) -/

/-- What a silent frame leaves of the level is a proper part of it. -/
theorem numReal_one_sub_decay_mem : 1 - c.kMeterDecay ∈ Set.Ico 0 1 := by
  obtain ⟨pos, le_one⟩ := numReal_constant_mem num c.decay_ok
  exact ⟨sub_nonneg.mpr le_one, sub_lt_self 1 pos⟩

/-- A silent frame: no level is below the input 0, so the level decays. -/
theorem numReal_meterNext_zero {level : ℝ} (nonneg : 0 ≤ level) (below : level ≤ c.kMeterMax) :
    meterNext c level 0 = max c.kMeterMin ((1 - c.kMeterDecay) * level) := by
  obtain ⟨-, part⟩ := numReal_one_sub_decay_mem num
  have decays : smoothing c level 0 = c.kMeterDecay := by
    rw [numReal_smoothing num, if_neg nonneg.not_gt]
  have shrunk : level + c.kMeterDecay * (0 - level) = (1 - c.kMeterDecay) * level := by ring
  rw [numReal_meterNext num, abs_zero, decays, shrunk]
  exact numReal_clampLevel num ((mul_le_of_le_one_left nonneg part.le).trans below)

end

/-- Cutting at a bound `m` before shrinking makes no difference where it is cut at `m` again. -/
theorem max_mul_max_of_le_one {m q : ℝ} (m_nonneg : 0 ≤ m) (q_nonneg : 0 ≤ q) (q_le : q ≤ 1)
    (a : ℝ) : max m (q * max m a) = max m (q * a) := by
  rw [mul_max_of_nonneg _ _ q_nonneg, ← max_assoc,
    max_eq_left (mul_le_of_le_one_left m_nonneg q_le)]

/-- Settles O59: `Clamp` does nothing, and the rest is the smoothing formula. -/
theorem meterApproachesWithoutOvershoot : Obligations.MeterApproachesWithoutOvershoot := by
  intro u c x level num inputAbove inputBelow above below alpha
  have isSmoothing : smoothing c level |x| = alpha := numReal_smoothing num level |x|
  obtain ⟨pos, le_one⟩ := numReal_smoothing_mem num level |x|
  rw [numReal_meterNext_of_mem num ⟨inputAbove, inputBelow⟩ ⟨above, below⟩]
  rw [isSmoothing] at pos le_one ⊢
  exact ⟨by ring, sub_nonneg.mpr le_one, sub_lt_self 1 pos⟩

/-- Settles O60, by induction on the number of silent frames: the levels stay in the range, and
cutting at the lower bound after every frame is cutting once, after the last. -/
theorem meterDecaysOnSilence : Obligations.MeterDecaysOnSilence := by
  intro u c level n num above below
  obtain ⟨min_nonneg, min_lt_max⟩ := numReal_meter_bounds num
  obtain ⟨q_nonneg, q_lt⟩ := numReal_one_sub_decay_mem num
  have level_nonneg : 0 ≤ level := min_nonneg.trans above
  induction n with
  | zero => rw [Function.iterate_zero_apply, pow_zero, one_mul, max_eq_right above]
  | succ n ih =>
    have shrunk : (1 - c.kMeterDecay) ^ n * level ≤ level :=
      mul_le_of_le_one_left level_nonneg (pow_le_one₀ q_nonneg q_lt.le)
    rw [Function.iterate_succ_apply', ih,
      numReal_meterNext_zero num (le_max_of_le_left min_nonneg)
        (max_le min_lt_max.le (shrunk.trans below)),
      max_mul_max_of_le_one min_nonneg q_nonneg q_lt.le, ← mul_assoc, ← pow_succ']

end Sys2Proof.Machine
end

section
/-! SUPPORT. The host accesses at the port (R200 to R202, R209, R220, R221): what each read answers,
which writes are bus errors, and that the level a read of RD_FREQ latches stays latched (R214,
R261). -/

namespace Sys2Proof.Machine

/-! ## Register writes -/

/-- R202, flag by flag. -/
theorem clearSticky_eq_ite (data : Word) (st : Status) : clearSticky data st =
    { cfgerr := if data.getLsbD 1 then false else st.cfgerr
      overrun := if data.getLsbD 2 then false else st.overrun
      buserr := if data.getLsbD 3 then false else st.buserr
      freerun := st.freerun } := by
  have clears (flag written : Bool) : (flag && !written) = if written then false else flag := by
    cases written <;> simp
  rw [clearSticky, clears, clears, clears]

/-- Settles O45: of the state, a STATUS write changes the sticky flags alone. -/
theorem regwStatusClearsTheWrittenFlags : Obligations.RegwStatusClearsTheWrittenFlags := by
  intro data s
  rw [← clearSticky_eq_ite]
  exact exec_regw_addr .status data s

/-- The registers at `0x03`, `0x04` and from `0x09` up are read-only (R209). -/
theorem writeReg_readOnly (c : Cfg Q) {r : HostReg}
    (readOnly : r.addr.toNat = 3 ∨ r.addr.toNat = 4 ∨ 9 ≤ r.addr.toNat) (data : Word) (s : State) :
    writeReg c r data s = raise .bus s := by
  cases r with
  | status | toneFreq | toneAmp | timebase | mode | req | yscale =>
    exact absurd readOnly (by decide)
  | toneCount | tonePhase | rdFreq | rdLevel | meter | capSeq | capLen | capXscale | capInfo
  | specSeq => rfl

/-- Settles O52, by whether the address is mapped. -/
theorem regwReadOnlyOrUnmappedIsBusError : Obligations.RegwReadOnlyOrUnmappedIsBusError := by
  intro ra data s notWritable
  refine congrArg Host.Outcome.next (?_ : registerWrite Config.cfg ra data s = raise .bus s)
  cases reg : hostReg ra with
  | none => rw [registerWrite, reg]
  | some r =>
    rw [addr_of_hostReg reg] at notWritable ⊢
    rw [registerWrite_addr, writeReg_readOnly Config.cfg notWritable]

/-! ## Register reads -/

/-- The registers whose read changes no state (R40), in the order of their addresses. -/
def plainRegs : List HostReg :=
  [.status, .toneFreq, .toneAmp, .toneCount, .tonePhase, .timebase, .mode, .req, .yscale,
   .rdLevel, .meter, .capSeq, .capLen, .capXscale, .capInfo, .specSeq]

theorem rdFreq_notMem_plainRegs : HostReg.rdFreq ∉ plainRegs := by decide

theorem zextBit_eq_ite (b : Bool) : zextBit b = if b then 1#32 else 0#32 := by cases b <;> rfl

/-- A read of RD_FREQ answers the published frequency and latches the published level (R40, R214). -/
theorem exec_regr_rdFreq (s : State) : exec (.regr 0x09#8) s = .next
    { s with pub := { s.pub with levelShadow := s.pub.level },
             resp := some (Config.cfg.num.enc32 s.pub.freq) } :=
  congrArg Host.Outcome.next (registerRead_addr Config.cfg .rdFreq s)

/-- Settles O53: the listed pairs are the addresses of the plain registers with what they hold. -/
theorem regrReturnsTheHeldValue : Obligations.RegrReturnsTheHeldValue := by
  refine ⟨fun s => ⟨fun ra v listed => ?plain, exec_regr_rdFreq s⟩,
    fun ra s unmapped => exec_regr_unmapped unmapped s⟩
  rw [← zextBit_eq_ite] at listed
  have held : (ra, v) ∈ plainRegs.map fun r => (r.addr, regValue Config.cfg r s) := listed
  obtain ⟨r, plain, ⟨⟩⟩ := List.mem_map.mp held
  exact exec_regr_addr (fun isRdFreq => rdFreq_notMem_plainRegs (isRdFreq ▸ plain)) s

/-! ## Reads of the published arrays -/

section
variable (c : Cfg Q) {addr : Word} {s : State}

theorem readCapture_of_lt (inside : addr.toNat < s.pub.capLen.toNat) :
    readCapture c addr s = s.respond (c.num.enc32 (s.pub.cap.read addr.toNat)) := if_pos inside

theorem readCapture_of_ge (outside : s.pub.capLen.toNat ≤ addr.toNat) :
    readCapture c addr s = (raise .bus s).respond 0 := if_neg outside.not_gt

theorem readSpectrum_of_lt (inside : addr.toNat < kRange) :
    readSpectrum c addr s = s.respond (c.num.enc32 (s.pub.spec.read addr.toNat)) := if_pos inside

theorem readSpectrum_of_ge (outside : kRange ≤ addr.toNat) :
    readSpectrum c addr s = (raise .bus s).respond 0 := if_neg outside.not_gt

end

theorem exec_rdcap (addr : Word) (s : State) :
    exec (.rdcap addr) s = .next (readCapture Config.cfg addr s) := rfl

theorem exec_rdspec (addr : Word) (s : State) :
    exec (.rdspec addr) s = .next (readSpectrum Config.cfg addr s) := rfl

/-- Settles O56, by whether the address lies in the published window. -/
theorem rdcapReadsThePublishedWindow : Obligations.RdcapReadsThePublishedWindow := by
  intro addr s
  rw [exec_rdcap]
  split
  case isTrue inside => rw [readCapture_of_lt _ inside]; rfl
  case isFalse outside => rw [readCapture_of_ge _ (not_lt.mp outside)]; rfl

/-- Settles O57, by whether the address names a bin that is kept. -/
theorem rdspecReadsThePublishedSpectrum : Obligations.RdspecReadsThePublishedSpectrum := by
  intro addr s
  rw [exec_rdspec]
  split
  case isTrue inside => rw [readSpectrum_of_lt _ inside]; rfl
  case isFalse outside => rw [readSpectrum_of_ge _ (not_lt.mp outside)]; rfl

/-! ## The latched level (R214, R261) -/

section
variable {c : Cfg Q} {i : Instr} {s t : State}

theorem callbackBoundary_shadow :
    (callbackBoundary c s).pub.levelShadow = s.pub.levelShadow := by
  cases run : s.run with
  | false => rw [callbackBoundary_stopped c s run]
  | true => exact (callbackBoundary_captureFrame c s run).shadow

theorem outputFrame_pub : (outputFrame c s).pub = s.pub := by
  cases run : s.run with
  | false => rw [outputFrame_stopped c s run]; rfl
  | true => rw [outputFrame_running c s run]; rfl

theorem WriteEffect.pub {data : Word} {ra : RegAddr} (effect : WriteEffect c data s ra t) :
    t.pub = s.pub := by
  cases effect <;> rfl

theorem registerRead_pub {ra : RegAddr} (other : ra ≠ 0x09#8) :
    (registerRead c ra s).pub = s.pub := by
  cases reg : hostReg ra with
  | none => rw [registerRead, reg]; rfl
  | some r =>
    obtain rfl := addr_of_hostReg reg
    have notRdFreq : r ≠ .rdFreq := fun isRdFreq => other (congrArg HostReg.addr isRdFreq)
    rw [registerRead_addr, readEffect_of_ne notRdFreq]
    rfl

theorem readCapture_pub (addr : Word) : (readCapture c addr s).pub = s.pub := by
  rcases Nat.lt_or_ge addr.toNat s.pub.capLen.toNat with inside | outside
  · rw [readCapture_of_lt c inside]; rfl
  · rw [readCapture_of_ge c outside]; rfl

theorem readSpectrum_pub (addr : Word) : (readSpectrum c addr s).pub = s.pub := by
  rcases Nat.lt_or_ge addr.toNat kRange with inside | outside
  · rw [readSpectrum_of_lt c inside]; rfl
  · rw [readSpectrum_of_ge c outside]; rfl

/-- The latched level has no writer but a read of RD_FREQ, `START` and `RESET`. -/
theorem execUnder_keeps_shadow (h : execUnder c i s = .next t)
    (other : i ≠ .regr 0x09#8 ∧ i ≠ .start ∧ i ≠ .reset) :
    t.pub.levelShadow = s.pub.levelShadow := by
  obtain ⟨notRdFreq, notStart, notReset⟩ := other
  have of_pub (kept : t.pub = s.pub) := congrArg Pub.levelShadow kept
  cases i with
  | start => exact absurd rfl notStart
  | reset => exact absurd rfl notReset
  | nop | stop => cases h; rfl
  | incb => cases h; exact callbackBoundary_shadow
  | inf d =>
    obtain ⟨-, rfl⟩ := inputSample_next h
    exact (inputFrame_frame c _ s).shadow
  | outf => cases h; exact of_pub outputFrame_pub
  | regw ra data => cases h; exact of_pub (registerWrite_effect c ra data s).pub
  | regr ra =>
    cases h
    exact of_pub (registerRead_pub fun isRdFreq => notRdFreq (congrArg Instr.regr isRdFreq))
  | rdcap addr => cases h; exact of_pub (readCapture_pub addr)
  | rdspec addr => cases h; exact of_pub (readSpectrum_pub addr)

theorem execAll_keeps_shadow {is : List Instr}
    (others : ∀ i ∈ is, i ≠ .regr 0x09#8 ∧ i ≠ .start ∧ i ≠ .reset) (h : execAll is s = .next t) :
    t.pub.levelShadow = s.pub.levelShadow :=
  runWith_keeps exec (P := fun u => u.pub.levelShadow = s.pub.levelShadow) is
    (fun i mem u _ kept next =>
      (execUnder_keeps_shadow ((exec_eq_execUnder i u).symm.trans next) (others i mem)).trans kept)
    rfl h

end

/-- Settles O55: the read of RD_FREQ latches the level published with the frequency, the operations
after it keep the latch, and RD_LEVEL answers what it holds. -/
theorem readoutPairWasPublishedTogether : Obligations.ReadoutPairWasPublishedTogether := by
  intro is s t others h
  obtain ⟨u, rdFreq, rest⟩ := runWith_cons_inv exec h
  cases (exec_regr_rdFreq s).symm.trans rdFreq
  have latched : t.pub.levelShadow = s.pub.level := execAll_keeps_shadow others rest
  rw [← latched]
  exact exec_regr_addr (r := .rdLevel) nofun t

end Sys2Proof.Machine
end

section
/-! SUPPORT. The causes of the errors (R231): each kind of error with the operations that raise it,
and that no other operation sets its sticky flag. -/

namespace Sys2Proof.Machine

/-- The sticky flag of a kind of error (R230). -/
def Status.flag (st : Status) : ErrorKind → Bool
  | .config => st.cfgerr
  | .overrun => st.overrun
  | .bus => st.buserr

/-- The operation that leads from `s` to `t` sets the sticky flag of the error, which was clear. -/
def Raises (s t : State) (e : ErrorKind) : Prop := s.st.flag e = false ∧ t.st.flag e = true

/-- The table of R231: the operations that may raise each kind of error, in the state `s`. -/
inductive Cause (c : Cfg Q) (s : State) : ErrorKind → Instr → Prop where
  | toneFreq (data : Word) (rejected : ¬ freqAccepted c data = true) :
      Cause c s .config (.regw 0x01#8 data)
  | toneAmp (data : Word) (rejected : ¬ ampAccepted c data = true) :
      Cause c s .config (.regw 0x02#8 data)
  | timebase (data : Word) (rejected : tbEntries ≤ data.toNat) :
      Cause c s .config (.regw 0x05#8 data)
  | frame (d : Word) : Cause c s .overrun (.inf d)
  | write (ra : RegAddr) (data : Word)
      (notWritable : ra.toNat = 3 ∨ ra.toNat = 4 ∨ 9 ≤ ra.toNat) : Cause c s .bus (.regw ra data)
  | read (ra : RegAddr) (unmapped : 0x11 ≤ ra.toNat) : Cause c s .bus (.regr ra)
  | readCapture (addr : Word) (outside : s.pub.capLen.toNat ≤ addr.toNat) :
      Cause c s .bus (.rdcap addr)
  | readSpectrum (addr : Word) (outside : kRange ≤ addr.toNat) : Cause c s .bus (.rdspec addr)

section
variable {c : Cfg Q} {i : Instr} {s t : State} {e k : ErrorKind}

/-! ## What raises no error -/

theorem not_raises_of_flag (kept : t.st.flag e = s.st.flag e) : ¬ Raises s t e :=
  fun ⟨clear, set⟩ => Bool.false_ne_true (clear.symm.trans (kept.symm.trans set))

theorem not_raises_of_st (kept : t.st = s.st) : ¬ Raises s t e :=
  not_raises_of_flag (congrArg (Status.flag · e) kept)

/-- `RESET` and an effective `START` leave every flag clear (R111, R112). -/
theorem not_raises_of_init (init : t.st = ⟨false, false, false, false⟩) : ¬ Raises s t e := by
  rintro ⟨-, set⟩
  rw [init] at set
  cases e <;> cases set

/-- A STATUS write sets no flag (R202). -/
theorem acknowledge_not_raises (data : Word) : ¬ Raises s (acknowledge data s) e := by
  rintro ⟨clear, set⟩
  have held : s.st.flag e = true := by cases e <;> exact (Bool.and_eq_true_iff.mp set).1
  exact Bool.false_ne_true (clear.symm.trans held)

theorem callbackBoundary_not_raises : ¬ Raises s (callbackBoundary c s) e := by
  cases run : s.run with
  | false => rw [callbackBoundary_stopped c s run]; exact not_raises_of_st rfl
  | true =>
    have f := callbackBoundary_frame c s run
    cases e with
    | config => exact not_raises_of_flag f.cfgerr
    | overrun => exact not_raises_of_flag f.overrun
    | bus => exact not_raises_of_flag f.buserr

theorem start_not_raises : ¬ Raises s (start c s) e := by
  cases run : s.run with
  | false => rw [start_stopped c s run]; exact not_raises_of_init rfl
  | true => rw [start_running c s run]; exact not_raises_of_st rfl

theorem outputFrame_not_raises : ¬ Raises s (outputFrame c s) e := by
  cases run : s.run with
  | false => rw [outputFrame_stopped c s run]; exact not_raises_of_st rfl
  | true => rw [outputFrame_running c s run]; exact not_raises_of_st rfl

/-! ## What raises one -/

theorem raise_flag : (raise k s).st.flag e = if k = e then true else s.st.flag e := by
  obtain ⟨cfgerr, overrun, buserr, -⟩ := raise_effect s k
  cases e with
  | config => exact cfgerr
  | overrun => exact overrun
  | bus => exact buserr

/-- Raising an error sets the flag of no other (R231). -/
theorem kind_of_raises (st : t.st = (raise k s).st) (h : Raises s t e) : k = e := by
  by_contra other
  refine not_raises_of_flag ?_ h
  rw [st, raise_flag, if_neg other]

/-- An access with a check raises its error only where the check fails. -/
theorem rejected_of_raises {accepted : Prop} [Decidable accepted] {taken dropped : State}
    (h : Raises s (if accepted then taken else dropped) e) (kept : taken.st = s.st)
    (st : dropped.st = (raise k s).st) : ¬ accepted ∧ k = e := by
  split at h
  case isTrue => exact absurd h (not_raises_of_st kept)
  case isFalse rejected => exact ⟨rejected, kind_of_raises st h⟩

theorem inputFrame_cause {x : Q} (d : Word) (h : Raises s (inputFrame c x s) e) :
    Cause c s e (.inf d) := by
  have f := inputFrame_frame c x s
  cases e with
  | config => exact absurd h (not_raises_of_flag f.cfgerr)
  | overrun => exact .frame d
  | bus => exact absurd h (not_raises_of_flag f.buserr)

/-- A write of a mapped register raises `ConfigError` where its check fails (R203 to R205), and
`BusError` where the register is read-only (R209). -/
theorem writeReg_cause {r : HostReg} {data : Word} (h : Raises s (writeReg c r data s) e) :
    Cause c s e (.regw r.addr data) := by
  cases r with
  | status => exact absurd h (acknowledge_not_raises data)
  | mode | req | yscale => exact absurd h (not_raises_of_st rfl)
  | toneFreq =>
    obtain ⟨rejected, rfl⟩ := rejected_of_raises (k := .config) h rfl rfl
    exact .toneFreq data rejected
  | toneAmp =>
    obtain ⟨rejected, rfl⟩ := rejected_of_raises (k := .config) h rfl rfl
    exact .toneAmp data rejected
  | timebase =>
    change Raises s (writeTimebase data s) e at h
    rcases Nat.lt_or_ge data.toNat tbEntries with accepted | rejected
    · rw [writeTimebase_accepted accepted] at h
      exact absurd h (not_raises_of_st rfl)
    · rw [writeTimebase_rejected rejected] at h
      obtain rfl := kind_of_raises rfl h
      exact .timebase data rejected
  | toneCount | tonePhase | rdFreq | rdLevel | meter | capSeq | capLen | capXscale | capInfo
  | specSeq =>
    obtain rfl := kind_of_raises (k := .bus) rfl h
    exact .write _ data (by decide)

/-- The map of R32 has no gap: an address without a register lies above it. -/
theorem unmapped_of_hostReg {ra : RegAddr} (unmapped : hostReg ra = none) : 0x11 ≤ ra.toNat := by
  have mapped : ∀ n < 0x11, hostReg (BitVec.ofNat 8 n) ≠ none := by decide
  by_contra below
  refine mapped ra.toNat (not_le.mp below) ?_
  rw [BitVec.ofNat_toNat, BitVec.setWidth_eq, unmapped]

theorem registerWrite_cause {ra : RegAddr} {data : Word}
    (h : Raises s (registerWrite c ra data s) e) : Cause c s e (.regw ra data) := by
  cases reg : hostReg ra with
  | none =>
    rw [registerWrite, reg] at h
    obtain rfl := kind_of_raises (k := .bus) rfl h
    have above := unmapped_of_hostReg reg
    exact .write ra data (by omega)
  | some r =>
    obtain rfl := addr_of_hostReg reg
    rw [registerWrite_addr] at h
    exact writeReg_cause h

theorem readEffect_st (r : HostReg) (s : State) : (readEffect r s).st = s.st := by
  unfold readEffect
  split <;> rfl

theorem registerRead_cause {ra : RegAddr} (h : Raises s (registerRead c ra s) e) :
    Cause c s e (.regr ra) := by
  cases reg : hostReg ra with
  | none =>
    rw [registerRead, reg] at h
    obtain rfl := kind_of_raises (k := .bus) rfl h
    exact .read ra (unmapped_of_hostReg reg)
  | some r =>
    obtain rfl := addr_of_hostReg reg
    rw [registerRead_addr] at h
    exact absurd h (not_raises_of_st (readEffect_st r s))

theorem readCapture_cause {addr : Word} (h : Raises s (readCapture c addr s) e) :
    Cause c s e (.rdcap addr) := by
  obtain ⟨outside, rfl⟩ := rejected_of_raises (k := .bus) h rfl rfl
  exact .readCapture addr (not_lt.mp outside)

theorem readSpectrum_cause {addr : Word} (h : Raises s (readSpectrum c addr s) e) :
    Cause c s e (.rdspec addr) := by
  obtain ⟨outside, rfl⟩ := rejected_of_raises (k := .bus) h rfl rfl
  exact .readSpectrum addr (not_lt.mp outside)

/-! ## Any operation -/

/-- An operation that raises an error is in the table of its causes. -/
theorem execUnder_cause (h : execUnder c i s = .next t) (raises : Raises s t e) :
    Cause c s e i := by
  cases i with
  | nop | stop => cases h; exact absurd raises (not_raises_of_st rfl)
  | reset => cases h; exact absurd raises (not_raises_of_init rfl)
  | start => cases h; exact absurd raises start_not_raises
  | incb => cases h; exact absurd raises callbackBoundary_not_raises
  | inf d =>
    obtain ⟨-, rfl⟩ := inputSample_next h
    exact inputFrame_cause d raises
  | outf => cases h; exact absurd raises outputFrame_not_raises
  | regw ra data => cases h; exact registerWrite_cause raises
  | regr ra => cases h; exact registerRead_cause raises
  | rdcap addr => cases h; exact readCapture_cause raises
  | rdspec addr => cases h; exact readSpectrum_cause raises

end

/-- Settles O42, by the table of causes; an `INF` from a state with the invariant leads to one,
where `OVERRUN` is clear. -/
theorem flagsAreSetOnlyByTheirCauses : Obligations.FlagsAreSetOnlyByTheirCauses := by
  intro i s t h
  have cause {e : ErrorKind} (clear : s.st.flag e = false) (set : t.st.flag e = true) :
      Cause Config.cfg s e i :=
    execUnder_cause ((exec_eq_execUnder i s).symm.trans h) ⟨clear, set⟩
  refine ⟨fun clear set => ?config, fun clear set => ⟨?overrun, fun inv => ?invariant⟩,
    fun clear set => ?bus⟩
  case config =>
    cases cause (e := .config) clear set with
    | toneFreq data rejected => exact ⟨data, .inl ⟨rfl, (freqAccepted_iff _ data).not.mp rejected⟩⟩
    | toneAmp data rejected =>
      exact ⟨data, .inr (.inl ⟨rfl, (ampAccepted_iff _ data).not.mp rejected⟩)⟩
    | timebase data rejected => exact ⟨data, .inr (.inr ⟨rfl, rejected⟩)⟩
  case overrun =>
    cases cause (e := .overrun) clear set with
    | frame d => exact ⟨d, rfl⟩
  case invariant =>
    exact Bool.false_ne_true ((exec_inv h inv).capture.no_overrun.symm.trans set)
  case bus =>
    cases cause (e := .bus) clear set with
    | write ra data notWritable => exact .inl ⟨ra, data, rfl, notWritable⟩
    | read ra unmapped => exact .inr (.inl ⟨ra, rfl, unmapped⟩)
    | readCapture addr outside => exact .inr (.inr (.inl ⟨addr, rfl, outside⟩))
    | readSpectrum addr outside => exact .inr (.inr (.inr ⟨addr, rfl, outside⟩))

end Sys2Proof.Machine
end
